-- ==== Sys2Proof/Word.lean ====
section
/-! DEFINITION. The word types of the block (00_scope.md R8, R9) and the reading of a one-bit field as a boolean. -/

namespace Sys2Proof

/-- A byte of a handler, a CPU register or a data field (`DATA_BITS`, R8). -/
abbrev Byte := BitVec 8

/-- A CPU-view address, or the absolute address a handler is given (`ADDR_BITS`, R8, R72). -/
abbrev Addr := BitVec 16

/-- A VIC-view address (20_memory.md R60). -/
abbrev VicAddr := BitVec 14

/-- A half-cycle time (`TIME_BITS`, R8, 10_state.md R21). -/
abbrev Time := BitVec 64

/-- The id of an event record (30_encoding.md R98). -/
abbrev EventId := BitVec 8

/-- A packed slot index `opcode : subcycle` (30_encoding.md R90). -/
abbrev Slot := BitVec 11

/-- A command word (30_encoding.md R96). -/
abbrev CommandWord := BitVec 32

/-- The one-bit field of a boolean (R9, R12: `1` is true). -/
def bitOf (b : Bool) : BitVec 1 := BitVec.ofBool b

/-- The boolean of a one-bit field (R9, R12). -/
def boolOf (x : BitVec 1) : Bool := x.getLsbD 0

/-- The opcode byte of a slot index, bits `[10:3]` (30_encoding.md R90). -/
def slotOpcode (cc : Slot) : Byte := cc.extractLsb' 3 8

/-- The subcycle of a slot index, bits `[2:0]` (30_encoding.md R90). -/
def slotSub (cc : Slot) : BitVec 3 := cc.extractLsb' 0 3

/-- Packing: `(opcode << 3) | subcycle` (30_encoding.md R90). -/
def slotOf (opcode : Byte) (sub : BitVec 3) : Slot := opcode ++ sub

end Sys2Proof
end

