-- ==== Sys2Proof/Config.lean ====
section
/-! DEFINITION. The implementation parameters of 00_scope.md R8: the alternatives a parameter ranges over, the fixed values, and the uninterpreted constants for those no rule gives a value. Uninterpreted constants that need the machine's own types stand in Config/Free.lean. -/

namespace Sys2Proof.Config

/-- The two readings of "more than two past" (`INTERRUPT_CARRY`, OPEN; 60_exceptions.md R225). -/
inductive InterruptCarry where
  | literal
  | elapsed
  deriving DecidableEq, Repr

/-- Which boundary the branch quirk applies to (`BRANCH_DEFER_CASE`; 43_sequencer.md R203). -/
inductive BranchDeferCase where
  | pageCross
  | noPageCross
  deriving DecidableEq, Repr

/-- The two decimal-capable operations (43_sequencer.md R210). -/
inductive ArithOp where
  | adc
  | sbc
  deriving DecidableEq, Repr

/-- The path a flag of a decimal operation comes from (43_sequencer.md R210). -/
inductive FlagPath where
  | binary
  | decimal
  deriving DecidableEq, Repr, Inhabited

/-- Who owns an event record (10_state.md R23, 30_encoding.md R98). -/
inductive Owner where
  | block
  | collaborator
  deriving DecidableEq, Repr

/-- Records 0, 1 and 2 belong to the block, the others to collaborators (10_state.md R23). -/
def owner (i : EventId) : Owner := if i.toNat < 3 then .block else .collaborator

/-- The SEQ's non-stealing tick event (10_state.md R23). -/
def tickNsId : EventId := 0

/-- The SEQ's stealing tick event (10_state.md R23). -/
def tickStId : EventId := 1

/-- The AEC release event (10_state.md R23). -/
def aecId : EventId := 2

/-- `AEC_DELAY`, in CPU cycles (R8; 42_signals.md R160). -/
def aecDelay : Nat := 3

/-- `2 ^ TIME_BITS`: the first time that does not fit (R8; 30_encoding.md R93). -/
def timeLimit : Nat := 2 ^ 64

/-- `CYCLES_PER_SECOND` (10_state.md R25): OPEN, and no rule reads it. Log 20. -/
opaque cyclesPerSecond : Nat

/-- `ADC_DECIMAL_NZ` (43_sequencer.md R210): the paths N and Z come from in decimal mode. OPEN. Log 16. -/
opaque adcDecimalNZ : ArithOp → FlagPath × FlagPath

/-- N and Z of the decimal path (43_sequencer.md R210), which the spec does not give: those of the corrected result, of
an intermediate sum, or others. Arguments: operation, A, M, C. A free value. Log 16. -/
opaque decimalNZ : ArithOp → Byte → Byte → Bool → Bool × Bool

/-- The accumulator and carry of the decimal path (43_sequencer.md R210): "decimal-corrected nibble results", which
the spec does not give for any operands. Arguments: operation, A, M, C. A free value. Log 16. -/
opaque decimalResult : ArithOp → Byte → Byte → Bool → Byte × Bool

end Sys2Proof.Config
end

