-- ==== Sys2Proof/Machine/State.lean ====
section
/-! DEFINITION. The state of the block (10_state.md), plain data: the spec's five parts with the fault register and the history, then the model's own fields: the open parameters, the environment, the host's commands. -/

namespace Sys2Proof.Machine

/-- Why a step stops with a fault outcome: never. Every fault of the spec is a state of its own (60_exceptions.md R220,
R221), held in `State.fault`, so this type has no constructor (log 17; safe). -/
inductive Fault where
  deriving DecidableEq, Repr

/-- Why an instruction has no meaning. -/
inductive Refusal where
  /-- An instruction without a meaning: raised by no arm of this model (safe). -/
  | notModelled (mnemonic : String)
  deriving DecidableEq, Repr

/-- The fault codes of 60_exceptions.md R221, in its order. -/
inductive FaultCode where
  /-- 1: unassigned op, nonzero reserved bit, phase `11`; raised by the decoding of a command word (R97). -/
  | badCommand
  /-- 2: an internal-class command from outside the block (R97). -/
  | hostInternal
  /-- 3: a host-class command inside a callback or handler response (R97, R128). -/
  | reentrant
  /-- 4: `SCHED` or `CANCEL` of event 0, 1 or 2 from outside (R121, R123). -/
  | foreignEvent
  /-- 5: `SCHED` of a pending event (R121). -/
  | alreadyPending
  /-- 6: a trigger time that does not fit (R93). -/
  | timeOverflow
  /-- 7: a list walk at or past the bound (R121, R123, R127). -/
  | walkBound
  /-- 8: `RUNNEXT` or `STEP` with nothing pending (R124). -/
  | queueEmpty
  /-- 9: an IRQ release with none outstanding (R162). -/
  | irqUnderflow
  /-- 10: an NMI release with none outstanding (R163). -/
  | nmiUnderflow
  /-- 11: a slot without a micro-operation (R183). -/
  | microOpUnmodelled
  /-- 12: `Next` out of slot 7 (R183). -/
  | brokenInvariant
  deriving DecidableEq, Repr

/-- The numeric code (60_exceptions.md R221). -/
def FaultCode.code : FaultCode → Nat
  | .badCommand => 1
  | .hostInternal => 2
  | .reentrant => 3
  | .foreignEvent => 4
  | .alreadyPending => 5
  | .timeOverflow => 6
  | .walkBound => 7
  | .queueEmpty => 8
  | .irqUnderflow => 9
  | .nmiUnderflow => 10
  | .microOpUnmodelled => 11
  | .brokenInvariant => 12

/-- Handler ids (20_memory.md R61). `openBus` is the "disconnected/ultimax handler", `OPEN`. -/
inductive Handler where
  | ram
  | basic
  | kernal
  | char
  | io
  | roml
  | romh
  | openBus
  deriving DecidableEq, Repr, Inhabited

/-- The number of a handler in the keys of the simulator oracle's cells (the model's own; log 5). -/
def Handler.code : Handler → Nat
  | .ram => 0
  | .basic => 1
  | .kernal => 2
  | .char => 3
  | .io => 4
  | .roml => 5
  | .romh => 6
  | .openBus => 7

/-- An entry of the observation history (10_state.md R47). -/
inductive HistEntry where
  | read (h : Handler) (a : Addr) (d : Byte)
  | write (h : Handler) (a : Addr) (d : Byte)
  | fire (id : EventId) (t : Time)
  deriving DecidableEq, Repr

/-- EventClock state (10_state.md R21, R23, R24): the time, the trigger times of the 256 records, and the ids of the
linked records in list order. A record is pending exactly when its id is in the list (R24). -/
structure Clk where
  now : Time
  ev : Vector Time 256
  pending : List EventId
  deriving DecidableEq, Repr

/-- PLA lines (10_state.md R26 to R28, R30); `true` is the high level (00_scope.md R12). -/
structure Pla where
  loram : Bool
  hiram : Bool
  charen : Bool
  game1 : Bool
  exrom1 : Bool
  game2 : Bool
  exrom2 : Bool
  vicBase : BitVec 2
  dmaOverride : Bool
  deriving DecidableEq, Repr

/-- ROUTER lines and counts (10_state.md R31 to R34). -/
structure Router where
  irqCount : Nat
  nmiCount : Nat
  ba : Bool
  aec : Bool
  stall : Bool
  deriving DecidableEq, Repr

/-- The eight status flags (10_state.md R37). -/
structure Flags where
  n : Bool
  v : Bool
  u : Bool
  b : Bool
  d : Bool
  i : Bool
  z : Bool
  c : Bool
  deriving DecidableEq, Repr, Inhabited

/-- The registers that opcode effects read and write: A, X, Y, SP (10_state.md R35), PC (R36), the flags (R37) and the
micro-op latches (R44). These are the draws of `MRESET` (70_reset_and_hazards.md R262). -/
structure Regs where
  a : Byte
  x : Byte
  y : Byte
  sp : Byte
  pc : Addr
  flags : Flags
  ea : Addr
  tmp : Byte
  deriving DecidableEq, Repr, Inhabited

/-- `cpu.intCycle` (10_state.md R39). -/
inductive IntCycle where
  | none
  | pendingAt (c : Slot)
  | inProgress
  deriving DecidableEq, Repr

/-- The scheduling strategy (10_state.md R42). -/
inductive Mode where
  | nonStealing
  | stealing
  deriving DecidableEq, Repr

/-- CPU and SEQ state (10_state.md R35 to R44). -/
structure Cpu where
  regs : Regs
  cc : Slot
  intCycle : IntCycle
  nmiFlag : Bool
  rstFlag : Bool
  irqPin : Bool
  rdy : Bool
  mode : Mode
  deliver : Bool
  intEarlier : Bool
  deriving DecidableEq, Repr

/-- The open parameters that are data (00_scope.md R8), read only: a statement about every state is a statement about
every value of them. Log 6. -/
structure Params where
  walkBound : Nat
  interruptCarry : Config.InterruptCarry
  branchDeferCase : Config.BranchDeferCase
  unmodelled : List Byte
  deriving DecidableEq, Repr

/-- What identifies a handler call to the environment (20_memory.md R72, R75). -/
inductive CallKey where
  | read (h : Handler) (a : Addr)
  | write (h : Handler) (a : Addr)
  deriving DecidableEq, Repr

/-- One answer of the environment to one handler call: the byte of a read (`none`: the simulator oracle's) and the
command words issued before the call returns (40_clock.md R128). Used once. Log 4. -/
structure CallReply where
  key : CallKey
  byte : Option Byte
  words : List CommandWord
  deriving DecidableEq, Repr

/-- One answer of the environment to the firing of an external event (40_clock.md R128); a standing one answers every
firing. Log 4. -/
structure EventReply where
  id : EventId
  words : List CommandWord
  standing : Bool
  deriving DecidableEq, Repr

/-- The memory of the simulator oracle: bytes by key `handler code * 65536 + address`, keys strictly rising. -/
abbrev Memory := List Host.Cell

/-- The environment (10_state.md R49), the model's own: what the handlers hold, what collaborators will answer, and the
register draws of `MRESET`. Logs 2, 4, 5. -/
structure Env where
  cells : Memory
  ramFill : Option Byte
  otherFill : Option Byte
  calls : List CallReply
  events : List EventReply
  draws : List Regs
  drawCount : Nat
  deriving DecidableEq, Repr

/-- Who issues a command word (30_encoding.md R96). -/
inductive Issuer where
  | host
  | collaborator
  | block
  deriving DecidableEq, Repr

/-- A command issued at top level that has not run yet. Log 14. -/
structure Input where
  issuer : Issuer
  word : CommandWord
  deriving DecidableEq, Repr

/-- The block's state (10_state.md R20, R46, R47) and the model's own fields `ret`, `params`, `env`, `inputs` and
`stepping` (INVENTORY.md, State). `stepping = some t`: the `STEP` that reached time `t` has not returned (40_clock.md R125). -/
structure State where
  clk : Clk
  pla : Pla
  rt : Router
  cpu : Cpu
  fault : Option FaultCode
  hist : List HistEntry
  ret : Option Byte
  params : Params
  env : Env
  inputs : List Input
  stepping : Option Time
  deriving DecidableEq, Repr

/-- All flags false: the flags' value at `State.reset`. DESIGN CHOICE, log 1 (unsafe). -/
def Flags.zero : Flags :=
  { n := false, v := false, u := false, b := false, d := false, i := false, z := false, c := false }

/-- All registers zero: the registers' value at `State.reset`. DESIGN CHOICE, log 1 (unsafe). -/
def Regs.zero : Regs := { a := 0, x := 0, y := 0, sp := 0, pc := 0, flags := Flags.zero, ea := 0, tmp := 0 }

/-- The PLA lines after reset: no cartridge, all ROM, mode 31 (10_state.md R48). -/
def Pla.reset : Pla :=
  { loram := true, hiram := true, charen := true, game1 := true, exrom1 := true, game2 := true, exrom2 := true,
    vicBase := 0, dmaOverride := false }

/-- The ROUTER after reset (10_state.md R48). -/
def Router.reset : Router := { irqCount := 0, nmiCount := 0, ba := true, aec := true, stall := false }

/-- The SEQ after reset with the given registers: inside the RST delivery (10_state.md R48). -/
def Cpu.reset (regs : Regs) : Cpu :=
  { regs := regs, cc := 0, intCycle := .inProgress, nmiFlag := false, rstFlag := true, irqPin := false, rdy := false,
    mode := .nonStealing, deliver := true, intEarlier := false }

/-- The EventClock after reset: time 0 and the SEQ's tick at time 1 (10_state.md R48). The trigger times of the other
records are unspecified and unread. DESIGN CHOICE 0, log 3. -/
def Clk.reset : Clk := { now := 0, ev := (Vector.replicate 256 (0 : Time)).set 0 1, pending := [0] }

/-- The parameters at reset. DESIGN CHOICE, log 6 (unsafe). -/
def Params.reset : Params :=
  { walkBound := 256, interruptCarry := .literal, branchDeferCase := .pageCross, unmodelled := [] }

/-- The environment at reset: it has said nothing. -/
def Env.reset : Env :=
  { cells := [], ramFill := none, otherFill := none, calls := [], events := [], draws := [], drawCount := 0 }

/-- The machine right after reset (10_state.md R48). -/
def State.reset : State :=
  { clk := Clk.reset, pla := Pla.reset, rt := Router.reset, cpu := Cpu.reset Regs.zero, fault := none, hist := [],
    ret := none, params := Params.reset, env := Env.reset, inputs := [], stepping := none }

end Sys2Proof.Machine
end

