-- ==== Sys2Proof/Config/Free.lean ====
section
/-! DEFINITION. The free values whose types are the machine's: the oracle's bytes, the draws of MRESET, and the open tables MICRO_OPS and NO_STEAL. Uninterpreted: nothing can be proved of their values. -/

namespace Sys2Proof.Config

open Sys2Proof.Machine

/-- The byte the unconstrained oracle answers (20_memory.md R75, R76): it sees the handler, the address and the
history. Log 5. -/
opaque oracleByte : Handler → Addr → List HistEntry → Byte

/-- The `n`-th draw of the registers by `MRESET` (70_reset_and_hazards.md R262). Log 2. -/
opaque drawRegs : Nat → Regs

/-- The result of a micro-op of the open table: run the next slot, or another slot of the same opcode
(43_sequencer.md R184 (c); the finish micro-op's jump is not among them). -/
inductive BodyResult where
  | next
  | slot (k : BitVec 3)
  deriving DecidableEq, Repr, Inhabited

/-- A micro-op of the open table on the registers opcode effects may read and write (10_state.md R35 to R37, R44): at
most one bus access (43_sequencer.md R183), with the register writes before it and after it. -/
inductive BodyPlan where
  | done (r : Regs) (res : BodyResult)
  | read (r : Regs) (a : Addr) (k : Regs → Byte → Regs × BodyResult)
  | write (r : Regs) (a : Addr) (d : Byte) (k : Regs → Regs × BodyResult)
  deriving Inhabited

/-- The description of one opcode in `MICRO_OPS` (43_sequencer.md R184 to R186, R210), so shaped that the constraints
hold of every value: slots before `finishSlot` are `body`, `finishSlot` is the shared finish micro-op, `arith` marks the
slot whose read operand ADC or SBC adds, `rmw` the slots of a read-modify-write that read the operand and write it back. -/
structure OpcodeDesc where
  finishSlot : BitVec 3
  body : BitVec 3 → Regs → BodyPlan
  arith : BitVec 3 → Option ArithOp
  rmw : BitVec 3 → Bool
  deriving Inhabited

/-- `MICRO_OPS` (43_sequencer.md R184, R212) for the opcode bytes the rules do not spell out. OPEN. Log 7. -/
opaque microOps : Byte → OpcodeDesc

/-- `NO_STEAL` (43_sequencer.md R185) for the slots the rules do not fix. OPEN. Log 7. -/
opaque noSteal : Slot → Bool

end Sys2Proof.Config
end

