-- ==== Sys2Proof/Syntax.lean ====
section
/-! DEFINITION. The instructions: one constructor per mnemonic of spec/opcode_table.json (the seven `EXT_EVENT` rows are one constructor with the event id as operand, 30_encoding.md R100), in the table's order. -/

namespace Sys2Proof

/-- The phase argument of `SCHED` (30_encoding.md R92). The field value `11` is reserved and is no phase. -/
inductive Phase where
  | any
  | phi1
  | phi2
  deriving DecidableEq, Repr

/-- The commands (30_encoding.md R96), the event callbacks (R100) and the CPU opcodes (R101).
Operands stand in the order of the assembler syntax (R102). -/
inductive Instr where
  | sched (ev : EventId) (cyc : BitVec 16) (ph : Phase)
  | cancel (ev : EventId)
  | runnext
  | step
  | clkreset
  | mreset
  | cpurd (addr : Addr)
  | cpuwr (addr : Addr) (data : Byte)
  | vicrd1 (vaddr : VicAddr)
  | vicrd2 (vaddr : VicAddr)
  | setport (loram hiram charen : Bool)
  | setge (game1 exrom1 game2 exrom2 : Bool)
  | setvicbase (base : BitVec 2)
  | setdmaovr (on : Bool)
  | setba (s : Bool)
  | setirq (s : Bool)
  | setnmi (s : Bool)
  | trigirq
  | clrirq
  | trignmi
  | clrnmi
  | trigrst
  | setrdy (s : Bool)
  | build
  | tickNs
  | tickSt
  | aecRelease
  | extEvent (id : EventId)
  | ldaImm
  | brk
  | jsrAbs
  | rts
  | nop
  | bpl
  | bmi
  | bvc
  | bvs
  | bcc
  | bcs
  | bne
  | beq
  | rti
  deriving DecidableEq, Repr

/-- The class of an operation: the three command classes of 30_encoding.md R96, event callbacks (R100), CPU opcodes (R101). -/
inductive CmdClass where
  | host
  | external
  | internal
  | callback
  | opcode
  deriving DecidableEq, Repr

/-- The class column of 30_encoding.md R96, with R100 and R101. -/
def Instr.cmdClass : Instr → CmdClass
  | .sched _ _ _ | .cancel _ => .external
  | .runnext | .step | .clkreset | .mreset => .host
  | .cpurd _ | .cpuwr _ _ | .vicrd1 _ | .vicrd2 _ => .external
  | .setport _ _ _ | .setge _ _ _ _ | .setvicbase _ | .setdmaovr _ => .external
  | .setba _ | .setirq _ | .setnmi _ => .external
  | .trigirq | .clrirq | .trignmi | .clrnmi => .internal
  | .trigrst => .host
  | .setrdy _ => .internal
  | .build => .host
  | .tickNs | .tickSt | .aecRelease | .extEvent _ => .callback
  | .ldaImm | .brk | .jsrAbs | .rts | .nop => .opcode
  | .bpl | .bmi | .bvc | .bvs | .bcc | .bcs | .bne | .beq | .rti => .opcode

end Sys2Proof
end

