-- ==== Sys2Proof/WellFormed.lean ====
section
/-! DEFINITION. What a well-formed instruction is, beyond what the operand types already say. -/

namespace Sys2Proof

/-- An external event callback carries the id of a record a collaborator owns, 3 to 255 (30_encoding.md R100);
ids 0, 1 and 2 are the block's own callbacks. Every other operand is exact by its type. -/
def Instr.wf : Instr → Bool
  | .extEvent id => decide (Config.owner id = .collaborator)
  | .sched _ _ _ | .cancel _ | .runnext | .step | .clkreset | .mreset => true
  | .cpurd _ | .cpuwr _ _ | .vicrd1 _ | .vicrd2 _ => true
  | .setport _ _ _ | .setge _ _ _ _ | .setvicbase _ | .setdmaovr _ => true
  | .setba _ | .setirq _ | .setnmi _ => true
  | .trigirq | .clrirq | .trignmi | .clrnmi | .trigrst | .setrdy _ | .build => true
  | .tickNs | .tickSt | .aecRelease => true
  | .ldaImm | .brk | .jsrAbs | .rts | .nop => true
  | .bpl | .bmi | .bvc | .bvs | .bcc | .bcs | .bne | .beq | .rti => true

end Sys2Proof
end

