-- ==== Sys2Proof/Decode.lean ====
section
/-! DEFINITION. Decoding of command words (30_encoding.md R96, R97, R99), of event ids (R100) and of opcode bytes (R101), each total and rejecting by name; then the encoder, from the same tables. -/

namespace Sys2Proof

/-- Why a word is no instruction. The first three are the illegal words of 30_encoding.md R97 (all three raise
`BAD_COMMAND`); `unnamedOpcode` is a byte R101 and R236 do not name (its slots are `MICRO_OPS`, 43_sequencer.md R212). -/
inductive Reject where
  | unassignedOp
  | reservedBits
  | reservedPhase
  | unnamedOpcode
  deriving DecidableEq, Repr

/-- The field of `w` of `len` bits from bit `lo` up (00_scope.md R9). -/
def field (w : CommandWord) (lo len : Nat) : BitVec len := w.extractLsb' lo len

/-- The one-bit field at bit `lo`, as a boolean. -/
def flag (w : CommandWord) (lo : Nat) : Bool := boolOf (field w lo 1)

/-- `i`, where the reserved field is zero (R97). -/
def whenZero {n : Nat} (reserved : BitVec n) (i : Instr) : Except Reject Instr :=
  if reserved = 0 then .ok i else .error .reservedBits

/-- The phase of a two-bit field (R92); `11` is reserved. -/
def decodePhase (x : BitVec 2) : Except Reject Phase :=
  match x.toNat with
  | 0 => .ok .any
  | 1 => .ok .phi1
  | 2 => .ok .phi2
  | _ => .error .reservedPhase

/-- `SCHED`'s fields (R96), its phase checked (R97). -/
def decodeSched (w : CommandWord) : Except Reject Instr :=
  match decodePhase (field w 16 2) with
  | .ok ph => .ok (.sched (field w 18 8) (field w 0 16) ph)
  | .error r => .error r

/-- The command of a 32-bit word (R96), or why it is illegal (R97). -/
def decodeCommand (w : CommandWord) : Except Reject Instr :=
  match (field w 26 6).toNat with
  | 0x01 => decodeSched w
  | 0x02 => whenZero (field w 0 18) (.cancel (field w 18 8))
  | 0x03 => whenZero (field w 0 26) .runnext
  | 0x04 => whenZero (field w 0 26) .step
  | 0x05 => whenZero (field w 0 26) .clkreset
  | 0x06 => whenZero (field w 0 26) .mreset
  | 0x08 => whenZero (field w 16 10) (.cpurd (field w 0 16))
  | 0x09 => whenZero (field w 24 2) (.cpuwr (field w 0 16) (field w 16 8))
  | 0x0A => whenZero (field w 14 12) (.vicrd1 (field w 0 14))
  | 0x0B => whenZero (field w 14 12) (.vicrd2 (field w 0 14))
  | 0x0C => whenZero (field w 3 23) (.setport (flag w 0) (flag w 1) (flag w 2))
  | 0x0D => whenZero (field w 4 22) (.setge (flag w 0) (flag w 1) (flag w 2) (flag w 3))
  | 0x0E => whenZero (field w 2 24) (.setvicbase (field w 0 2))
  | 0x0F => whenZero (field w 1 25) (.setdmaovr (flag w 0))
  | 0x10 => whenZero (field w 1 25) (.setba (flag w 0))
  | 0x11 => whenZero (field w 1 25) (.setirq (flag w 0))
  | 0x12 => whenZero (field w 1 25) (.setnmi (flag w 0))
  | 0x18 => whenZero (field w 0 26) .trigirq
  | 0x19 => whenZero (field w 0 26) .clrirq
  | 0x1A => whenZero (field w 0 26) .trignmi
  | 0x1B => whenZero (field w 0 26) .clrnmi
  | 0x1C => whenZero (field w 0 26) .trigrst
  | 0x1D => whenZero (field w 1 25) (.setrdy (flag w 0))
  | 0x1E => whenZero (field w 0 26) .build
  | _ => .error .unassignedOp

/-- The callback of an event id (R100). -/
def decodeEvent (id : EventId) : Instr :=
  match id.toNat with
  | 0 => .tickNs
  | 1 => .tickSt
  | 2 => .aecRelease
  | _ => .extEvent id

/-- The opcode of a byte (R101; RTI from 60_exceptions.md R236). -/
def decodeOpcode (b : Byte) : Except Reject Instr :=
  match b.toNat with
  | 0xA9 => .ok .ldaImm
  | 0x00 => .ok .brk
  | 0x20 => .ok .jsrAbs
  | 0x60 => .ok .rts
  | 0xEA => .ok .nop
  | 0x10 => .ok .bpl
  | 0x30 => .ok .bmi
  | 0x50 => .ok .bvc
  | 0x70 => .ok .bvs
  | 0x90 => .ok .bcc
  | 0xB0 => .ok .bcs
  | 0xD0 => .ok .bne
  | 0xF0 => .ok .beq
  | 0x40 => .ok .rti
  | _ => .error .unnamedOpcode

/-- An encoded instruction. The block has three encoding spaces; which one a bit pattern belongs to is said by where
it stands (a host's word, an event id in the pending list, a fetched byte), not by its bits. -/
inductive Encoded where
  | command (w : CommandWord)
  | event (id : EventId)
  | opcode (b : Byte)
  deriving DecidableEq, Repr

/-- The decoder over the three spaces. -/
def decode : Encoded → Except Reject Instr
  | .command w => decodeCommand w
  | .event id => .ok (decodeEvent id)
  | .opcode b => decodeOpcode b

/-- The two bits of a phase (R92). -/
def encodePhase : Phase → BitVec 2
  | .any => 0
  | .phi1 => 1
  | .phi2 => 2

/-- A command word with no operands (R96). -/
def bareWord (op : BitVec 6) : CommandWord := op ++ (0 : BitVec 26)

/-- A command word with one boolean in bit 0 (R96). -/
def boolWord (op : BitVec 6) (s : Bool) : CommandWord := op ++ (0 : BitVec 25) ++ bitOf s

/-- The words of an instruction: R96 for commands, R100 for callbacks, R101 and R236 for opcodes. -/
def encode : Instr → Encoded
  | .sched ev cyc ph => .command ((0x01 : BitVec 6) ++ ev ++ encodePhase ph ++ cyc)
  | .cancel ev => .command ((0x02 : BitVec 6) ++ ev ++ (0 : BitVec 18))
  | .runnext => .command (bareWord 0x03)
  | .step => .command (bareWord 0x04)
  | .clkreset => .command (bareWord 0x05)
  | .mreset => .command (bareWord 0x06)
  | .cpurd addr => .command ((0x08 : BitVec 6) ++ (0 : BitVec 10) ++ addr)
  | .cpuwr addr data => .command ((0x09 : BitVec 6) ++ (0 : BitVec 2) ++ data ++ addr)
  | .vicrd1 vaddr => .command ((0x0A : BitVec 6) ++ (0 : BitVec 12) ++ vaddr)
  | .vicrd2 vaddr => .command ((0x0B : BitVec 6) ++ (0 : BitVec 12) ++ vaddr)
  | .setport loram hiram charen =>
    .command ((0x0C : BitVec 6) ++ (0 : BitVec 23) ++ bitOf charen ++ bitOf hiram ++ bitOf loram)
  | .setge game1 exrom1 game2 exrom2 =>
    .command ((0x0D : BitVec 6) ++ (0 : BitVec 22) ++ bitOf exrom2 ++ bitOf game2 ++ bitOf exrom1 ++ bitOf game1)
  | .setvicbase base => .command ((0x0E : BitVec 6) ++ (0 : BitVec 24) ++ base)
  | .setdmaovr on => .command (boolWord 0x0F on)
  | .setba s => .command (boolWord 0x10 s)
  | .setirq s => .command (boolWord 0x11 s)
  | .setnmi s => .command (boolWord 0x12 s)
  | .trigirq => .command (bareWord 0x18)
  | .clrirq => .command (bareWord 0x19)
  | .trignmi => .command (bareWord 0x1A)
  | .clrnmi => .command (bareWord 0x1B)
  | .trigrst => .command (bareWord 0x1C)
  | .setrdy s => .command (boolWord 0x1D s)
  | .build => .command (bareWord 0x1E)
  | .tickNs => .event 0
  | .tickSt => .event 1
  | .aecRelease => .event 2
  | .extEvent id => .event id
  | .ldaImm => .opcode 0xA9
  | .brk => .opcode 0x00
  | .jsrAbs => .opcode 0x20
  | .rts => .opcode 0x60
  | .nop => .opcode 0xEA
  | .bpl => .opcode 0x10
  | .bmi => .opcode 0x30
  | .bvc => .opcode 0x50
  | .bvs => .opcode 0x70
  | .bcc => .opcode 0x90
  | .bcs => .opcode 0xB0
  | .bne => .opcode 0xD0
  | .beq => .opcode 0xF0
  | .rti => .opcode 0x40

/-- The rows of spec/opcode_table.json with format `COMMAND`, as (mask, match) (R99). -/
def commandTable : List (CommandWord × CommandWord) :=
  [(0xFC000000, 0x04000000), (0xFC03FFFF, 0x08000000), (0xFFFFFFFF, 0x0C000000), (0xFFFFFFFF, 0x10000000),
    (0xFFFFFFFF, 0x14000000), (0xFFFFFFFF, 0x18000000), (0xFFFF0000, 0x20000000), (0xFF000000, 0x24000000),
    (0xFFFFC000, 0x28000000), (0xFFFFC000, 0x2C000000), (0xFFFFFFF8, 0x30000000), (0xFFFFFFF0, 0x34000000),
    (0xFFFFFFFC, 0x38000000), (0xFFFFFFFE, 0x3C000000), (0xFFFFFFFE, 0x40000000), (0xFFFFFFFE, 0x44000000),
    (0xFFFFFFFE, 0x48000000), (0xFFFFFFFF, 0x60000000), (0xFFFFFFFF, 0x64000000), (0xFFFFFFFF, 0x68000000),
    (0xFFFFFFFF, 0x6C000000), (0xFFFFFFFF, 0x70000000), (0xFFFFFFFE, 0x74000000), (0xFFFFFFFF, 0x78000000)]

/-- The pseudo-instructions of 30_encoding.md R103. -/
inductive Pseudo where
  | resched (ev : EventId) (cyc : BitVec 16) (ph : Phase)
  | stepn (n : Nat)
  | setcart (game exrom : Bool)
  | nocart
  deriving DecidableEq, Repr

/-- The exact expansion of a pseudo-instruction (R103). -/
def Pseudo.expand : Pseudo → List Instr
  | .resched ev cyc ph => [.cancel ev, .sched ev cyc ph]
  | .stepn n => List.replicate n .step
  | .setcart game exrom => [.setge game exrom game exrom]
  | .nocart => [.setge true true true true]

/-- A boolean operand of a listing: `0` or `1` (R102). -/
def listBool (b : Bool) : String := if b then "1" else "0"

/-- A phase operand of a listing (R102). -/
def listPhase : Phase → String
  | .any => "ANY"
  | .phi1 => "PHI1"
  | .phi2 => "PHI2"

/-- `MNEMONIC operand, operand, ...` (R102), numbers in decimal. -/
def listLine (mnemonic : String) (operands : List String) : String :=
  if operands.isEmpty then mnemonic else mnemonic ++ " " ++ ", ".intercalate operands

/-- The listing of a command (R102); callbacks and opcodes are not commands and have none. -/
def Instr.listing : Instr → Option String
  | .sched ev cyc ph => some (listLine "SCHED" [toString ev.toNat, toString cyc.toNat, listPhase ph])
  | .cancel ev => some (listLine "CANCEL" [toString ev.toNat])
  | .runnext => some (listLine "RUNNEXT" [])
  | .step => some (listLine "STEP" [])
  | .clkreset => some (listLine "CLKRESET" [])
  | .mreset => some (listLine "MRESET" [])
  | .cpurd addr => some (listLine "CPURD" [toString addr.toNat])
  | .cpuwr addr data => some (listLine "CPUWR" [toString addr.toNat, toString data.toNat])
  | .vicrd1 vaddr => some (listLine "VICRD1" [toString vaddr.toNat])
  | .vicrd2 vaddr => some (listLine "VICRD2" [toString vaddr.toNat])
  | .setport l h c => some (listLine "SETPORT" [listBool l, listBool h, listBool c])
  | .setge g1 e1 g2 e2 => some (listLine "SETGE" [listBool g1, listBool e1, listBool g2, listBool e2])
  | .setvicbase base => some (listLine "SETVICBASE" [toString base.toNat])
  | .setdmaovr on => some (listLine "SETDMAOVR" [listBool on])
  | .setba s => some (listLine "SETBA" [listBool s])
  | .setirq s => some (listLine "SETIRQ" [listBool s])
  | .setnmi s => some (listLine "SETNMI" [listBool s])
  | .trigirq => some (listLine "TRIGIRQ" [])
  | .clrirq => some (listLine "CLRIRQ" [])
  | .trignmi => some (listLine "TRIGNMI" [])
  | .clrnmi => some (listLine "CLRNMI" [])
  | .trigrst => some (listLine "TRIGRST" [])
  | .setrdy s => some (listLine "SETRDY" [listBool s])
  | .build => some (listLine "BUILD" [])
  | .tickNs | .tickSt | .aecRelease | .extEvent _ => none
  | .ldaImm | .brk | .jsrAbs | .rts | .nop => none
  | .bpl | .bmi | .bvc | .bvs | .bcc | .bcs | .bne | .beq | .rti => none

/-- The space a table row of `nbits` bits is read in (log 13): 32-bit rows are command words; of the 8-bit patterns,
the bytes R101 and R236 name are read as opcodes and the others as event ids. -/
def tableEncoded (nbits w : Nat) : Encoded :=
  if nbits ≤ 8 then
    match decodeOpcode (BitVec.ofNat 8 w) with
    | .ok _ => .opcode (BitVec.ofNat 8 w)
    | .error _ => .event (BitVec.ofNat 8 w)
  else .command (BitVec.ofNat 32 w)

/-- The instruction this decoder reads from a table row's bits (log 13). -/
def decodeTableWord (nbits w : Nat) : Option Instr := (decode (tableEncoded nbits w)).toOption

end Sys2Proof
end

