-- ==== Sys2Proof/Machine/Bank.lean ====
section
/-! DEFINITION. The bank maps (20_memory.md R62 to R69), held as functions of the lines (10_state.md R29). -/

namespace Sys2Proof.Machine

/-- The CPU memory mode `exrom2 : game2 : charen : hiram : loram` (20_memory.md R63). -/
def Pla.mode (p : Pla) : BitVec 5 :=
  bitOf p.exrom2 ++ bitOf p.game2 ++ bitOf p.charen ++ bitOf p.hiram ++ bitOf p.loram

/-- A row of the CPU read map: the handlers of banks 0, 1..7, 8..9, 10..11, 12, 13 and 14..15 (20_memory.md R64). -/
structure BankRow where
  b0 : Handler
  b1 : Handler
  b8 : Handler
  b10 : Handler
  b12 : Handler
  b13 : Handler
  b14 : Handler
  deriving DecidableEq, Repr

/-- The CPU read map's rows (20_memory.md R64), modes 16 to 23 being the Ultimax row. -/
def cpuRow (mode : BitVec 5) : BankRow :=
  match mode.toNat with
  | 31 => ⟨.ram, .ram, .ram, .basic, .ram, .io, .kernal⟩
  | 30 => ⟨.ram, .ram, .ram, .ram, .ram, .io, .kernal⟩
  | 29 => ⟨.ram, .ram, .ram, .ram, .ram, .io, .ram⟩
  | 28 => ⟨.ram, .ram, .ram, .ram, .ram, .ram, .ram⟩
  | 27 => ⟨.ram, .ram, .ram, .basic, .ram, .char, .kernal⟩
  | 26 => ⟨.ram, .ram, .ram, .ram, .ram, .char, .kernal⟩
  | 25 => ⟨.ram, .ram, .ram, .ram, .ram, .char, .ram⟩
  | 24 => ⟨.ram, .ram, .ram, .ram, .ram, .ram, .ram⟩
  | 15 => ⟨.ram, .ram, .roml, .basic, .ram, .io, .kernal⟩
  | 14 => ⟨.ram, .ram, .ram, .ram, .ram, .io, .kernal⟩
  | 13 => ⟨.ram, .ram, .ram, .ram, .ram, .io, .ram⟩
  | 12 => ⟨.ram, .ram, .ram, .ram, .ram, .ram, .ram⟩
  | 11 => ⟨.ram, .ram, .roml, .basic, .ram, .char, .kernal⟩
  | 10 => ⟨.ram, .ram, .ram, .ram, .ram, .char, .kernal⟩
  | 9 => ⟨.ram, .ram, .ram, .ram, .ram, .char, .ram⟩
  | 8 => ⟨.ram, .ram, .ram, .ram, .ram, .ram, .ram⟩
  | 7 => ⟨.ram, .ram, .roml, .romh, .ram, .io, .kernal⟩
  | 6 => ⟨.ram, .ram, .ram, .romh, .ram, .io, .kernal⟩
  | 5 => ⟨.ram, .ram, .ram, .ram, .ram, .io, .ram⟩
  | 4 => ⟨.ram, .ram, .ram, .ram, .ram, .ram, .ram⟩
  | 3 => ⟨.ram, .ram, .roml, .romh, .ram, .char, .kernal⟩
  | 2 => ⟨.ram, .ram, .ram, .romh, .ram, .char, .kernal⟩
  | 1 => ⟨.ram, .ram, .ram, .ram, .ram, .ram, .ram⟩
  | 0 => ⟨.ram, .ram, .ram, .ram, .ram, .ram, .ram⟩
  | _ => ⟨.ram, .openBus, .roml, .openBus, .openBus, .io, .romh⟩

/-- The cell of a row for a bank (the columns of 20_memory.md R64). -/
def BankRow.at (r : BankRow) (bank : BitVec 4) : Handler :=
  match bank.toNat with
  | 0 => r.b0
  | 8 => r.b8
  | 9 => r.b8
  | 10 => r.b10
  | 11 => r.b10
  | 12 => r.b12
  | 13 => r.b13
  | 14 => r.b14
  | 15 => r.b14
  | _ => r.b1

/-- `CpuMap(mode)[bank].read` (20_memory.md R64). -/
def cpuReadMap (mode : BitVec 5) (bank : BitVec 4) : Handler := (cpuRow mode).at bank

/-- An Ultimax mode, 16 to 23: EXROM high, GAME low (20_memory.md R64, R66). -/
def ultimaxMode (mode : BitVec 5) : Bool := decide (16 ≤ mode.toNat ∧ mode.toNat ≤ 23)

/-- `CpuMap(mode)[bank].write` (20_memory.md R65). -/
def cpuWriteMap (mode : BitVec 5) (bank : BitVec 4) : Handler :=
  match cpuReadMap mode bank with
  | .io => .io
  | .openBus => .openBus
  | _ =>
    if ultimaxMode mode ∧ (bank = 8 ∨ bank = 9) then .roml
    else if ultimaxMode mode ∧ (bank = 14 ∨ bank = 15) then .romh
    else .ram

/-- The VIC's Ultimax test on the PHI1 lines (20_memory.md R67, 30_encoding.md R95). -/
def Pla.vicUltimax (p : Pla) : Bool := p.exrom1 && !p.game1

/-- `VicMap[bank]` (20_memory.md R67). -/
def vicReadMap (ultimax : Bool) (bank : BitVec 4) : Handler :=
  if ultimax then
    if bank = 3 ∨ bank = 7 ∨ bank = 11 ∨ bank = 15 then .romh else .ram
  else
    if bank = 1 ∨ bank = 9 then .char else .ram

/-- The CPU-view bank of an address (20_memory.md R62). -/
def cpuBank (a : Addr) : BitVec 4 := a.extractLsb' 12 4

/-- The absolute address of a VIC address: `vicBase : v` (20_memory.md R62). -/
def Pla.vicAbs (p : Pla) (v : VicAddr) : Addr := p.vicBase ++ v

/-- The VIC-view bank: `vicBase : v[13:12]` (20_memory.md R62). -/
def Pla.vicBank (p : Pla) (v : VicAddr) : BitVec 4 := p.vicBase ++ v.extractLsb' 12 2

/-- The handler of a CPU read (41_pla.md R140). -/
def Pla.readHandler (p : Pla) (a : Addr) : Handler := cpuReadMap p.mode (cpuBank a)

/-- The handler of a CPU write (41_pla.md R141). -/
def Pla.writeHandler (p : Pla) (a : Addr) : Handler := cpuWriteMap p.mode (cpuBank a)

/-- The handler of a VIC read (41_pla.md R142). -/
def Pla.vicHandler (p : Pla) (v : VicAddr) : Handler := vicReadMap p.vicUltimax (p.vicBank v)

end Sys2Proof.Machine
end

