-- ==== Sys2Proof/Machine/Flags.lean ====
section
/-! DEFINITION. Every flag computation of the spec: the status byte, the load flags, the branch conditions, ADC and SBC. -/

namespace Sys2Proof.Machine

/-- The status byte pushed with `b` in bit 4 and 1 in bit 5: `N:V:1:b:D:I:Z:C` (30_encoding.md R94, 60_exceptions.md R230). -/
def Flags.pushByte (f : Flags) (b : Bool) : Byte :=
  bitOf f.n ++ bitOf f.v ++ bitOf true ++ bitOf b ++ bitOf f.d ++ bitOf f.i ++ bitOf f.z ++ bitOf f.c

/-- The flags of a pulled status byte, by the layout of 30_encoding.md R94. RTI restores all eight. Log 8. -/
def Flags.ofByte (p : Byte) : Flags :=
  { n := p.getLsbD 7, v := p.getLsbD 6, u := p.getLsbD 5, b := p.getLsbD 4,
    d := p.getLsbD 3, i := p.getLsbD 2, z := p.getLsbD 1, c := p.getLsbD 0 }

/-- N and Z of a loaded byte (43_sequencer.md R204). -/
def Flags.setNZ (f : Flags) (x : Byte) : Flags := { f with n := x.getLsbD 7, z := decide (x = 0) }

/-- The branch condition of an opcode byte (43_sequencer.md R209); no other byte is a branch. -/
def branchCond (opcode : Byte) (f : Flags) : Bool :=
  match opcode.toNat with
  | 0x10 => !f.n
  | 0x30 => f.n
  | 0x50 => !f.v
  | 0x70 => f.v
  | 0x90 => !f.c
  | 0xB0 => f.c
  | 0xD0 => !f.z
  | 0xF0 => f.z
  | _ => false

/-- The added operand `M'`: the byte itself, or its complement for SBC (43_sequencer.md R210). -/
def addedOperand (op : Config.ArithOp) (m : Byte) : Byte :=
  match op with
  | .adc => m
  | .sbc => ~~~m

/-- The exact sum `A + M' + C` (43_sequencer.md R210). -/
def binarySum (op : Config.ArithOp) (a m : Byte) (c : Bool) : Nat :=
  a.toNat + (addedOperand op m).toNat + c.toNat

/-- The binary result, `sum[7:0]` (43_sequencer.md R210). -/
def binaryResult (op : Config.ArithOp) (a m : Byte) (c : Bool) : Byte := BitVec.ofNat 8 (binarySum op a m c)

/-- The binary carry, `sum[8]` (43_sequencer.md R210). -/
def binaryCarry (op : Config.ArithOp) (a m : Byte) (c : Bool) : Bool := decide (256 ≤ binarySum op a m c)

/-- V, "computed from the binary intermediate even in decimal mode" (43_sequencer.md R210). -/
def binaryOverflow (op : Config.ArithOp) (a m : Byte) (c : Bool) : Bool :=
  let a' := binaryResult op a m c
  (a.getLsbD 7 == (addedOperand op m).getLsbD 7) && (a'.getLsbD 7 != a.getLsbD 7)

/-- A flag from the path it is taken from (43_sequencer.md R210). -/
def byPath (p : Config.FlagPath) (bin dec : Bool) : Bool :=
  match p with
  | .binary => bin
  | .decimal => dec

/-- ADC or SBC of `m` (43_sequencer.md R210): binary with D clear; with D set, A and C from the decimal path, V from
the binary intermediate, N and Z from the path `ADC_DECIMAL_NZ` names, those of the decimal path being free values.
DESIGN CHOICE, log 16 (safe). -/
def arith (op : Config.ArithOp) (m : Byte) (r : Regs) : Regs :=
  let bin := binaryResult op r.a m r.flags.c
  let v := binaryOverflow op r.a m r.flags.c
  if r.flags.d then
    let dec := Config.decimalResult op r.a m r.flags.c
    let decNZ := Config.decimalNZ op r.a m r.flags.c
    let paths := Config.adcDecimalNZ op
    { r with
      a := dec.1
      flags := { r.flags with
        n := byPath paths.1 (bin.getLsbD 7) decNZ.1
        v := v
        z := byPath paths.2 (decide (bin = 0)) decNZ.2
        c := dec.2 } }
  else
    { r with
      a := bin
      flags := { r.flags with
        n := bin.getLsbD 7
        v := v
        z := decide (bin = 0)
        c := binaryCarry op r.a m r.flags.c } }

end Sys2Proof.Machine
end

