-- ==== Sys2Proof/Machine/Operands.lean ====
section
/-! DEFINITION. The micro-op interface of 43_sequencer.md R183 and the operand forms micro-ops use: a byte at PC, a dummy read, stack push and pull (R180), the branch target (R200, R209), vectors (20_memory.md R70, R74). -/

namespace Sys2Proof.Machine

/-- What a micro-op returns (43_sequencer.md R183). -/
inductive MicroResult where
  | next
  | jump (n : Slot)
  | unmodelled
  deriving DecidableEq, Repr

/-- A micro-op at work: no bus access, one `Fetch` or one `Store` (43_sequencer.md R183). `c` is the CPU as written
before the access; `k` is what the micro-op does after it, on the CPU as the access (and what the handler answered with,
40_clock.md R128) left it. -/
inductive MicroPlan where
  | done (c : Cpu) (r : MicroResult)
  | read (c : Cpu) (a : Addr) (k : Cpu → Byte → Cpu × MicroResult)
  | write (c : Cpu) (a : Addr) (d : Byte) (k : Cpu → Cpu × MicroResult)

/-- A micro-op: it reads the parameters and the CPU (43_sequencer.md R183). -/
abbrev MicroOp := Params → Cpu → MicroPlan

/-- A CPU with its registers rewritten. -/
def Cpu.mapRegs (c : Cpu) (f : Regs → Regs) : Cpu := { c with regs := f c.regs }

/-- `cpu.PC <- cpu.PC + 1 mod 2^16` (10_state.md R36). -/
def Regs.incPc (r : Regs) : Regs := { r with pc := r.pc + 1 }

/-- The stack address `$0100 + SP` (20_memory.md R74). -/
def stackAddr (sp : Byte) : Addr := (0x01 : Byte) ++ sp

/-- The high byte of a 16-bit value. -/
def hiByte (a : Addr) : Byte := a.extractLsb' 8 8

/-- The low byte of a 16-bit value. -/
def loByte (a : Addr) : Byte := a.extractLsb' 0 8

/-- The slot without a micro-operation (43_sequencer.md R183). -/
def unmodelledOp : MicroOp := fun _ c => .done c .unmodelled

/-- `Fetch(a)` with the byte discarded, then `f` on the registers, `Next`. -/
def dummyRead (c : Cpu) (a : Addr) (f : Regs → Regs) : MicroPlan :=
  .read c a fun c' _ => (c'.mapRegs f, .next)

/-- `x <- Fetch(cpu.PC); cpu.PC <- cpu.PC + 1`, the operand byte given to `f`, `Next`. -/
def operandByte (c : Cpu) (f : Byte → Regs → Regs) : MicroPlan :=
  .read c c.regs.pc fun c' d => (c'.mapRegs fun r => f d r.incPc, .next)

/-- `Push(v); return Next` (43_sequencer.md R180). -/
def push (c : Cpu) (v : Byte) : MicroPlan :=
  .write c (stackAddr c.regs.sp) v fun c' => (c'.mapRegs fun r => { r with sp := r.sp - 1 }, .next)

/-- `x <- Pull(); return Next` (43_sequencer.md R180), the byte given to `f`. -/
def pull (c : Cpu) (f : Byte → Regs → Regs) : MicroPlan :=
  let c1 := c.mapRegs fun r => { r with sp := r.sp + 1 }
  .read c1 (stackAddr c1.regs.sp) fun c' d => (c'.mapRegs (f d), .next)

/-- The branch target: `PC + sext_16(offset) mod 2^16` (43_sequencer.md R200, R209). -/
def branchTarget (pc : Addr) (offset : Byte) : Addr := pc + offset.signExtend 16

/-- The vector addresses (60_exceptions.md R223). -/
def nmiVector : Addr := 0xFFFA

/-- The RST vector (60_exceptions.md R223). -/
def rstVector : Addr := 0xFFFC

/-- The IRQ and BRK vector (60_exceptions.md R223). -/
def irqVector : Addr := 0xFFFE

end Sys2Proof.Machine
end

