-- ==== Sys2Proof/Machine/Ops.lean ====
section
/-! DEFINITION. The shared operations: faults (60_exceptions.md R220), the simulator oracle's memory and handler calls (20_memory.md R72, R75), the EventClock's list (40_clock.md), the ROUTER and its calls into the SEQ (42_signals.md, 43_sequencer.md), the responses of collaborators (40_clock.md R128), and taking and returning from an interrupt (60_exceptions.md). -/

namespace Sys2Proof.Machine

/-! ## Faults and sequencing -/

/-- `raise Fault(f)` (60_exceptions.md R220): what was written before stays. -/
def raise (f : FaultCode) (s : State) : State := { s with fault := some f }

/-- The next statement of a command: nothing once a fault is raised (60_exceptions.md R220). -/
def State.andThen (s : State) (f : State → State) : State :=
  match s.fault with
  | none => f s
  | some _ => s

/-- A command (40_clock.md R120): it does nothing in a faulted machine. A raised fault is part of the next state. -/
def runCommand (f : State → State) (s : State) : Host.Outcome State Fault Refusal := .next (s.andThen f)

/-! ## The simulator oracle's memory -/

/-- The byte listed at a key. -/
def memGet : Memory → Nat → Option Byte
  | [], _ => none
  | (k', d) :: m, k => if k' = k then some d else memGet m k

/-- The memory without a key. -/
def memErase (m : Memory) (k : Nat) : Memory := m.filter fun x => x.1 ≠ k

/-- The memory with a key listed as a byte, keys kept rising. -/
def memInsert : Memory → Nat → Byte → Memory
  | [], k, d => [(k, d)]
  | (k', d') :: m, k, d =>
    if k < k' then (k, d) :: (k', d') :: m
    else if k = k' then (k, d) :: m
    else (k', d') :: memInsert m k d

/-- A store in canonical form: the byte an unlisted address reads as is not listed. -/
def memPut (fill : Option Byte) (m : Memory) (k : Nat) (d : Byte) : Memory :=
  if fill = some d then memErase m k else memInsert m k d

/-- The key of an address of a handler (log 5). -/
def cellKey (h : Handler) (a : Addr) : Nat := h.code * 65536 + a.toNat

/-- What an unlisted address of a handler reads as: its fill byte, or `none`, the oracle's free value. Log 5. -/
def Env.fill (e : Env) (h : Handler) : Option Byte :=
  match h with
  | .ram => e.ramFill
  | _ => e.otherFill

/-- The same, by key. -/
def Env.fillAt (e : Env) (k : Nat) : Option Byte := if k < 65536 then e.ramFill else e.otherFill

/-- The simulator oracle's byte, where it has one. -/
def Env.peek (e : Env) (h : Handler) (a : Addr) : Option Byte :=
  match memGet e.cells (cellKey h a) with
  | some d => some d
  | none => e.fill h

/-- The canonical form of the cells: keys rising and within the eight handlers' 64 KB, no entry equal to its fill. -/
def Env.wf (e : Env) : Bool :=
  decide (e.cells.Pairwise fun x y => x.1 < y.1) &&
    e.cells.all fun x => decide (x.1 < 8 * 65536) && decide (e.fillAt x.1 ≠ some x.2)

/-- The oracle's byte for a read (20_memory.md R75): the simulator oracle's, else the free value. Log 5. -/
def oracle (s : State) (h : Handler) (a : Addr) : Byte :=
  (s.env.peek h a).getD (Config.oracleByte h a s.hist)

/-- What a write does in the simulator oracle (20_memory.md R75): only `RAM` is an array. Log 5. -/
def Env.store (e : Env) (h : Handler) (a : Addr) (d : Byte) : Env :=
  match h with
  | .ram => { e with cells := memPut e.ramFill e.cells (cellKey .ram a) d }
  | _ => e

/-! ## Handler calls -/

/-- How a collaborator's words are run. -/
abbrev Responder := List CommandWord → State → State

/-- The first scripted reply to a call, and the script without it. -/
def takeReply (k : CallKey) : List CallReply → Option CallReply × List CallReply
  | [] => (none, [])
  | r :: rs =>
    if r.key = k then (some r, rs)
    else
      let (x, rs') := takeReply k rs
      (x, r :: rs')

/-- The byte a scripted reply gives, if any. -/
def replyByte (r : Option CallReply) : Option Byte := r.bind CallReply.byte

/-- The words a reply issues before the call returns; none without a reply. -/
def replyWords (r : Option CallReply) : List CommandWord := (r.map CallReply.words).getD []

/-- The state with the scripted replies replaced. -/
def State.withCalls (s : State) (rs : List CallReply) : State := { s with env := { s.env with calls := rs } }

/-- An entry appended to the history (10_state.md R47). -/
def State.record (s : State) (e : HistEntry) : State := { s with hist := s.hist ++ [e] }

/-- The byte a handler read answers (20_memory.md R75): a scripted one, else the oracle's. -/
def readAnswer (h : Handler) (a : Addr) (s : State) : Byte :=
  (replyByte (takeReply (.read h a) s.env.calls).1).getD (oracle s h a)

/-- `Handler.read(h, a)` and its record (20_memory.md R72, 41_pla.md R140): the byte is the call's, the response runs
before the call returns (40_clock.md R128), the record is last. Log 10. -/
def handlerRead (resp : Responder) (h : Handler) (a : Addr) (s : State) : State :=
  let (r, rs) := takeReply (.read h a) s.env.calls
  (resp (replyWords r) (s.withCalls rs)).andThen fun t => t.record (.read h a (readAnswer h a s))

/-- `Handler.write(h, a, d)` and its record (20_memory.md R72, 41_pla.md R141): the store is the call's, then the
response, then the record. Log 10. -/
def handlerWrite (resp : Responder) (h : Handler) (a : Addr) (d : Byte) (s : State) : State :=
  let (r, rs) := takeReply (.write h a) s.env.calls
  let s1 := { s with env := { s.env.store h a d with calls := rs } }
  (resp (replyWords r) s1).andThen fun t => t.record (.write h a d)

/-- The byte of a CPU-view read (41_pla.md R140). -/
def cpuReadByte (a : Addr) (s : State) : Byte := readAnswer (s.pla.readHandler a) a s

/-- The call of a CPU-view read (41_pla.md R140), through the map as it stands at the call (20_memory.md R82). -/
def cpuRead (resp : Responder) (a : Addr) (s : State) : State := handlerRead resp (s.pla.readHandler a) a s

/-- A CPU-view write (41_pla.md R141). -/
def cpuWrite (resp : Responder) (a : Addr) (d : Byte) (s : State) : State :=
  handlerWrite resp (s.pla.writeHandler a) a d s

/-- A command's returned byte (log 11). -/
def State.returns (s : State) (d : Byte) : State := { s with ret := some d }

/-- `CPURD a` (41_pla.md R140). -/
def cpurd (resp : Responder) (a : Addr) (s : State) : State :=
  (cpuRead resp a s).andThen fun t => t.returns (cpuReadByte a s)

/-- The byte of a VIC-view read that reaches its handler (41_pla.md R142). -/
def vicReadByte (v : VicAddr) (s : State) : Byte := readAnswer (s.pla.vicHandler v) (s.pla.vicAbs v) s

/-- `VICRD1 v` (41_pla.md R142). -/
def vicrd1 (resp : Responder) (v : VicAddr) (s : State) : State :=
  (handlerRead resp (s.pla.vicHandler v) (s.pla.vicAbs v) s).andThen fun t => t.returns (vicReadByte v s)

/-- `VICRD2 v` (41_pla.md R143): `$FF` and no call while the CPU owns the bus. -/
def vicrd2 (resp : Responder) (v : VicAddr) (s : State) : State :=
  if s.rt.aec then s.returns 0xFF else vicrd1 resp v s

/-! ## PLA lines -/

/-- `SETPORT l, h, c` (41_pla.md R144). -/
def setPort (l h c : Bool) (s : State) : State :=
  { s with pla := { s.pla with loram := l, hiram := h, charen := c } }

/-- `SETGE g1, e1, g2, e2` (41_pla.md R145). -/
def setGameExrom (g1 e1 g2 e2 : Bool) (s : State) : State :=
  { s with pla := { s.pla with game1 := g1, exrom1 := e1, game2 := g2, exrom2 := e2 } }

/-- `SETVICBASE n` (41_pla.md R146). -/
def setVicBase (n : BitVec 2) (s : State) : State := { s with pla := { s.pla with vicBase := n } }

/-- `SETDMAOVR on` (41_pla.md R147). -/
def setDmaOverride (on : Bool) (s : State) : State := { s with pla := { s.pla with dmaOverride := on } }

/-! ## EventClock -/

/-- `ev[i].t` (10_state.md R23). -/
def Clk.time (c : Clk) (i : EventId) : Time := c.ev[i.toFin]

/-- `ev[i].t <- t`. -/
def Clk.setTime (c : Clk) (i : EventId) (t : Time) : Clk := { c with ev := c.ev.set i.toFin t }

/-- `ev[i].pending` (10_state.md R23, R24). -/
def Clk.isPending (c : Clk) (i : EventId) : Bool := c.pending.contains i

/-- The parity adjustment (30_encoding.md R93): `+1` where a phase is requested and `t0` is in the other one. -/
def phaseAdjust (t0 : Nat) (ph : Phase) : Nat :=
  match ph with
  | .any => 0
  | .phi1 => if t0 % 2 = 0 then 0 else 1
  | .phi2 => if t0 % 2 = 1 then 0 else 1

/-- The trigger time of 30_encoding.md R93, an unbounded natural. -/
def triggerTime (now : Time) (cycles : Nat) (ph : Phase) : Nat :=
  let t0 := 2 * cycles + now.toNat
  t0 + phaseAdjust t0 ph

/-- The insertion position `|{ j ∈ pending : ev[j].t <= t }|` (40_clock.md R121, R122). -/
def Clk.insertPos (c : Clk) (t : Time) : Nat := c.pending.countP fun j => decide (c.time j ≤ t)

/-- `ev[i]` linked at position `k` with time `t` (40_clock.md R121). -/
def Clk.link (c : Clk) (i : EventId) (t : Time) (k : Nat) : Clk :=
  { c.setTime i t with pending := c.pending.take k ++ [i] ++ c.pending.drop k }

/-- `SCHED(i, c, ph)` by an internal issuer (40_clock.md R121), its checks in the rule's order. -/
def schedule (i : EventId) (cycles : Nat) (ph : Phase) (s : State) : State :=
  if s.clk.isPending i then raise .alreadyPending s
  else
    let t := triggerTime s.clk.now cycles ph
    if Config.timeLimit ≤ t then raise .timeOverflow s
    else
      let k := s.clk.insertPos (BitVec.ofNat 64 t)
      if s.params.walkBound ≤ k then raise .walkBound s
      else { s with clk := s.clk.link i (BitVec.ofNat 64 t) k }

/-- `SCHED` by an external issuer (40_clock.md R121): block-owned events are refused first. -/
def schedExternal (i : EventId) (cyc : BitVec 16) (ph : Phase) (s : State) : State :=
  match Config.owner i with
  | .block => raise .foreignEvent s
  | .collaborator => schedule i cyc.toNat ph s

/-- `ev[i]` unlinked (40_clock.md R123, R124); its time is left. -/
def Clk.unlink (c : Clk) (i : EventId) : Clk := { c with pending := c.pending.erase i }

/-- `CANCEL(i)` by an internal issuer (40_clock.md R123). -/
def cancelEvent (i : EventId) (s : State) : State :=
  if s.clk.isPending i then
    if s.params.walkBound ≤ s.clk.pending.idxOf i then raise .walkBound s
    else { s with clk := s.clk.unlink i }
  else s

/-- `CANCEL` by an external issuer (40_clock.md R123). -/
def cancelExternal (i : EventId) (s : State) : State :=
  match Config.owner i with
  | .block => raise .foreignEvent s
  | .collaborator => cancelEvent i s

/-! ## The SEQ's inputs -/

/-- A state with its CPU rewritten. -/
def State.mapCpu (s : State) (f : Cpu → Cpu) : State := { s with cpu := f s.cpu }

/-- `CalcTrigger` (43_sequencer.md R198): only if nothing is scheduled, the current `cc` is recorded. -/
def Cpu.calcTrigger (c : Cpu) : Cpu :=
  match c.intCycle with
  | .none => { c with intCycle := .pendingAt c.cc, intEarlier := false }
  | .pendingAt _ => c
  | .inProgress => c

/-- `TRIGIRQ` (43_sequencer.md R193). -/
def trigIrq (s : State) : State := s.mapCpu fun c => { c with irqPin := true }.calcTrigger

/-- `CLRIRQ` (43_sequencer.md R194): the pin level only. -/
def clrIrq (s : State) : State := s.mapCpu fun c => { c with irqPin := false }

/-- `TRIGNMI` (43_sequencer.md R195). -/
def trigNmi (s : State) : State := s.mapCpu fun c => { c with nmiFlag := true }.calcTrigger

/-- `CLRNMI` (43_sequencer.md R196): the latch is kept. -/
def clrNmi (s : State) : State := s

/-- `TRIGRST` (43_sequencer.md R197). -/
def trigRst (s : State) : State := s.mapCpu fun c => { c with rstFlag := true }.calcTrigger

/-- The strategy of a stall level (43_sequencer.md R190). -/
def modeOf (s : Bool) : Mode := if s then .stealing else .nonStealing

/-- The live tick event of a strategy (10_state.md R42). -/
def Mode.tick (m : Mode) : EventId :=
  match m with
  | .nonStealing => Config.tickNsId
  | .stealing => Config.tickStId

/-- `SETRDY s` (43_sequencer.md R190): a mode switch moves a pending tick to the other event at the same time. -/
def setRdy (level : Bool) (s : State) : State :=
  let s1 := s.mapCpu fun c => { c with rdy := level }
  let old := s1.cpu.mode
  if modeOf level = old then s1
  else
    let s2 := s1.mapCpu fun c => { c with mode := modeOf level }
    if s2.clk.isPending old.tick then
      let t := s2.clk.time old.tick
      (cancelEvent old.tick s2).andThen fun s3 =>
        schedule (modeOf level).tick ((t.toNat - s3.clk.now.toNat) / 2) .phi2 s3
    else s2

/-! ## ROUTER -/

/-- The stall line follows BA unless the DMA override holds it (42_signals.md R160, R164). -/
def followStall (level : Bool) (s : State) : State :=
  if s.pla.dmaOverride = false ∧ s.rt.stall ≠ !level then
    setRdy (!level) { s with rt := { s.rt with stall := !level } }
  else s

/-- `SETBA level` (42_signals.md R160). -/
def setBa (level : Bool) (s : State) : State :=
  if level = s.rt.ba then s
  else
    (followStall level { s with rt := { s.rt with ba := level } }).andThen fun s1 =>
      if level then
        (cancelEvent Config.aecId s1).andThen fun s2 => { s2 with rt := { s2.rt with aec := true } }
      else schedule Config.aecId Config.aecDelay .any s1

/-- `AEC_RELEASE` (42_signals.md R161). -/
def aecRelease (s : State) : State := { s with rt := { s.rt with aec := false } }

/-- `SETIRQ level` (42_signals.md R162). -/
def setIrq (level : Bool) (s : State) : State :=
  if level then
    let s1 := { s with rt := { s.rt with irqCount := s.rt.irqCount + 1 } }
    if s1.rt.irqCount = 1 then trigIrq s1 else s1
  else if s.rt.irqCount = 0 then raise .irqUnderflow s
  else
    let s1 := { s with rt := { s.rt with irqCount := s.rt.irqCount - 1 } }
    if s1.rt.irqCount = 0 then clrIrq s1 else s1

/-- `SETNMI level` (42_signals.md R163). -/
def setNmi (level : Bool) (s : State) : State :=
  if level then
    let s1 := { s with rt := { s.rt with nmiCount := s.rt.nmiCount + 1 } }
    if s1.rt.nmiCount = 1 then trigNmi s1 else s1
  else if s.rt.nmiCount = 0 then raise .nmiUnderflow s
  else
    let s1 := { s with rt := { s.rt with nmiCount := s.rt.nmiCount - 1 } }
    if s1.rt.nmiCount = 0 then clrNmi s1 else s1

/-! ## Responses of collaborators -/

/-- The fault of a command issued by someone who may not issue its class (30_encoding.md R97). -/
def classFault (issuer : Issuer) (c : CmdClass) : Option FaultCode :=
  match c with
  | .internal => if issuer = .block then none else some .hostInternal
  | .host => if issuer = .collaborator then some .reentrant else none
  | .external => none
  | .callback => some .badCommand
  | .opcode => some .badCommand

/-- An external-class command run to completion, the responses it meets run by `resp`; the other classes are not
commands a collaborator may issue (30_encoding.md R96, R97). -/
def externalOp (resp : Responder) (i : Instr) (s : State) : State :=
  match i with
  | .sched ev cyc ph => schedExternal ev cyc ph s
  | .cancel ev => cancelExternal ev s
  | .cpurd a => cpurd resp a s
  | .cpuwr a d => cpuWrite resp a d s
  | .vicrd1 v => vicrd1 resp v s
  | .vicrd2 v => vicrd2 resp v s
  | .setport l h c => setPort l h c s
  | .setge g1 e1 g2 e2 => setGameExrom g1 e1 g2 e2 s
  | .setvicbase n => setVicBase n s
  | .setdmaovr on => setDmaOverride on s
  | .setba b => setBa b s
  | .setirq b => setIrq b s
  | .setnmi b => setNmi b s
  | .runnext | .step | .clkreset | .mreset | .trigrst | .build => s
  | .trigirq | .clrirq | .trignmi | .clrnmi | .setrdy _ => s
  | .tickNs | .tickSt | .aecRelease | .extEvent _ => s
  | .ldaImm | .brk | .jsrAbs | .rts | .nop => s
  | .bpl | .bmi | .bvc | .bvs | .bcc | .bcs | .bne | .beq | .rti => s

/-- One word a collaborator issues (40_clock.md R128): decoded, its class checked, run. -/
def collaboratorWord (resp : Responder) (w : CommandWord) (s : State) : State :=
  match decodeCommand w with
  | .error _ => raise .badCommand s
  | .ok i =>
    match classFault .collaborator i.cmdClass with
    | some f => raise f s
    | none => externalOp resp i s

/-- A response, in order, ended by a fault (40_clock.md R128, 60_exceptions.md R220). The number bounds how deep
responses nest; each level uses up a scripted reply, so the number of scripted replies is always deep enough, and at
depth 0 no reply is left to respond to (Laws/Ops.lean proves it). -/
def respond : Nat → Responder
  | 0 => fun ws s => ws.foldl (fun t w => t.andThen (collaboratorWord (fun _ u => u) w)) s
  | n + 1 => fun ws s => ws.foldl (fun t w => t.andThen (collaboratorWord (respond n) w)) s

/-- The responder of a state: as deep as its script. -/
def State.responder (s : State) : Responder := respond s.env.calls.length

/-- The reply to the firing of an event (log 4). -/
def eventReply (i : EventId) (rs : List EventReply) : Option EventReply := rs.find? fun r => r.id = i

/-- The event replies left after a firing: a one-shot reply is used up. -/
def eventRepliesLeft (i : EventId) (rs : List EventReply) : List EventReply :=
  match eventReply i rs with
  | none => rs
  | some r => if r.standing then rs else rs.erase r

/-- The words issued when an event fires. -/
def eventWords (i : EventId) (rs : List EventReply) : List CommandWord :=
  ((eventReply i rs).map EventReply.words).getD []

/-- An external event's callback (40_clock.md R128): `Fire` is recorded, then the response runs. -/
def fireExternal (i : EventId) (s : State) : State :=
  let s1 := { s.record (.fire i s.clk.now) with
    env := { s.env with events := eventRepliesLeft i s.env.events } }
  s1.responder (eventWords i s.env.events) s1

/-! ## Taking an interrupt and returning from it -/

/-- `Deliverable()` (60_exceptions.md R224). -/
def Cpu.deliverable (c : Cpu) : Bool := c.rstFlag || c.nmiFlag || (c.irqPin && !c.regs.flags.i)

/-- `Due()` (60_exceptions.md R225); the packed comparison is on unwrapped values. -/
def due (p : Params) (c : Cpu) : Bool :=
  match c.intCycle with
  | .pendingAt n =>
    c.deliverable &&
      (decide (n.toNat + 2 < c.cc.toNat) || (c.intEarlier && decide (p.interruptCarry = .elapsed)))
  | .none => false
  | .inProgress => false

/-- The redirect (60_exceptions.md R226): an interrupt is taken, the sequence of slots `$000` to `$006` begins. The
latches `ea` and `tmp` keep what was last written (10_state.md R44; DESIGN CHOICE, log 21, unsafe). -/
def redirect (c : Cpu) : MicroPlan :=
  .done { c with intCycle := .inProgress, deliver := true, intEarlier := false } (.jump 0)

/-- Slot 0 of the sequence, `INT0` (60_exceptions.md R227; BRK skips its padding byte, R205). -/
def int0 : MicroOp := fun _ c =>
  dummyRead c c.regs.pc fun r => if c.deliver then r else r.incPc

/-- Slot 1, `INT1`: PC high pushed (60_exceptions.md R228). -/
def int1 : MicroOp := fun _ c => push c (hiByte c.regs.pc)

/-- Slot 2, `INT2`: PC low pushed (60_exceptions.md R229). -/
def int2 : MicroOp := fun _ c => push c (loByte c.regs.pc)

/-- Slot 3, `INT3`: the status byte pushed, B clear for an interrupt and set for BRK (60_exceptions.md R230). -/
def int3 : MicroOp := fun _ c => push c (c.regs.flags.pushByte (!c.deliver))

/-- The source chosen at slot 4: the vector, and the CPU with that source's latch cleared (60_exceptions.md R231). -/
def selectSource (c : Cpu) : Addr × Cpu :=
  if !c.deliver then (irqVector, c)
  else if c.rstFlag then (rstVector, { c with rstFlag := false })
  else if c.nmiFlag then (nmiVector, { c with nmiFlag := false })
  else (irqVector, c)

/-- Slot 4, `INT4`: `I` set, the source selected, the vector's low byte read (60_exceptions.md R231). -/
def int4 : MicroOp := fun _ c =>
  let (v, c1) := selectSource c
  let c2 := c1.mapRegs fun r => { r with flags := { r.flags with i := true }, ea := v }
  .read c2 v fun c' d => (c'.mapRegs fun r => { r with tmp := d }, .next)

/-- Delivery is over (60_exceptions.md R232). -/
def Cpu.endDelivery (c : Cpu) : Cpu :=
  if c.deliver then { c with intCycle := .none, intEarlier := false } else c

/-- Slot 5, `INT5`: PC loaded from the vector, delivery ended (60_exceptions.md R232). -/
def int5 : MicroOp := fun _ c =>
  .read c (c.regs.ea + 1) fun c' d =>
    ((c'.mapRegs fun r => { r with pc := d ++ r.tmp }).endDelivery, .next)

/-- RTI's slot 2: P pulled (60_exceptions.md R236). Log 8. -/
def rtiPullP : MicroOp := fun _ c => pull c fun d r => { r with flags := Flags.ofByte d }

/-- RTI's slot 3: PC low pulled (60_exceptions.md R236). Log 8. -/
def rtiPullLow : MicroOp := fun _ c => pull c fun d r => { r with tmp := d }

/-- RTI's slot 4: PC high pulled, PC restored (60_exceptions.md R236). Log 8. -/
def rtiPullHigh : MicroOp := fun _ c => pull c fun d r => { r with pc := d ++ r.tmp }

end Sys2Proof.Machine
end

