-- ==== Sys2Proof/Machine/Sequencer.lean ====
section
/-! DEFINITION. The SEQ (43_sequencer.md): the finish micro-op, the branch micro-ops, the slots of the opcodes, the table and its dispatch, the two tick strategies; and the meanings of the SEQ's commands and callbacks. -/

namespace Sys2Proof.Machine

/-! ## Finish -/

/-- Re-evaluation at the finish micro-op, first half: a point with nothing deliverable is dropped (R192). -/
def Cpu.dropUndeliverable (c : Cpu) : Cpu :=
  match c.intCycle with
  | .pendingAt _ => if c.deliverable then c else { c with intCycle := .none, intEarlier := false }
  | .none => c
  | .inProgress => c

/-- Second half: with nothing recorded and a source deliverable, a point is recorded (R192). -/
def Cpu.rearm (c : Cpu) : Cpu :=
  if c.intCycle = .none ∧ c.deliverable then c.calcTrigger else c

/-- The CPU after the opcode byte `op` is fetched (R192). The latches `ea` and `tmp`, unspecified between instructions
(10_state.md R44), keep what was last written. DESIGN CHOICE, log 21 (unsafe). -/
def Cpu.fetched (c : Cpu) : Cpu :=
  { c with
    regs := c.regs.incPc
    deliver := false
    intEarlier := match c.intCycle with
      | .pendingAt _ => true
      | .none => c.intEarlier
      | .inProgress => c.intEarlier }

/-- `FINISH` (R192): redirect when an interrupt is due, else fetch the next opcode. -/
def finish : MicroOp := fun p c =>
  let c1 := c.dropUndeliverable.rearm
  if due p c1 then redirect c1
  else .read c1 c1.regs.pc fun c' op => (c'.fetched, .jump (slotOf op 0))

/-! ## Branches -/

/-- `BR_OFFSET` (R199). -/
def brOffset : MicroOp := fun _ c => operandByte c fun d r => { r with tmp := d }

/-- `cpu.PC <- cpu.PC[15:8] : cpu.ea[7:0]` (R200). -/
def Regs.lowFromEa (r : Regs) : Regs := { r with pc := hiByte r.pc ++ loByte r.ea }

/-- `BR_COND` (R200): not taken, it is the finish. -/
def brCond : MicroOp := fun p c =>
  if branchCond (slotOpcode c.cc) c.regs.flags then
    let c1 := c.mapRegs fun r => { r with ea := branchTarget r.pc r.tmp }
    dummyRead c1 c1.regs.pc Regs.lowFromEa
  else finish p c

/-- `DeferQuirk` (R203), for the page-cross reading. -/
def Cpu.deferQuirk (c : Cpu) : Cpu :=
  match c.intCycle with
  | .pendingAt n => if n.toNat + 2 = c.cc.toNat then { c with intCycle := .pendingAt (n + 1) } else c
  | .none => c
  | .inProgress => c

/-- `DeferQuirkSamePage` (R203), for the other reading. -/
def Cpu.deferQuirkSamePage (p : Params) (c : Cpu) : Cpu :=
  if due p c then { c with intCycle := .pendingAt c.cc, intEarlier := false } else c

/-- `BR_FIX` (R201, R203): on the same page it is the finish. -/
def brFix : MicroOp := fun p c =>
  if hiByte c.regs.ea = hiByte c.regs.pc then
    match p.branchDeferCase with
    | .pageCross => finish p c
    | .noPageCross => finish p (c.deferQuirkSamePage p)
  else
    let c1 := match p.branchDeferCase with
      | .pageCross => c.deferQuirk
      | .noPageCross => c
    dummyRead c1 c1.regs.pc fun r => { r with pc := r.ea }

/-! ## The slots of the named opcodes -/

/-- Slot 0 of `LDA #` (R204). -/
def ldaImmOp : MicroOp := fun _ c =>
  operandByte c fun d r => { r with a := d, flags := r.flags.setNZ d }

/-- The slots of `LDA #` (R204). -/
def ldaSlots (sub : BitVec 3) : MicroOp :=
  match sub.toNat with
  | 0 => ldaImmOp
  | 1 => finish
  | _ => unmodelledOp

/-- The slots of opcode `$00`: BRK and the interrupt sequence (R205; 60_exceptions.md R227 to R233). -/
def brkSlots (sub : BitVec 3) : MicroOp :=
  match sub.toNat with
  | 0 => int0
  | 1 => int1
  | 2 => int2
  | 3 => int3
  | 4 => int4
  | 5 => int5
  | 6 => finish
  | _ => unmodelledOp

/-- A dummy read at the stack address (R206, R207). -/
def dummyStack : MicroOp := fun _ c => dummyRead c (stackAddr c.regs.sp) id

/-- A dummy read at PC, PC unchanged (R207, R208). -/
def dummyPc : MicroOp := fun _ c => dummyRead c c.regs.pc id

/-- Slot 4 of `JSR`: `cpu.PC <- Fetch(cpu.PC) : cpu.tmp` (R206). -/
def jsrJump : MicroOp := fun _ c =>
  .read c c.regs.pc fun c' d => (c'.mapRegs fun r => { r with pc := d ++ r.tmp }, .next)

/-- The slots of `JSR abs` (R206). -/
def jsrSlots (sub : BitVec 3) : MicroOp :=
  match sub.toNat with
  | 0 => fun _ c => operandByte c fun d r => { r with tmp := d }
  | 1 => dummyStack
  | 2 => fun _ c => push c (hiByte c.regs.pc)
  | 3 => fun _ c => push c (loByte c.regs.pc)
  | 4 => jsrJump
  | 5 => finish
  | _ => unmodelledOp

/-- The slots of `RTS` (R207). -/
def rtsSlots (sub : BitVec 3) : MicroOp :=
  match sub.toNat with
  | 0 => dummyPc
  | 1 => dummyStack
  | 2 => fun _ c => pull c fun d r => { r with tmp := d }
  | 3 => fun _ c => pull c fun d r => { r with pc := d ++ r.tmp }
  | 4 => fun _ c => dummyRead c c.regs.pc Regs.incPc
  | 5 => finish
  | _ => unmodelledOp

/-- The slots of `NOP` (R208). -/
def nopSlots (sub : BitVec 3) : MicroOp :=
  match sub.toNat with
  | 0 => dummyPc
  | 1 => finish
  | _ => unmodelledOp

/-- The slots of a branch (R209). -/
def branchSlots (sub : BitVec 3) : MicroOp :=
  match sub.toNat with
  | 0 => brOffset
  | 1 => brCond
  | 2 => brFix
  | 3 => finish
  | _ => unmodelledOp

/-- The slots of `RTI` (60_exceptions.md R236): 6 cycles, P, PC low, PC high pulled. Log 8. -/
def rtiSlots (sub : BitVec 3) : MicroOp :=
  match sub.toNat with
  | 0 => dummyPc
  | 1 => dummyStack
  | 2 => rtiPullP
  | 3 => rtiPullLow
  | 4 => rtiPullHigh
  | 5 => finish
  | _ => unmodelledOp

/-! ## The open table -/

/-- A result of the open table, as a slot of opcode `o` (R183, R184). -/
def bodyResult (o : Byte) : Config.BodyResult → MicroResult
  | .next => .next
  | .slot k => .jump (slotOf o k)

/-- ADC or SBC at its effect slot (R210): A and the flags as the opcode found them, the operand added. -/
def arithEffect (op : Option Config.ArithOp) (before : Regs) (d : Byte) (after : Regs) : Regs :=
  match op with
  | none => after
  | some op => arith op d { after with a := before.a, flags := before.flags }

/-- A micro-op of the open table on the CPU: only the registers of opcode effects change (log 7). -/
def bodyPlan (o : Byte) (op : Option Config.ArithOp) (c : Cpu) : Config.BodyPlan → MicroPlan
  | .done r res => .done { c with regs := r } (bodyResult o res)
  | .read r a k => .read { c with regs := r } a fun c' d =>
      let x := k c'.regs d
      ({ c' with regs := arithEffect op c.regs d x.1 }, bodyResult o x.2)
  | .write r a d k => .write { c with regs := r } a d fun c' =>
      let x := k c'.regs
      ({ c' with regs := x.1 }, bodyResult o x.2)

/-- A slot of an opcode `MICRO_OPS` gives (R184): the body, the shared finish, nothing after it (log 18). -/
def openSlots (o : Byte) (sub : BitVec 3) : MicroOp := fun p c =>
  let desc := Config.microOps o
  if sub.toNat < desc.finishSlot.toNat then bodyPlan o (desc.arith sub) c (desc.body sub c.regs)
  else if sub = desc.finishSlot then finish p c
  else unmodelledOp p c

/-! ## The table and its dispatch -/

/-- `TABLE` (R182, R184, R212): the named opcodes by their rules, the others by `MICRO_OPS`. -/
def slotOp (p : Params) (cc : Slot) : MicroOp :=
  match decodeOpcode (slotOpcode cc) with
  | .ok .ldaImm => ldaSlots (slotSub cc)
  | .ok .brk => brkSlots (slotSub cc)
  | .ok .jsrAbs => jsrSlots (slotSub cc)
  | .ok .rts => rtsSlots (slotSub cc)
  | .ok .nop => nopSlots (slotSub cc)
  | .ok .rti => rtiSlots (slotSub cc)
  | .ok _ => branchSlots (slotSub cc)
  | .error _ =>
    if slotOpcode cc ∈ p.unmodelled then unmodelledOp else openSlots (slotOpcode cc) (slotSub cc)

/-- The no-steal entries the rules do not fix: the read and write slots of a read-modify-write opcode, else the
parameter (R185). Log 7. -/
def openNoSteal (cc : Slot) : Bool :=
  (Config.microOps (slotOpcode cc)).rmw (slotSub cc) || Config.noSteal cc

/-- `NOSTEAL` (R185): of the opcodes of R204 to R209, exactly the slots that store. -/
def noSteal (cc : Slot) : Bool :=
  match decodeOpcode (slotOpcode cc) with
  | .ok .brk => decide (1 ≤ (slotSub cc).toNat ∧ (slotSub cc).toNat ≤ 3)
  | .ok .jsrAbs => decide (2 ≤ (slotSub cc).toNat ∧ (slotSub cc).toNat ≤ 3)
  | .ok .rti => Config.noSteal cc
  | .ok _ => false
  | .error _ => openNoSteal cc

/-- What a tick does with a micro-op's result (R183). -/
def settle (r : MicroResult) (s : State) : State :=
  match r with
  | .next =>
    if (slotSub s.cpu.cc).toNat = 7 then raise .brokenInvariant s
    else s.mapCpu fun c => { c with cc := c.cc + 1 }
  | .jump n => s.mapCpu fun c => { c with cc := n }
  | .unmodelled => raise .microOpUnmodelled s

/-- The part of a micro-op after its access. -/
def afterAccess (x : Cpu × MicroResult) (s : State) : State := settle x.2 { s with cpu := x.1 }

/-- A micro-op at work, with its bus access made through the CPU view (R180, R183). -/
def runPlan (plan : MicroPlan) (s : State) : State :=
  match plan with
  | .done c r => afterAccess (c, r) s
  | .read c a k =>
    let s1 := { s with cpu := c }
    (cpuRead s.responder a s1).andThen fun t => afterAccess (k t.cpu (cpuReadByte a s1)) t
  | .write c a d k =>
    (cpuWrite s.responder a d { s with cpu := c }).andThen fun t => afterAccess (k t.cpu) t

/-- `ExecSlot` (R183). -/
def execSlot (s : State) : State := runPlan (slotOp s.params s.cpu.cc s.params s.cpu) s

/-- `Reschedule` (R187): the live event of the mode in force, one cycle on, on the CPU's phase. -/
def reschedule (s : State) : State := schedule s.cpu.mode.tick 1 .phi2 s

/-- `TICK_NS` (R187). -/
def tickNs (s : State) : State := (execSlot s).andThen reschedule

/-- `TICK_ST` (R188): a stealable slot is not run while the stall line is asserted. -/
def tickSt (s : State) : State :=
  if s.cpu.rdy && !noSteal s.cpu.cc then reschedule s else (execSlot s).andThen reschedule

/-- The slot `cpu.cc[2:0]` of an opcode's sequence, as the SEQ runs it when `cpu.cc` holds that opcode. Log 12. -/
def opcodeSlot (o : Byte) (s : State) : State :=
  execSlot (s.mapCpu fun c => { c with cc := slotOf o (slotSub c.cc) })

/-! ## Meanings -/

/-- `TICK_NS` (R187). -/
def execTickNs (s : State) : Host.Outcome State Fault Refusal := runCommand tickNs s

/-- `TICK_ST` (R188). -/
def execTickSt (s : State) : Host.Outcome State Fault Refusal := runCommand tickSt s

/-- `SETRDY` (R190). -/
def execSetrdy (level : Bool) (s : State) : Host.Outcome State Fault Refusal := runCommand (setRdy level) s

/-- `TRIGIRQ` (R193). -/
def execTrigirq (s : State) : Host.Outcome State Fault Refusal := runCommand trigIrq s

/-- `CLRIRQ` (R194). -/
def execClrirq (s : State) : Host.Outcome State Fault Refusal := runCommand clrIrq s

/-- `TRIGNMI` (R195). -/
def execTrignmi (s : State) : Host.Outcome State Fault Refusal := runCommand trigNmi s

/-- `CLRNMI` (R196). -/
def execClrnmi (s : State) : Host.Outcome State Fault Refusal := runCommand clrNmi s

/-- `TRIGRST` (R197). -/
def execTrigrst (s : State) : Host.Outcome State Fault Refusal := runCommand trigRst s

/-- `BUILD` (R181): the table is built before the first command, so nothing changes. -/
def execBuild (s : State) : Host.Outcome State Fault Refusal := runCommand id s

/-- `LDA #imm` (R204). -/
def execLdaImm (s : State) : Host.Outcome State Fault Refusal := runCommand (opcodeSlot 0xA9) s

/-- `BRK` (R205). -/
def execBrk (s : State) : Host.Outcome State Fault Refusal := runCommand (opcodeSlot 0x00) s

/-- `JSR abs` (R206). -/
def execJsrAbs (s : State) : Host.Outcome State Fault Refusal := runCommand (opcodeSlot 0x20) s

/-- `RTS` (R207). -/
def execRts (s : State) : Host.Outcome State Fault Refusal := runCommand (opcodeSlot 0x60) s

/-- `NOP` (R208). -/
def execNop (s : State) : Host.Outcome State Fault Refusal := runCommand (opcodeSlot 0xEA) s

/-- `BPL` (R209). -/
def execBpl (s : State) : Host.Outcome State Fault Refusal := runCommand (opcodeSlot 0x10) s

/-- `BMI` (R209). -/
def execBmi (s : State) : Host.Outcome State Fault Refusal := runCommand (opcodeSlot 0x30) s

/-- `BVC` (R209). -/
def execBvc (s : State) : Host.Outcome State Fault Refusal := runCommand (opcodeSlot 0x50) s

/-- `BVS` (R209). -/
def execBvs (s : State) : Host.Outcome State Fault Refusal := runCommand (opcodeSlot 0x70) s

/-- `BCC` (R209). -/
def execBcc (s : State) : Host.Outcome State Fault Refusal := runCommand (opcodeSlot 0x90) s

/-- `BCS` (R209). -/
def execBcs (s : State) : Host.Outcome State Fault Refusal := runCommand (opcodeSlot 0xB0) s

/-- `BNE` (R209). -/
def execBne (s : State) : Host.Outcome State Fault Refusal := runCommand (opcodeSlot 0xD0) s

/-- `BEQ` (R209). -/
def execBeq (s : State) : Host.Outcome State Fault Refusal := runCommand (opcodeSlot 0xF0) s

/-- `RTI` (60_exceptions.md R236). -/
def execRti (s : State) : Host.Outcome State Fault Refusal := runCommand (opcodeSlot 0x40) s

end Sys2Proof.Machine
end

