-- ==== Sys2Proof/Machine/Clock.lean ====
section
/-! DEFINITION. The EventClock's operations (40_clock.md): scheduling, cancelling, running events, the clock reset, external callbacks. -/

namespace Sys2Proof.Machine

/-- The callback of an event (30_encoding.md R100). -/
def callback (i : EventId) (s : State) : State :=
  match decodeEvent i with
  | .tickNs => tickNs s
  | .tickSt => tickSt s
  | .aecRelease => aecRelease s
  | _ => fireExternal i s

/-- The state in which the callback of the head event runs: unlinked, time advanced (R124). -/
def popHead (i : EventId) (s : State) : State :=
  { s with clk := { s.clk.unlink i with now := s.clk.time i } }

/-- `RUNNEXT()` (R124). -/
def runNext (s : State) : State :=
  match s.clk.pending with
  | [] => raise .queueEmpty s
  | i :: _ => callback i (popHead i s)

/-- Whether `STEP`'s loop goes on: the new head's time is the time reached (R125). -/
def Clk.moreAt (c : Clk) (t : Time) : Bool :=
  match c.pending with
  | [] => false
  | i :: _ => decide (c.time i = t)

/-- What is left of a `STEP` that reached time `t` (R125): nothing, or the loop. Log 9. -/
def loopAt (t : Time) (s : State) : State :=
  { s with stepping := if s.clk.moreAt t then some t else none }

/-- `STEP` up to the end of its first event (R125). Log 9. -/
def stepFirst (s : State) : State :=
  (runNext s).andThen fun t => loopAt t.clk.now t

/-- The loop of a running `STEP` (R125): one more event while the head's time is the time reached, else the end. Log 9. -/
def stepMore (t : Time) (s : State) : State :=
  if s.clk.moreAt t then (runNext { s with stepping := none }).andThen (loopAt t)
  else { s with stepping := none }

/-- `CLKRESET()` (R126). -/
def clkReset (s : State) : State := { s with clk := { s.clk with now := 0, pending := [] } }

/-- `SCHED` (R121). -/
def execSched (ev : EventId) (cyc : BitVec 16) (ph : Phase) (s : State) : Host.Outcome State Fault Refusal :=
  runCommand (schedExternal ev cyc ph) s

/-- `CANCEL` (R123). -/
def execCancel (ev : EventId) (s : State) : Host.Outcome State Fault Refusal := runCommand (cancelExternal ev) s

/-- `RUNNEXT` (R124). -/
def execRunnext (s : State) : Host.Outcome State Fault Refusal := runCommand runNext s

/-- `STEP` (R125): its first event; while `stepping` is set, each further step of the machine runs one more. Log 9. -/
def execStep (s : State) : Host.Outcome State Fault Refusal := runCommand stepFirst s

/-- `CLKRESET` (R126). -/
def execClkreset (s : State) : Host.Outcome State Fault Refusal := runCommand clkReset s

/-- The callback of an external event (R128). -/
def execExtEvent (id : EventId) (s : State) : Host.Outcome State Fault Refusal := runCommand (fireExternal id) s

end Sys2Proof.Machine
end

