-- ==== Sys2Proof/Machine/PlaCommands.lean ====
section
/-! DEFINITION. The meanings of the PLA's commands (41_pla.md). -/

namespace Sys2Proof.Machine

/-- `CPURD` (R140). -/
def execCpurd (a : Addr) (s : State) : Host.Outcome State Fault Refusal := runCommand (cpurd s.responder a) s

/-- `CPUWR` (R141). -/
def execCpuwr (a : Addr) (d : Byte) (s : State) : Host.Outcome State Fault Refusal :=
  runCommand (cpuWrite s.responder a d) s

/-- `VICRD1` (R142). -/
def execVicrd1 (v : VicAddr) (s : State) : Host.Outcome State Fault Refusal := runCommand (vicrd1 s.responder v) s

/-- `VICRD2` (R143). -/
def execVicrd2 (v : VicAddr) (s : State) : Host.Outcome State Fault Refusal := runCommand (vicrd2 s.responder v) s

/-- `SETPORT` (R144). -/
def execSetport (l h c : Bool) (s : State) : Host.Outcome State Fault Refusal := runCommand (setPort l h c) s

/-- `SETGE` (R145). -/
def execSetge (g1 e1 g2 e2 : Bool) (s : State) : Host.Outcome State Fault Refusal :=
  runCommand (setGameExrom g1 e1 g2 e2) s

/-- `SETVICBASE` (R146). -/
def execSetvicbase (n : BitVec 2) (s : State) : Host.Outcome State Fault Refusal := runCommand (setVicBase n) s

/-- `SETDMAOVR` (R147). -/
def execSetdmaovr (on : Bool) (s : State) : Host.Outcome State Fault Refusal := runCommand (setDmaOverride on) s

end Sys2Proof.Machine
end

