-- ==== Sys2Proof/Machine/Reset.lean ====
section
/-! DEFINITION. The machine reset (70_reset_and_hazards.md R260). -/

namespace Sys2Proof.Machine

/-- The registers `MRESET` draws (R262): the environment's next draw, else a free value. Log 2. -/
def nextDraw (e : Env) : Regs :=
  match e.draws with
  | [] => Config.drawRegs e.drawCount
  | r :: _ => r

/-- The environment after a draw. Log 2. -/
def Env.afterDraw (e : Env) : Env := { e with draws := e.draws.tail, drawCount := e.drawCount + 1 }

/-- `MRESET()` (R260), its statements in order: the clock, the lines, the counts, the CPU, the history, then the SEQ's
tick scheduled on the first PHI2 half-cycle. -/
def machineReset (s : State) : State :=
  schedule Config.tickNsId 0 .phi2
    { s with
      clk := { s.clk with now := 0, pending := [] }
      pla := Pla.reset
      rt := Router.reset
      cpu := Cpu.reset (nextDraw s.env)
      hist := []
      env := s.env.afterDraw }

/-- `MRESET` (R260). -/
def execMreset (s : State) : Host.Outcome State Fault Refusal := runCommand machineReset s

end Sys2Proof.Machine
end

