-- ==== Sys2Proof/Machine/RouterCommands.lean ====
section
/-! DEFINITION. The meanings of the ROUTER's commands and callback (42_signals.md). -/

namespace Sys2Proof.Machine

/-- `SETBA` (R160). -/
def execSetba (level : Bool) (s : State) : Host.Outcome State Fault Refusal := runCommand (setBa level) s

/-- `AEC_RELEASE` (R161). -/
def execAecRelease (s : State) : Host.Outcome State Fault Refusal := runCommand aecRelease s

/-- `SETIRQ` (R162). -/
def execSetirq (level : Bool) (s : State) : Host.Outcome State Fault Refusal := runCommand (setIrq level) s

/-- `SETNMI` (R163). -/
def execSetnmi (level : Bool) (s : State) : Host.Outcome State Fault Refusal := runCommand (setNmi level) s

end Sys2Proof.Machine
end

