-- ==== Sys2Proof/Machine/Dispatch.lean ====
section
/-! DEFINITION. exec: one arm per instruction. -/

namespace Sys2Proof.Machine

def exec (i : Instr) (s : State) : Host.Outcome State Fault Refusal :=
  match i with
  | .sched ev cyc ph => Sys2Proof.Machine.execSched ev cyc ph s
  | .cancel ev => Sys2Proof.Machine.execCancel ev s
  | .runnext => Sys2Proof.Machine.execRunnext s
  | .step => Sys2Proof.Machine.execStep s
  | .clkreset => Sys2Proof.Machine.execClkreset s
  | .mreset => Sys2Proof.Machine.execMreset s
  | .cpurd addr => Sys2Proof.Machine.execCpurd addr s
  | .cpuwr addr data => Sys2Proof.Machine.execCpuwr addr data s
  | .vicrd1 vaddr => Sys2Proof.Machine.execVicrd1 vaddr s
  | .vicrd2 vaddr => Sys2Proof.Machine.execVicrd2 vaddr s
  | .setport l h c => Sys2Proof.Machine.execSetport l h c s
  | .setge g1 e1 g2 e2 => Sys2Proof.Machine.execSetge g1 e1 g2 e2 s
  | .setvicbase base => Sys2Proof.Machine.execSetvicbase base s
  | .setdmaovr on => Sys2Proof.Machine.execSetdmaovr on s
  | .setba b => Sys2Proof.Machine.execSetba b s
  | .setirq b => Sys2Proof.Machine.execSetirq b s
  | .setnmi b => Sys2Proof.Machine.execSetnmi b s
  | .trigirq => Sys2Proof.Machine.execTrigirq s
  | .clrirq => Sys2Proof.Machine.execClrirq s
  | .trignmi => Sys2Proof.Machine.execTrignmi s
  | .clrnmi => Sys2Proof.Machine.execClrnmi s
  | .trigrst => Sys2Proof.Machine.execTrigrst s
  | .setrdy b => Sys2Proof.Machine.execSetrdy b s
  | .build => Sys2Proof.Machine.execBuild s
  | .tickNs => Sys2Proof.Machine.execTickNs s
  | .tickSt => Sys2Proof.Machine.execTickSt s
  | .aecRelease => Sys2Proof.Machine.execAecRelease s
  | .extEvent id => Sys2Proof.Machine.execExtEvent id s
  | .ldaImm => Sys2Proof.Machine.execLdaImm s
  | .brk => Sys2Proof.Machine.execBrk s
  | .jsrAbs => Sys2Proof.Machine.execJsrAbs s
  | .rts => Sys2Proof.Machine.execRts s
  | .nop => Sys2Proof.Machine.execNop s
  | .bpl => Sys2Proof.Machine.execBpl s
  | .bmi => Sys2Proof.Machine.execBmi s
  | .bvc => Sys2Proof.Machine.execBvc s
  | .bvs => Sys2Proof.Machine.execBvs s
  | .bcc => Sys2Proof.Machine.execBcc s
  | .bcs => Sys2Proof.Machine.execBcs s
  | .bne => Sys2Proof.Machine.execBne s
  | .beq => Sys2Proof.Machine.execBeq s
  | .rti => Sys2Proof.Machine.execRti s

end Sys2Proof.Machine
end

