-- ==== Sys2Proof/Machine/Fetch.lean ====
section
/-! DEFINITION. What the step takes next: the host's next command and its class check (30_encoding.md R97), and how an instruction is placed so that the next step runs it (log 14). -/

namespace Sys2Proof.Machine

/-- What running an input comes to before its operation (30_encoding.md R97, 60_exceptions.md R222): the decode fault
first, then the class fault, else the instruction. A top-level command of a collaborator, of which the rules say nothing
(00_scope.md R13 and R96 have collaborators act only inside a callback or handler call), is held to the same classes as
one in a response: external runs, host is `REENTRANT`, internal `HOST_INTERNAL`. DESIGN CHOICE, log 14 (unsafe for that
case). -/
def checkInput (inp : Input) : Except FaultCode Instr :=
  match decodeCommand inp.word with
  | .error _ => .error .badCommand
  | .ok i =>
    match classFault inp.issuer i.cmdClass with
    | some f => .error f
    | none => .ok i

/-- Who may issue a command word at top level: the block for the internal class, the host for the others. -/
def wordIssuer (w : CommandWord) : Issuer :=
  match decodeCommand w with
  | .ok i => if i.cmdClass = .internal then .block else .host
  | .error _ => .host

/-- A live machine with no `STEP` running and `inp` first in line. -/
def State.withInput (s : State) (inp : Input) : State :=
  { s with fault := none, stepping := none, inputs := inp :: s.inputs }

/-- `RUNNEXT`, by the host (30_encoding.md R96). -/
def runnextInput : Input := { issuer := .host, word := 0x0C000000 }

/-- The event first in line, at the present time, and the host about to run it. -/
def State.withHeadEvent (s : State) (i : EventId) : State :=
  { s.withInput runnextInput with
    clk := { s.clk.setTime i s.clk.now with pending := i :: s.clk.pending.erase i } }

/-- The SEQ's tick first in line in the given strategy: the other tick unlinked (10_state.md R42), the stall line and
its copy at the strategy's level (42_signals.md R164). -/
def State.withTick (s : State) (m : Mode) : State :=
  let s1 := { s with
    clk := { s.clk with pending := (s.clk.pending.erase Config.tickNsId).erase Config.tickStId }
    rt := { s.rt with stall := decide (m = Mode.stealing) }
    cpu := { s.cpu with rdy := decide (m = Mode.stealing), mode := m } }
  s1.withHeadEvent m.tick

/-- An event first in line, with what its callback needs. -/
def State.withEvent (s : State) (i : EventId) : State :=
  match decodeEvent i with
  | .tickNs => s.withTick .nonStealing
  | .tickSt => s.withTick .stealing
  | _ => s.withHeadEvent i

/-- The opcode fetched: slot 0 of its sequence next, outside any interrupt delivery, and the SEQ's tick first in line. -/
def State.withOpcode (s : State) (o : Byte) : State :=
  (s.mapCpu fun c => { c with cc := slotOf o 0, deliver := false }).withTick .nonStealing

/-- An encoded instruction placed where the next step takes it from. -/
def State.place (s : State) (e : Encoded) : State :=
  match e with
  | .command w => s.withInput { issuer := wordIssuer w, word := w }
  | .event i => s.withEvent i
  | .opcode o => s.withOpcode o

end Sys2Proof.Machine
end

