-- ==== Sys2Proof/Machine/Step.lean ====
section
/-! DEFINITION. One step of the machine: one command of the host, or one more event of a running STEP (log 9). -/

namespace Sys2Proof.Machine

/-- One step (00_scope.md R14). A faulted machine stays as it is (60_exceptions.md R220). A running `STEP` runs one more
event (40_clock.md R125). Else the host's next command runs, once decoded and its class checked (30_encoding.md R97). With
no command there is nothing to do: nothing in the block calls the host (60_exceptions.md R244, R245). -/
def step (s : State) : Host.Outcome State Fault Refusal :=
  match s.fault with
  | some _ => .next s
  | none =>
    match s.stepping with
    | some t => .next (stepMore t s)
    | none =>
      match s.inputs with
      | [] => .next s
      | inp :: rest =>
        match checkInput inp with
        | .error f => .next (raise f { s with inputs := rest })
        | .ok i => exec i { s with inputs := rest }

/-- The instruction of a table row placed so that the next step runs it. Log 14. -/
def State.withFetchWord (s : State) (nbits w : Nat) : State := s.place (tableEncoded nbits w)

end Sys2Proof.Machine
end

