-- ==== Sys2Proof/Safety.lean ====
section
/-! DEFINITION. What counts as a safe run: the invariant of the machine, the command relation of 00_scope.md R14 over the model's steps, and the terms claims about runs use. -/

namespace Sys2Proof.Machine

/-- The machine's invariant: what the rules say holds between commands. Each field names its rule. The fields under
`fault = none` can be broken by a command a fault ended half way (60_exceptions.md R220); nothing runs after that. -/
structure State.Inv (s : State) : Prop where
  /-- Ids are linked once (10_state.md R24). -/
  distinct : s.clk.pending.Nodup
  /-- The list is sorted by time (10_state.md R24). -/
  sorted : s.clk.pending.Pairwise fun i j => s.clk.time i ≤ s.clk.time j
  /-- Nothing is pending for the past (40_clock.md R129). -/
  future : ∀ i ∈ s.clk.pending, s.clk.now ≤ s.clk.time i
  /-- A pending tick is the live one of the mode, so at most one is pending (10_state.md R42). -/
  tickMode : s.fault = none → ∀ m : Mode, m.tick ∈ s.clk.pending → s.cpu.mode = m
  /-- A pending tick is on the CPU's phase, PHI2 (43_sequencer.md R191). -/
  tickPhase : ∀ m : Mode, m.tick ∈ s.clk.pending → (s.clk.time m.tick).toNat % 2 = 1
  /-- The mode is the stall copy's (10_state.md R42). -/
  modeRdy : s.cpu.mode = modeOf s.cpu.rdy
  /-- The copy is the stall line (42_signals.md R164). -/
  stallRdy : s.cpu.rdy = s.rt.stall
  /-- The AEC release is pending only while the bus is requested (42_signals.md R160). -/
  aecRequested : s.fault = none → Config.aecId ∈ s.clk.pending → s.rt.ba = false
  /-- The IRQ pin is asserted while a source holds it (42_signals.md R162). -/
  irqLevel : s.cpu.irqPin = decide (0 < s.rt.irqCount)
  /-- The simulator oracle's memory is canonical. -/
  memory : s.env.wf = true
  /-- The block issues no commands at top level (30_encoding.md R96). A collaborator's are not excluded: log 14. -/
  hostInputs : ∀ inp ∈ s.inputs, inp.issuer ≠ .block

/-- The values of 10_state.md R48: every field the rule gives one. The registers are draws (70_reset_and_hazards.md
R262) and are not among them. -/
structure State.ResetValues (s : State) : Prop where
  now : s.clk.now = 0
  pending : s.clk.pending = [Config.tickNsId]
  tickTime : s.clk.time Config.tickNsId = 1
  port : s.pla.loram = true ∧ s.pla.hiram = true ∧ s.pla.charen = true
  gameExrom : s.pla.game1 = true ∧ s.pla.exrom1 = true ∧ s.pla.game2 = true ∧ s.pla.exrom2 = true
  vicBase : s.pla.vicBase = 0
  dmaOverride : s.pla.dmaOverride = false
  cpuMap : s.pla.mode = 31
  vicMap : s.pla.vicUltimax = false
  irqCount : s.rt.irqCount = 0
  nmiCount : s.rt.nmiCount = 0
  ba : s.rt.ba = true
  aec : s.rt.aec = true
  stall : s.rt.stall = false
  cc : s.cpu.cc = 0
  intCycle : s.cpu.intCycle = .inProgress
  nmiFlag : s.cpu.nmiFlag = false
  rstFlag : s.cpu.rstFlag = true
  irqPin : s.cpu.irqPin = false
  rdy : s.cpu.rdy = false
  mode : s.cpu.mode = .nonStealing
  deliver : s.cpu.deliver = true
  intEarlier : s.cpu.intEarlier = false
  fault : s.fault = none
  hist : s.hist = []

/-- A host-class command is refused inside a callback or a handler call (30_encoding.md R97). -/
def ReentrantInResponse (i : Instr) : Prop :=
  ∀ (w : CommandWord) (ws : List CommandWord) (s : State), decodeCommand w = .ok i → s.fault = none →
    s.responder (w :: ws) s = raise .reentrant s

/-- One host command run to completion (00_scope.md R14): one step, and more while a `STEP` it started goes on. A
`STEP` that does not return (40_clock.md R130) is related to no state. -/
inductive CommandRun : State → State → Prop where
  | done {s t : State} : step s = .next t → t.stepping = none → CommandRun s t
  | more {s t u : State} : step s = .next t → t.stepping ≠ none → CommandRun t u → CommandRun s u

/-- The state once a micro-op is done: `cc` is the next slot, `r` the registers. -/
def State.ran (s : State) (cc : Slot) (r : Regs) : State := { s with cpu := { s.cpu with cc := cc, regs := r } }

/-- What a command that the rules let a collaborator issue leaves alone: the registers, the place in the table, the
parameters, the time, and what only the host's own commands use. -/
structure ExternalFrame (s t : State) : Prop where
  regs : t.cpu.regs = s.cpu.regs
  cc : t.cpu.cc = s.cpu.cc
  deliver : t.cpu.deliver = s.cpu.deliver
  rstFlag : t.cpu.rstFlag = s.cpu.rstFlag
  nmiLatch : s.cpu.nmiFlag = true → t.cpu.nmiFlag = true
  now : t.clk.now = s.clk.now
  params : t.params = s.params
  inputs : t.inputs = s.inputs
  stepping : t.stepping = s.stepping
  history : s.hist <+: t.hist
  events : t.env.events = s.env.events
  draws : t.env.draws = s.env.draws
  drawCount : t.env.drawCount = s.env.drawCount
  ramFill : t.env.ramFill = s.env.ramFill
  otherFill : t.env.otherFill = s.env.otherFill

/-- `n` `STEP` commands in the host's line. -/
def stepInputs (n : Nat) : List Input := List.replicate n { issuer := .host, word := 0x10000000 }

/-- No reply is scripted: handler calls and event firings are answered with no commands. -/
def State.quiet (s : State) : Prop := s.env.calls = [] ∧ s.env.events = []

/-- The CPU runs alone: only the live tick is pending, without a stall, on the CPU's phase, and no interrupt source is
up or recorded. -/
structure State.cpuAlone (s : State) : Prop where
  live : s.fault = none
  idle : s.stepping = none
  quiet : s.quiet
  onlyTick : s.clk.pending = [Config.tickNsId]
  mode : s.cpu.mode = .nonStealing
  bound : 0 < s.params.walkBound
  noRst : s.cpu.rstFlag = false
  noNmi : s.cpu.nmiFlag = false
  noIrq : s.cpu.irqPin = false
  noPoint : s.cpu.intCycle = .none

/-- The half-cycle at which the SEQ's tick is pending. -/
def State.tickTime (s : State) : Nat := (s.clk.time Config.tickNsId).toNat

/-- The branches with their opcode bytes (30_encoding.md R101). -/
def branchBytes : List (Instr × Byte) :=
  [(.bpl, 0x10), (.bmi, 0x30), (.bvc, 0x50), (.bvs, 0x70), (.bcc, 0x90), (.bcs, 0xB0), (.bne, 0xD0), (.beq, 0xF0)]

/-- The opcodes with their bytes and the slot of their finish micro-op (30_encoding.md R101; RTI from
60_exceptions.md R236); a branch's is the slot 3 of 43_sequencer.md R202. -/
def finishSlots : List (Instr × Byte × BitVec 3) :=
  [(.ldaImm, 0xA9, 1), (.brk, 0x00, 6), (.jsrAbs, 0x20, 5), (.rts, 0x60, 5), (.nop, 0xEA, 1), (.rti, 0x40, 5),
    (.bpl, 0x10, 3), (.bmi, 0x30, 3), (.bvc, 0x50, 3), (.bvs, 0x70, 3), (.bcc, 0x90, 3), (.bcs, 0xB0, 3),
    (.bne, 0xD0, 3), (.beq, 0xF0, 3)]

/-- The finish micro-op runs next when `i` runs: at the opcode's finish slot, or at slot 1 of a branch not taken
(43_sequencer.md R200), or at slot 2 of a branch within its page (R201; under `no_page_cross` R203 comes first there). -/
def State.atFinish (s : State) (i : Instr) : Prop :=
  (∃ b k, (i, b, k) ∈ finishSlots ∧ s.cpu.cc = slotOf b k) ∨
  (∃ b, (i, b) ∈ branchBytes ∧ s.cpu.cc = slotOf b 1 ∧ branchCond b s.cpu.regs.flags = false) ∨
  (∃ b, (i, b) ∈ branchBytes ∧ s.cpu.cc = slotOf b 2 ∧ hiByte s.cpu.regs.ea = hiByte s.cpu.regs.pc ∧
    s.params.branchDeferCase = .pageCross)

/-- The shared finish micro-op of an opcode of the open table runs next (43_sequencer.md R184 (d), R212). -/
def State.atOpenFinish (s : State) : Prop :=
  ∃ b r, decodeOpcode b = .error r ∧ b ∉ s.params.unmodelled ∧
    s.cpu.cc = slotOf b (Config.microOps b).finishSlot

/-- The slot `cpu.cc` names runs the finish micro-op. -/
def State.finishing (s : State) : Prop := (∃ i, s.atFinish i) ∨ s.atOpenFinish

/-- The state once a micro-op of the open table at slot `sub` of opcode `b` is done with result `res` and registers `r`:
no result leaves the slots of `b` (43_sequencer.md R184 (c)). -/
def State.landed (s : State) (b : Byte) (sub : BitVec 3) (r : Regs) (res : Config.BodyResult) : State :=
  match res with
  | .next => s.ran (slotOf b (sub + 1)) r
  | .slot k => s.ran (slotOf b k) r

/-- The delivery point after the finish micro-op has looked at the sources (43_sequencer.md R192): a point with nothing
deliverable is dropped, a deliverable source without a point gets one at the present slot. -/
def Cpu.reevaluated (c : Cpu) : Cpu :=
  match c.intCycle with
  | .pendingAt _ => if c.deliverable then c else { c with intCycle := .none, intEarlier := false }
  | .none => if c.deliverable then { c with intCycle := .pendingAt c.cc, intEarlier := false } else c
  | .inProgress => c

/-- A point is recorded. -/
def Cpu.pointPending (c : Cpu) : Bool :=
  match c.intCycle with
  | .pendingAt _ => true
  | .none => false
  | .inProgress => false

/-- The live tick is pending for time `t`. -/
def State.tickAt (s : State) (t : Time) : Prop :=
  s.cpu.mode.tick ∈ s.clk.pending ∧ s.clk.time s.cpu.mode.tick = t

end Sys2Proof.Machine
end

