-- ==== Sys2Proof/Certificates/Slice0/Obligations.lean ====
section
/-! DEFINITION. The statements for the provers. Each docstring names the rule of spec/ it formalises; where a statement rests on a choice of the model, it names the log entry. -/

section SliceStatements

open Sys2Proof
open Sys2Proof.Machine

/-! ## Encodings -/

/-- 30_encoding.md R96, R100, R101: no operand bit of an encoding is dropped, over all three encoding spaces. -/
def Obligations.DecodeInvertsEncode : Prop :=
  ∀ i : Instr, i.wf = true → decode (encode i) = .ok i

/-- 30_encoding.md R96, R97: what decodes is well formed and has no other encoding in its space. -/
def Obligations.EncodeInvertsDecode : Prop :=
  ∀ (e : Encoded) (i : Instr), decode e = .ok i → i.wf = true ∧ encode i = e

/-- 30_encoding.md R99: the decoder is `word & mask = match` on the rows of spec/opcode_table.json, with the further
check of `SCHED`'s phase; at most one row matches a word. -/
def Obligations.DecoderIsMaskAndMatch : Prop :=
  (∀ w : CommandWord, (∃ i, decodeCommand w = .ok i) ↔
    (∃ row ∈ commandTable, w &&& row.1 = row.2) ∧ ¬(w.extractLsb' 26 6 = 1 ∧ w.extractLsb' 16 2 = 3)) ∧
  commandTable.Pairwise fun x y => ∀ w : CommandWord, ¬(w &&& x.1 = x.2 ∧ w &&& y.1 = y.2)

/-- Words written out from the field layouts of 30_encoding.md R96, R100 and R101 (RTI from 60_exceptions.md R236; the
spec marks the opcode bytes "from general knowledge, not in source"). -/
def Obligations.SpecWordsDecode : Prop :=
  decode (.command 0b000001_00000101_01_0000000000000101) = .ok (.sched 5 5 .phi1) ∧
  decode (.command 0b000010_00000111_000000000000000000) = .ok (.cancel 7) ∧
  decode (.command 0b001001_00_10101011_1110000000000001) = .ok (.cpuwr 0xE001 0xAB) ∧
  decode (.command 0b001011_000000000000_01000000000010) = .ok (.vicrd2 0x1002) ∧
  decode (.command 0b001100_00000000000000000000000_1_0_1) = .ok (.setport true false true) ∧
  decode (.command 0b001101_0000000000000000000000_1_0_0_1) = .ok (.setge true false false true) ∧
  decode (.command 0b010001_0000000000000000000000000_1) = .ok (.setirq true) ∧
  decode (.command 0b011101_0000000000000000000000000_1) = .ok (.setrdy true) ∧
  decode (.command 0b000001_00000101_11_0000000000000101) = .error .reservedPhase ∧
  decode (.command 0b000100_00000000000000000000000001) = .error .reservedBits ∧
  decode (.command 0b000111_00000000000000000000000000) = .error .unassignedOp ∧
  decode (.event 1) = .ok .tickSt ∧
  decode (.event 9) = .ok (.extEvent 9) ∧
  decode (.opcode 0xA9) = .ok .ldaImm ∧
  decode (.opcode 0x40) = .ok .rti ∧
  decode (.opcode 0x02) = .error .unnamedOpcode

/-! ## The step -/

/-- 00_scope.md R14: a step of a live machine is the meaning of the command at the head of the host's line, that command
consumed. -/
def Obligations.StepRunsHostCommand : Prop :=
  ∀ (s : State) (inp : Input) (rest : List Input) (i : Instr), s.fault = none → s.stepping = none →
    s.inputs = inp :: rest → decodeCommand inp.word = .ok i → classFault inp.issuer i.cmdClass = none →
    step s = exec i { s with inputs := rest }

/-- 30_encoding.md R97, 60_exceptions.md R222: an illegal word raises `BAD_COMMAND`, an internal-class command from
outside the block `HOST_INTERNAL`, a host-class one from a collaborator `REENTRANT` (at top level the model's choice,
log 14), and nothing else changes but the host's line. -/
def Obligations.RefusedWordsFault : Prop :=
  ∀ (s : State) (inp : Input) (rest : List Input), s.fault = none → s.stepping = none → s.inputs = inp :: rest →
    (∀ r, decodeCommand inp.word = .error r → step s = .next (raise .badCommand { s with inputs := rest })) ∧
    (∀ i, decodeCommand inp.word = .ok i → i.cmdClass = .internal → inp.issuer ≠ .block →
      step s = .next (raise .hostInternal { s with inputs := rest })) ∧
    (∀ i, decodeCommand inp.word = .ok i → i.cmdClass = .host → inp.issuer = .collaborator →
      step s = .next (raise .reentrant { s with inputs := rest }))

/-- 10_state.md R46: the fault register is sticky, and a faulted machine's commands leave the whole state; that its steps
do too, the host's line kept, is the model's (log 17). -/
def Obligations.FaultIsTerminal : Prop :=
  State.reset.fault = none ∧
  ∀ (s : State) (f : FaultCode), s.fault = some f → (∀ i, exec i s = .next s) ∧ step s = .next s

/-- Every step keeps the machine's invariant (10_state.md R24, R42; 40_clock.md R129; 42_signals.md R160, R162, R164;
43_sequencer.md R191; the memory's canonical form is the model's, log 5). -/
def Obligations.StepKeepsInv : Prop :=
  ∀ s t : State, s.Inv → step s = .next t → t.Inv

/-- The machine after reset meets the invariant. -/
def Obligations.ResetMeetsInv : Prop := State.reset.Inv

/-- 10_state.md R48, 70_reset_and_hazards.md R260: `State.reset` and the state after `MRESET` have the reset values of
every field the table gives one; `MRESET` draws the registers (R262; log 2) and changes nothing else. -/
def Obligations.MresetGivesResetValues : Prop :=
  State.reset.ResetValues ∧ ReentrantInResponse .mreset ∧
  ∀ s : State, s.fault = none → 0 < s.params.walkBound →
    ∃ t, exec .mreset s = .next t ∧ t.ResetValues ∧ t.cpu.regs = nextDraw s.env ∧
      t.params = s.params ∧ t.inputs = s.inputs ∧ t.stepping = s.stepping ∧ t.ret = s.ret ∧
      t.env = { s.env with draws := s.env.draws.tail, drawCount := s.env.drawCount + 1 }

/-- 10_state.md R49: the parameters are configuration; no instruction and no step changes one (log 6). -/
def Obligations.ParametersNeverChange : Prop :=
  (∀ (i : Instr) (s t : State), exec i s = .next t → t.params = s.params) ∧
  ∀ s t : State, step s = .next t → t.params = s.params

/-- 40_clock.md R129: time is monotonic but for `CLKRESET` and `MRESET`; no trigger time is in the past; `RUNNEXT` sets
the time to the least pending one; a time that does not fit is a fault. -/
def Obligations.TimeIsMonotonic : Prop :=
  (∀ (i : Instr) (s t : State), s.Inv → i ≠ .clkreset → i ≠ .mreset → exec i s = .next t → s.clk.now ≤ t.clk.now) ∧
  (∀ (now : Time) (c : Nat) (ph : Phase), now.toNat ≤ triggerTime now c ph) ∧
  (∀ (s t : State) (i : EventId) (rest : List EventId), s.Inv → s.fault = none → s.clk.pending = i :: rest →
    exec .runnext s = .next t → t.clk.now = s.clk.time i ∧ ∀ j ∈ s.clk.pending, t.clk.now ≤ s.clk.time j) ∧
  ∀ (i : EventId) (c : Nat) (ph : Phase) (s : State), i ∉ s.clk.pending → 2 ^ 64 ≤ triggerTime s.clk.now c ph →
    schedule i c ph s = raise .timeOverflow s

/-! ## EventClock -/

/-- 30_encoding.md R93: the trigger time is `2 * cycles + now`, one later exactly when a phase is requested and the
present time is in the other one (PHI1 even, PHI2 odd); one that does not fit 64 bits is a fault. -/
def Obligations.TriggerTimeFormula : Prop :=
  ∀ (now : Time) (c : Nat),
    triggerTime now c .any = 2 * c + now.toNat ∧
    triggerTime now c .phi1 = 2 * c + now.toNat + (if now.toNat % 2 = 1 then 1 else 0) ∧
    triggerTime now c .phi2 = 2 * c + now.toNat + (if now.toNat % 2 = 0 then 1 else 0) ∧
    triggerTime now c .phi1 % 2 = 0 ∧ triggerTime now c .phi2 % 2 = 1 ∧
    ∀ (i : EventId) (ph : Phase) (s : State), s.clk.now = now → i ∉ s.clk.pending → 2 ^ 64 ≤ triggerTime now c ph →
      schedule i c ph s = raise .timeOverflow s

/-- 40_clock.md R121: `SCHED` with its checks in order; an outside issuer may not schedule events 0, 1, 2. -/
def Obligations.SchedCommand : Prop :=
  ∀ s : State, s.fault = none →
    (∀ (i : EventId) (cyc : BitVec 16) (ph : Phase),
      (i.toNat < 3 → exec (.sched i cyc ph) s = .next (raise .foreignEvent s)) ∧
      (3 ≤ i.toNat → exec (.sched i cyc ph) s = .next (schedule i cyc.toNat ph s)) ∧
      ∀ t : Time, 3 ≤ i.toNat → i ∉ s.clk.pending → t.toNat = triggerTime s.clk.now cyc.toNat ph →
        s.clk.pending.length < s.params.walkBound →
        exec (.sched i cyc ph) s = .next
          { s with clk := s.clk.link i t (s.clk.pending.countP fun j => decide (s.clk.time j ≤ t)) }) ∧
    ∀ (i : EventId) (c : Nat) (ph : Phase),
      (i ∈ s.clk.pending → schedule i c ph s = raise .alreadyPending s) ∧
      (i ∉ s.clk.pending → 2 ^ 64 ≤ triggerTime s.clk.now c ph → schedule i c ph s = raise .timeOverflow s) ∧
      ∀ (t : Time) (k : Nat), i ∉ s.clk.pending → t.toNat = triggerTime s.clk.now c ph →
        k = s.clk.pending.countP (fun j => decide (s.clk.time j ≤ t)) →
        (s.params.walkBound ≤ k → schedule i c ph s = raise .walkBound s) ∧
        (k < s.params.walkBound → schedule i c ph s =
          { s with
            clk := { now := s.clk.now, ev := s.clk.ev.set i.toFin t,
                     pending := s.clk.pending.take k ++ [i] ++ s.clk.pending.drop k } })

/-- 40_clock.md R122: in a sorted list a new event goes after every event not later and before every later one, the
others keep their order, and the list stays sorted. -/
def Obligations.SchedPlacesFifo : Prop :=
  ∀ (i : EventId) (cyc : BitVec 16) (ph : Phase) (s t : State), s.Inv → exec (.sched i cyc ph) s = .next t →
    s.fault = none → t.fault = none →
    ∃ before after, s.clk.pending = before ++ after ∧ t.clk.pending = before ++ [i] ++ after ∧
      (t.clk.time i).toNat = triggerTime s.clk.now cyc.toNat ph ∧
      (∀ j ∈ before, t.clk.time j ≤ t.clk.time i) ∧ (∀ j ∈ after, t.clk.time i < t.clk.time j) ∧
      (∀ j ∈ before ++ after, t.clk.time j = s.clk.time j) ∧
      t.clk.pending.Pairwise fun j k => t.clk.time j ≤ t.clk.time k

/-- 40_clock.md R123: `CANCEL` with its checks in order; an event that is not pending is left alone. -/
def Obligations.CancelCommand : Prop :=
  ∀ s : State, s.fault = none →
    (∀ i : EventId,
      (i.toNat < 3 → exec (.cancel i) s = .next (raise .foreignEvent s)) ∧
      (3 ≤ i.toNat → exec (.cancel i) s = .next (cancelEvent i s)) ∧
      (3 ≤ i.toNat → i ∈ s.clk.pending → s.clk.pending.length ≤ s.params.walkBound →
        exec (.cancel i) s = .next { s with clk := { s.clk with pending := s.clk.pending.erase i } })) ∧
    ∀ i : EventId,
      (i ∉ s.clk.pending → cancelEvent i s = s) ∧
      (i ∈ s.clk.pending → s.params.walkBound ≤ s.clk.pending.idxOf i → cancelEvent i s = raise .walkBound s) ∧
      (i ∈ s.clk.pending → s.clk.pending.idxOf i < s.params.walkBound →
        cancelEvent i s = { s with clk := { s.clk with pending := s.clk.pending.erase i } })

/-- 40_clock.md R123: cancelling a scheduled event restores the list, and cancelling it again does nothing. -/
def Obligations.CancelUndoesSched : Prop :=
  ∀ (i : EventId) (cyc : BitVec 16) (ph : Phase) (s t : State), s.fault = none →
    exec (.sched i cyc ph) s = .next t → t.fault = none →
    ∃ u, exec (.cancel i) t = .next u ∧ u.fault = none ∧ u.clk.pending = s.clk.pending ∧
      exec (.cancel i) u = .next u

/-- 40_clock.md R124: `RUNNEXT` unlinks the head, advances time to its trigger time, then runs its callback. Last clause:
an external event without a reply leaves one `Fire` entry (R128; 10_state.md R47; a firing without a reply is answered with
no commands, log 4). -/
def Obligations.RunnextRunsHeadCallback : Prop :=
  ∀ s : State, s.fault = none →
    (s.clk.pending = [] → exec .runnext s = .next (raise .queueEmpty s)) ∧
    ∀ (i : EventId) (rest : List EventId), s.clk.pending = i :: rest →
      exec .runnext s =
        exec (decodeEvent i) { s with clk := { now := s.clk.time i, ev := s.clk.ev, pending := rest } } ∧
      (3 ≤ i.toNat → s.env.events = [] → exec .runnext s = .next
        { s with
          clk := { now := s.clk.time i, ev := s.clk.ev, pending := rest }
          hist := s.hist ++ [.fire i (s.clk.time i)] })

/-- 40_clock.md R125: `STEP` is one `RUNNEXT`, and more while the new head's time is the time reached (each of them one
more step of the machine, log 9). The clause with no event replies leaves one `Fire` entry (R128; 10_state.md R47; log 4). -/
def Obligations.StepCommandLoops : Prop :=
  (∀ s t : State, s.fault = none → exec .runnext s = .next t →
    exec .step s = .next (if t.fault = none ∧ (∃ i ∈ t.clk.pending.head?, t.clk.time i = t.clk.now)
      then { t with stepping := some t.clk.now } else if t.fault = none then { t with stepping := none } else t)) ∧
  (∀ (s : State) (i : EventId) (rest : List EventId), s.fault = none → s.clk.pending = i :: rest → 3 ≤ i.toNat →
    s.env.events = [] → exec .step s = .next
      { s with
        clk := { now := s.clk.time i, ev := s.clk.ev, pending := rest }
        hist := s.hist ++ [.fire i (s.clk.time i)]
        stepping := if (∃ j ∈ rest.head?, s.clk.time j = s.clk.time i) then some (s.clk.time i) else none }) ∧
  (∀ s : State, s.fault = none → s.clk.pending = [] → exec .step s = .next (raise .queueEmpty s)) ∧
  (∀ (s : State) (x : Time), s.fault = none → s.stepping = some x →
    (∀ i ∈ s.clk.pending.head?, s.clk.time i ≠ x) → step s = .next { s with stepping := none }) ∧
  ∀ (s t : State) (x : Time) (i : EventId), s.fault = none → s.stepping = some x → s.clk.pending.head? = some i →
    s.clk.time i = x → exec .runnext { s with stepping := none } = .next t → t.fault = none →
    step s = .next { t with stepping := if (∃ j ∈ t.clk.pending.head?, t.clk.time j = x) then some x else none }

/-- 40_clock.md R125, R122: one `STEP` fires every event of the next pending time, in list order, and no other, and
returns with that time reached (external events, no commands issued from their callbacks: log 4; steps: log 9). -/
def Obligations.StepFiresAllOfOneTime : Prop :=
  ∀ (s : State) (x : Time) (es rest : List EventId) (r : List Input),
    s.fault = none → s.stepping = none → s.env.events = [] → es ≠ [] →
    (∀ i ∈ es, 3 ≤ i.toNat ∧ s.clk.time i = x) → (∀ j ∈ rest.head?, s.clk.time j ≠ x) →
    s.clk.pending = es ++ rest → s.inputs = { issuer := .host, word := 0x10000000 } :: r →
    CommandRun s
      { s with
        clk := { s.clk with now := x, pending := rest }
        hist := s.hist ++ es.map fun i => .fire i x
        inputs := r }

/-- 40_clock.md R130: a `STEP` whose callback keeps scheduling its event for the time reached does not return; the run
is kept as a divergence. -/
def Obligations.StepMayNotReturn : Prop :=
  ∀ (s : State) (i : EventId) (w : CommandWord) (r : List Input),
    s.fault = none → s.stepping = none → 3 ≤ i.toNat → s.clk.pending = [i] → 0 < s.params.walkBound →
    decodeCommand w = .ok (.sched i 0 .any) → s.env.events = [{ id := i, words := [w], standing := true }] →
    s.inputs = { issuer := .host, word := 0x10000000 } :: r →
    ¬ ∃ t, CommandRun s t

/-- 40_clock.md R126: `CLKRESET` rewinds time and drops every pending event, and touches nothing else; a `RUNNEXT`
after it finds nothing. -/
def Obligations.ClkresetCommand : Prop :=
  ReentrantInResponse .clkreset ∧
  ∀ s : State, s.fault = none →
    exec .clkreset s = .next { s with clk := { s.clk with now := 0, pending := [] } } ∧
    exec .runnext { s with clk := { s.clk with now := 0, pending := [] } } =
      .next (raise .queueEmpty { s with clk := { s.clk with now := 0, pending := [] } })

/-- 70_reset_and_hazards.md R272: once no tick is pending, none ever is again until `MRESET`: no other step brings the
CPU's tick back. -/
def Obligations.OnlyMresetRestartsTheCpu : Prop :=
  ∀ s t : State, (∀ m : Mode, m.tick ∉ s.clk.pending) → step s = .next t →
    (∀ inp ∈ s.inputs.head?, decodeCommand inp.word ≠ .ok .mreset) →
    ∀ m : Mode, m.tick ∉ t.clk.pending

/-- 40_clock.md R128: an external event's firing is recorded, then the collaborator's commands run. -/
def Obligations.ExternalEventCallback : Prop :=
  ∀ (i : EventId) (s t : State), s.fault = none →
    t = { s with
          hist := s.hist ++ [.fire i s.clk.now]
          env := { s.env with events := eventRepliesLeft i s.env.events } } →
    exec (.extEvent i) s = .next (t.responder (eventWords i s.env.events) t) ∧
    (eventReply i s.env.events = none → exec (.extEvent i) s = .next { s with hist := s.hist ++ [.fire i s.clk.now] })

/-- 40_clock.md R128, 60_exceptions.md R220: a response is its commands one after the other, each with the meaning it
has on its own, until one raises a fault; what is no external-class command is refused by its fault. -/
def Obligations.ResponseIsASequenceOfCommands : Prop :=
  ∀ (s : State) (w : CommandWord) (ws : List CommandWord), s.fault = none →
    s.responder [] s = s ∧
    (∀ i t, decodeCommand w = .ok i → i.cmdClass = .external → exec i s = .next t →
      s.responder (w :: ws) s = t.responder ws t) ∧
    (∀ r, decodeCommand w = .error r → s.responder (w :: ws) s = raise .badCommand s) ∧
    (∀ i, decodeCommand w = .ok i → i.cmdClass = .host → s.responder (w :: ws) s = raise .reentrant s) ∧
    (∀ i, decodeCommand w = .ok i → i.cmdClass = .internal → s.responder (w :: ws) s = raise .hostInternal s) ∧
    ∀ (f : FaultCode), s.responder (w :: ws) (raise f s) = raise f s

/-! ## PLA -/

/-- 41_pla.md R140: `CPURD` calls the read handler of the address' bank in the present mode, records the call, and
returns its byte (log 11); the handler's commands run before the call returns (40_clock.md R128). `Fetch` of the
micro-ops, `cpuRead`, is that read. -/
def Obligations.CpuReadCommand : Prop :=
  ∀ (a : Addr) (s s1 : State) (h : Handler) (d : Byte), s.fault = none →
    h = cpuReadMap s.pla.mode (a.extractLsb' 12 4) → d = readAnswer h a s →
    s1 = { s with env := { s.env with calls := (takeReply (.read h a) s.env.calls).2 } } →
    cpuReadByte a s = d ∧
    cpuRead s.responder a s =
      (s1.responder (replyWords (takeReply (.read h a) s.env.calls).1) s1).andThen
        (fun t => { t with hist := t.hist ++ [.read h a d] }) ∧
    exec (.cpurd a) s = .next ((cpuRead s.responder a s).andThen fun t => { t with ret := some d }) ∧
    (s.env.calls = [] → exec (.cpurd a) s = .next { s with hist := s.hist ++ [.read h a d], ret := some d })

/-- 41_pla.md R141: `CPUWR` calls the write handler of the address' bank and records the call. `Store` of the micro-ops,
`cpuWrite`, is that write. -/
def Obligations.CpuWriteCommand : Prop :=
  ∀ (a : Addr) (d : Byte) (s s1 : State) (h : Handler), s.fault = none →
    h = cpuWriteMap s.pla.mode (a.extractLsb' 12 4) →
    s1 = { s with env := { s.env.store h a d with calls := (takeReply (.write h a) s.env.calls).2 } } →
    cpuWrite s.responder a d s =
      (s1.responder (replyWords (takeReply (.write h a) s.env.calls).1) s1).andThen
        (fun t => { t with hist := t.hist ++ [.write h a d] }) ∧
    exec (.cpuwr a d) s = .next (cpuWrite s.responder a d s) ∧
    (s.env.calls = [] →
      exec (.cpuwr a d) s = .next { s with env := s.env.store h a d, hist := s.hist ++ [.write h a d] })

/-- 20_memory.md R75, as the model's simulator oracle has it (log 5): a write through `RAM` changes the written byte and
no other byte of any handler, and is read back through `RAM`. -/
def Obligations.RamStoreThenLoad : Prop :=
  ∀ (a : Addr) (d : Byte) (s : State), s.fault = none → s.env.calls = [] → s.pla.writeHandler a = .ram →
    ∃ t, exec (.cpuwr a d) s = .next t ∧ t.fault = none ∧
      (∀ h' a', t.env.peek h' a' = if h' = .ram ∧ a' = a then some d else s.env.peek h' a') ∧
      (s.pla.readHandler a = .ram → ∃ u, exec (.cpurd a) t = .next u ∧ u.ret = some d)

/-- 41_pla.md R142, R143 and 20_memory.md R62: a VIC read goes to the handler of bank `vicBase : v[13:12]` with the
absolute address `vicBase : v`; on PHI2 while the CPU owns the bus it is `$FF` with no call. -/
def Obligations.VicReads : Prop :=
  ∀ (v : VicAddr) (s s1 : State) (h : Handler) (abs : Addr) (d : Byte), s.fault = none →
    abs = s.pla.vicBase ++ v → h = vicReadMap (s.pla.exrom1 && !s.pla.game1) (s.pla.vicBase ++ v.extractLsb' 12 2) →
    d = readAnswer h abs s →
    s1 = { s with env := { s.env with calls := (takeReply (.read h abs) s.env.calls).2 } } →
    exec (.vicrd1 v) s = .next
      ((s1.responder (replyWords (takeReply (.read h abs) s.env.calls).1) s1).andThen
        fun t => { t with hist := t.hist ++ [.read h abs d], ret := some d }) ∧
    (s.rt.aec = true → exec (.vicrd2 v) s = .next { s with ret := some 0xFF }) ∧
    (s.rt.aec = false → exec (.vicrd2 v) s = exec (.vicrd1 v) s)

/-- 41_pla.md R144 to R147: the bank-line commands write their lines and nothing else. -/
def Obligations.BankLineCommands : Prop :=
  ∀ s : State, s.fault = none →
    (∀ l h c, exec (.setport l h c) s = .next { s with pla := { s.pla with loram := l, hiram := h, charen := c } }) ∧
    (∀ g1 e1 g2 e2, exec (.setge g1 e1 g2 e2) s =
      .next { s with pla := { s.pla with game1 := g1, exrom1 := e1, game2 := g2, exrom2 := e2 } }) ∧
    (∀ n, exec (.setvicbase n) s = .next { s with pla := { s.pla with vicBase := n } }) ∧
    ∀ on, exec (.setdmaovr on) s = .next { s with pla := { s.pla with dmaOverride := on } }

/-- 20_memory.md R65 to R67: the write map from the read map; the Ultimax modes do not look at the CPU port and leave
banks 1..7 and 10..12 disconnected; the VIC map. And the whole read map (R64), by the lines EXROM, GAME, CHAREN, HIRAM,
LORAM that number the modes; mode 1 alone has RAM in bank 13 with LORAM high. The spec marks the tables of R64, R65 and
R67 "from general knowledge, not in source" (log 15). -/
def Obligations.BankMaps : Prop :=
  (∀ (m : BitVec 5) (b : BitVec 4),
    cpuWriteMap m b =
      if cpuReadMap m b = .io then .io
      else if cpuReadMap m b = .openBus then .openBus
      else if (16 ≤ m.toNat ∧ m.toNat ≤ 23) ∧ (b = 8 ∨ b = 9) then .roml
      else if (16 ≤ m.toNat ∧ m.toNat ≤ 23) ∧ (b = 14 ∨ b = 15) then .romh
      else .ram) ∧
  (∀ (p : Pla) (l h c : Bool) (b : BitVec 4), p.exrom2 = true → p.game2 = false →
    cpuReadMap { p with loram := l, hiram := h, charen := c }.mode b = cpuReadMap p.mode b ∧
    cpuWriteMap { p with loram := l, hiram := h, charen := c }.mode b = cpuWriteMap p.mode b ∧
    ((1 ≤ b.toNat ∧ b.toNat ≤ 7) ∨ (10 ≤ b.toNat ∧ b.toNat ≤ 12) → cpuReadMap p.mode b = .openBus)) ∧
  (∀ (p : Pla) (b : BitVec 4),
    (p.exrom1 = true ∧ p.game1 = false →
      vicReadMap p.vicUltimax b = if b = 3 ∨ b = 7 ∨ b = 11 ∨ b = 15 then .romh else .ram) ∧
    (¬(p.exrom1 = true ∧ p.game1 = false) →
      vicReadMap p.vicUltimax b = if b = 1 ∨ b = 9 then .char else .ram)) ∧
  ∀ (e g c h l : Bool) (b : BitVec 4), cpuReadMap (bitOf e ++ bitOf g ++ bitOf c ++ bitOf h ++ bitOf l) b =
    if e = true ∧ g = false then
      if b = 0 then .ram else if b = 8 ∨ b = 9 then .roml else if b = 13 then .io
      else if b = 14 ∨ b = 15 then .romh else .openBus
    else if b = 8 ∨ b = 9 then (if e = false ∧ h = true ∧ l = true then .roml else .ram)
    else if b = 10 ∨ b = 11 then
      (if e = false ∧ g = false ∧ h = true then .romh else if h = true ∧ l = true then .basic else .ram)
    else if b = 13 then
      (if (h = false ∧ l = false) ∨ (e = false ∧ g = false ∧ c = false ∧ h = false) then .ram
      else if c = true then .io else .char)
    else if b = 14 ∨ b = 15 then (if h = true then .kernal else .ram)
    else .ram

/-- 20_memory.md R82, 70_reset_and_hazards.md R268: a write whose handler answers with `SETPORT` is itself dispatched
through the old map, and the map it leaves is the new one. -/
def Obligations.RemappingActsAtTheNextAccess : Prop :=
  ∀ (a : Addr) (d : Byte) (l h c : Bool) (s : State) (w : CommandWord) (rs : List CallReply), s.fault = none →
    decodeCommand w = .ok (.setport l h c) →
    s.env.calls = { key := .write (s.pla.writeHandler a) a, byte := none, words := [w] } :: rs →
    exec (.cpuwr a d) s = .next
      { s with
        pla := { s.pla with loram := l, hiram := h, charen := c }
        env := { s.env.store (s.pla.writeHandler a) a d with calls := rs }
        hist := s.hist ++ [.write (s.pla.writeHandler a) a d] }

/-! ## ROUTER -/

/-- 42_signals.md R160, R164: `SETBA 0` with the bus at the CPU drops BA, asserts the stall line unless the DMA
override holds it, passes it to the SEQ (whose tick keeps its time), and schedules the AEC release 6 half-cycles on; AEC
itself stays. With BA low it does nothing. -/
def Obligations.SetbaRequestsTheBus : Prop :=
  ∀ s : State, s.fault = none →
    (s.rt.ba = false → exec (.setba false) s = .next s) ∧
    (s.Inv → s.rt.ba = true → s.clk.now.toNat + 6 < 2 ^ 64 → s.clk.pending.length < s.params.walkBound →
      ∃ t, exec (.setba false) s = .next t ∧ t.fault = none ∧
        t.rt = { s.rt with ba := false, stall := if s.pla.dmaOverride then s.rt.stall else true } ∧
        Config.aecId ∈ t.clk.pending ∧ (t.clk.time Config.aecId).toNat = s.clk.now.toNat + 6 ∧
        t.cpu = { s.cpu with rdy := t.rt.stall, mode := if t.rt.stall then .stealing else .nonStealing } ∧
        (∀ x, s.tickAt x ↔ t.tickAt x) ∧ t.clk.now = s.clk.now ∧
        (∀ i : EventId, 3 ≤ i.toNat → (i ∈ t.clk.pending ↔ i ∈ s.clk.pending) ∧ t.clk.time i = s.clk.time i) ∧
        { t with clk := s.clk, rt := s.rt, cpu := s.cpu } = s)

/-- 42_signals.md R160, R164: `SETBA 1` with the bus requested raises BA, releases the stall line unless the DMA override
holds it, cancels the AEC release and asserts AEC at once. With BA high it does nothing. -/
def Obligations.SetbaHandsTheBusBack : Prop :=
  ∀ s : State, s.fault = none →
    (s.rt.ba = true → exec (.setba true) s = .next s) ∧
    (s.Inv → s.rt.ba = false → s.clk.pending.length < s.params.walkBound →
      ∃ t, exec (.setba true) s = .next t ∧ t.fault = none ∧
        t.rt = { s.rt with ba := true, aec := true, stall := if s.pla.dmaOverride then s.rt.stall else false } ∧
        Config.aecId ∉ t.clk.pending ∧
        t.cpu = { s.cpu with rdy := t.rt.stall, mode := if t.rt.stall then .stealing else .nonStealing } ∧
        (∀ x, s.tickAt x ↔ t.tickAt x) ∧ t.clk.now = s.clk.now ∧
        (∀ i : EventId, 3 ≤ i.toNat → (i ∈ t.clk.pending ↔ i ∈ s.clk.pending) ∧ t.clk.time i = s.clk.time i) ∧
        { t with clk := s.clk, rt := s.rt, cpu := s.cpu } = s)

/-- 42_signals.md R161: the AEC release. -/
def Obligations.AecReleaseCallback : Prop :=
  ∀ s : State, s.fault = none → exec .aecRelease s = .next { s with rt := { s.rt with aec := false } }

/-- 42_signals.md R162: the IRQ line is counted; only the changes between 0 and 1 reach the CPU; a release with none
outstanding is a fault. -/
def Obligations.SetirqCounts : Prop :=
  ∀ s : State, s.fault = none →
    (s.rt.irqCount = 0 → exec (.setirq true) s = .next { s with
      rt := { s.rt with irqCount := 1 }, cpu := { s.cpu with irqPin := true }.calcTrigger }) ∧
    (∀ n, s.rt.irqCount = n + 1 → exec (.setirq true) s = .next { s with rt := { s.rt with irqCount := n + 2 } }) ∧
    (s.rt.irqCount = 0 → exec (.setirq false) s = .next (raise .irqUnderflow s)) ∧
    (s.rt.irqCount = 1 → exec (.setirq false) s = .next { s with
      rt := { s.rt with irqCount := 0 }, cpu := { s.cpu with irqPin := false } }) ∧
    ∀ n, s.rt.irqCount = n + 2 → exec (.setirq false) s = .next { s with rt := { s.rt with irqCount := n + 1 } }

/-- 42_signals.md R163: the NMI line is counted; the rise from 0 to 1 latches an NMI; the release leaves the latch. -/
def Obligations.SetnmiCounts : Prop :=
  ∀ s : State, s.fault = none →
    (s.rt.nmiCount = 0 → exec (.setnmi true) s = .next { s with
      rt := { s.rt with nmiCount := 1 }, cpu := { s.cpu with nmiFlag := true }.calcTrigger }) ∧
    (∀ n, s.rt.nmiCount = n + 1 → exec (.setnmi true) s = .next { s with rt := { s.rt with nmiCount := n + 2 } }) ∧
    (s.rt.nmiCount = 0 → exec (.setnmi false) s = .next (raise .nmiUnderflow s)) ∧
    ∀ n, s.rt.nmiCount = n + 1 → exec (.setnmi false) s = .next { s with rt := { s.rt with nmiCount := n } }

/-! ## SEQ: inputs and ticks -/

/-- 43_sequencer.md R193 to R198, and `BUILD` (R181): the interrupt entry points, and the delivery point that is recorded
only if none is. -/
def Obligations.SeqEntryPoints : Prop :=
  ReentrantInResponse .build ∧ ReentrantInResponse .trigrst ∧
  (∀ s : State, s.fault = none →
    exec .build s = .next s ∧
    exec .trigirq s = .next { s with cpu := { s.cpu with irqPin := true }.calcTrigger } ∧
    exec .clrirq s = .next { s with cpu := { s.cpu with irqPin := false } } ∧
    exec .trignmi s = .next { s with cpu := { s.cpu with nmiFlag := true }.calcTrigger } ∧
    exec .clrnmi s = .next s ∧
    exec .trigrst s = .next { s with cpu := { s.cpu with rstFlag := true }.calcTrigger }) ∧
  ∀ c : Cpu,
    (c.intCycle = .none → c.calcTrigger = { c with intCycle := .pendingAt c.cc, intEarlier := false }) ∧
    (c.intCycle ≠ .none → c.calcTrigger = c)

/-- 43_sequencer.md R190, R191: `SETRDY` copies the level; a change of strategy moves a pending tick to the other event
at the same time, behind the events already pending for it, and no cycle is lost or doubled. -/
def Obligations.SetrdyMovesTheTick : Prop :=
  ∀ (b : Bool) (s : State), s.fault = none →
    (modeOf b = s.cpu.mode → exec (.setrdy b) s = .next { s with cpu := { s.cpu with rdy := b } }) ∧
    (modeOf b ≠ s.cpu.mode → s.cpu.mode.tick ∉ s.clk.pending →
      exec (.setrdy b) s = .next { s with cpu := { s.cpu with rdy := b, mode := modeOf b } }) ∧
    (s.Inv → modeOf b ≠ s.cpu.mode → s.cpu.mode.tick ∈ s.clk.pending → s.clk.pending.length ≤ s.params.walkBound →
      ∃ t before after, exec (.setrdy b) s = .next t ∧ t.fault = none ∧
        t.cpu = { s.cpu with rdy := b, mode := modeOf b } ∧
        t.clk.time (modeOf b).tick = s.clk.time s.cpu.mode.tick ∧
        s.clk.pending.erase s.cpu.mode.tick = before ++ after ∧
        t.clk.pending = before ++ [(modeOf b).tick] ++ after ∧
        (∀ j ∈ before, s.clk.time j ≤ s.clk.time s.cpu.mode.tick) ∧
        (∀ j ∈ after, s.clk.time s.cpu.mode.tick < s.clk.time j) ∧
        t.clk.now = s.clk.now ∧ (∀ j ∈ before ++ after, t.clk.time j = s.clk.time j) ∧
        { t with clk := s.clk, cpu := s.cpu } = s)

/-- 43_sequencer.md R187 with R182: a tick runs the slot of the opcode `cpu.cc` names, then schedules the live tick of
the mode in force one cycle on, on PHI2: two half-cycles on from an odd time. -/
def Obligations.TickRunsOpcodeSlot : Prop :=
  (∀ (s u : State) (i : Instr), s.fault = none → decodeOpcode (slotOpcode s.cpu.cc) = .ok i → exec i s = .next u →
    exec .tickNs s = .next (u.andThen reschedule)) ∧
  (∀ s : State, s.fault = none → exec .tickNs s = .next ((execSlot s).andThen reschedule)) ∧
  (∀ (s : State) (r : Reject), s.fault = none → decodeOpcode (slotOpcode s.cpu.cc) = .error r →
    slotOpcode s.cpu.cc ∈ s.params.unmodelled → exec .tickNs s = .next (raise .microOpUnmodelled s)) ∧
  ∀ u : State, reschedule u = schedule u.cpu.mode.tick 1 .phi2 u ∧
    (u.clk.now.toNat % 2 = 1 → triggerTime u.clk.now 1 .phi2 = u.clk.now.toNat + 2)

/-- 43_sequencer.md R188, R189: in the stealing strategy a stealable slot is not run while the stall line is asserted:
nothing changes but the tick's rescheduling; any other slot runs as in the non-stealing strategy. -/
def Obligations.StalledTickPauses : Prop :=
  ∀ s : State, s.fault = none →
    (s.cpu.rdy = false ∨ noSteal s.cpu.cc = true → exec .tickSt s = exec .tickNs s) ∧
    (s.cpu.rdy = true → noSteal s.cpu.cc = false → exec .tickSt s = .next (reschedule s)) ∧
    (s.cpu.rdy = true → noSteal s.cpu.cc = false → s.cpu.mode = .stealing → Config.tickStId ∉ s.clk.pending →
      s.clk.now.toNat % 2 = 1 → s.clk.now.toNat + 2 < 2 ^ 64 → s.clk.pending.length < s.params.walkBound →
      ∃ t, exec .tickSt s = .next t ∧ t.fault = none ∧ { t with clk := s.clk } = s ∧ t.clk.now = s.clk.now ∧
        Config.tickStId ∈ t.clk.pending ∧ (t.clk.time Config.tickStId).toNat = s.clk.now.toNat + 2)

/-- 43_sequencer.md R185: of the opcodes of R204 to R209 and the interrupt sequence, exactly the slots that store are
no-steal; RTI's are the parameter's; of the open table's opcodes, the read and write slots of a read-modify-write and
those the parameter marks. -/
def Obligations.NoStealSlots : Prop :=
  (∀ (i : Instr) (b : Byte) (sub : BitVec 3), decodeOpcode b = .ok i → i ≠ .rti →
    (noSteal (slotOf b sub) = true ↔
      (i = .brk ∧ 1 ≤ sub.toNat ∧ sub.toNat ≤ 3) ∨ (i = .jsrAbs ∧ 2 ≤ sub.toNat ∧ sub.toNat ≤ 3))) ∧
  (∀ sub : BitVec 3, noSteal (slotOf 0x40 sub) = Config.noSteal (slotOf 0x40 sub)) ∧
  ∀ (b : Byte) (sub : BitVec 3) (r : Reject), decodeOpcode b = .error r →
    noSteal (slotOf b sub) = ((Config.microOps b).rmw sub || Config.noSteal (slotOf b sub))

/-- An opcode's meaning is one slot of its own sequence, the slot `cpu.cc[2:0]`, whatever opcode `cpu.cc` names (log 12);
a slot past its finish slot is unmodelled (93_implementation_defined.md U26, log 18). A slot of the open table (R184, R212;
log 7) is its body, the shared finish, or unmodelled; a body makes its one access, writes registers only, and its result
stays in the opcode (R184 (c)). -/
def Obligations.OpcodeRunsItsOwnSlots : Prop :=
  (∀ (i : Instr) (b : Byte) (s : State), decodeOpcode b = .ok i →
    exec i s = if s.fault = none then exec i { s with cpu := { s.cpu with cc := slotOf b (slotSub s.cpu.cc) } }
      else .next s) ∧
  (∀ (i : Instr) (b : Byte) (k sub : BitVec 3) (s : State), (i, b, k) ∈ finishSlots → k < sub → s.fault = none →
    s.cpu.cc = slotOf b sub → exec i s = .next (raise .microOpUnmodelled s)) ∧
  (∀ (b : Byte) (e : Reject) (sub : BitVec 3) (s : State), decodeOpcode b = .error e → b ∉ s.params.unmodelled →
    s.cpu.cc = slotOf b sub → execSlot s =
      if sub < (Config.microOps b).finishSlot then
        runPlan (bodyPlan b ((Config.microOps b).arith sub) s.cpu ((Config.microOps b).body sub s.cpu.regs)) s
      else if sub = (Config.microOps b).finishSlot then runPlan (finish s.params s.cpu) s
      else raise .microOpUnmodelled s) ∧
  ∀ (b : Byte) (sub : BitVec 3) (op : Option Config.ArithOp) (plan : Config.BodyPlan) (s : State),
    s.cpu.cc = slotOf b sub → sub ≠ 7 → runPlan (bodyPlan b op s.cpu plan) s =
      match plan with
      | .done r res => s.landed b sub r res
      | .read r a k =>
        (cpuRead s.responder a { s with cpu := { s.cpu with regs := r } }).andThen fun t =>
          t.landed b sub (arithEffect op s.cpu.regs (cpuReadByte a s) (k r (cpuReadByte a s)).1) (k r (cpuReadByte a s)).2
      | .write r a d k =>
        (cpuWrite s.responder a d { s with cpu := { s.cpu with regs := r } }).andThen fun t =>
          t.landed b sub (k r).1 (k r).2

/-! ## SEQ: finish and interrupts -/

/-- 43_sequencer.md R192, 60_exceptions.md R224, R225: at a finish micro-op that is not due, the next opcode is fetched
at PC, PC advances, delivery is off, and a point that stays recorded counts as earlier; of a named opcode, and in a tick of
an opcode of the open table (R184 (d), R212). The latches `ea` and `tmp` keep what was last written (log 21). -/
def Obligations.FinishFetchesTheNextOpcode : Prop :=
  ∀ (s u : State) (c : Cpu), s.fault = none → c = s.cpu.reevaluated →
    (∀ n, c.intCycle = .pendingAt n →
      s.cpu.cc.toNat ≤ n.toNat + 2 ∧ ¬(c.intEarlier = true ∧ s.params.interruptCarry = .elapsed)) →
    u = ((cpuRead s.responder s.cpu.regs.pc { s with cpu := c }).andThen fun t =>
      { t with
        cpu := { t.cpu with
          cc := slotOf (cpuReadByte s.cpu.regs.pc s) 0
          regs := { s.cpu.regs with pc := s.cpu.regs.pc + 1 }
          deliver := false
          intEarlier := t.cpu.pointPending || t.cpu.intEarlier } }) →
    (∀ i : Instr, s.atFinish i → exec i s = .next u) ∧
    (s.atOpenFinish → execSlot s = u ∧ exec .tickNs s = .next (u.andThen reschedule))

/-- 60_exceptions.md R224 to R226: at a finish micro-op with a deliverable source and a delivery point more than two
slots back (or, under `elapsed`, recorded before an earlier finish), the interrupt is taken: no fetch, the sequence of
slots `$000` on begins; of a named opcode, and in a tick of an opcode of the open table. Registers and memory stay, and so
do the latches (log 21). -/
def Obligations.FinishTakesADueInterrupt : Prop :=
  ∀ (s u : State) (n : Slot), s.fault = none → s.cpu.intCycle = .pendingAt n →
    (s.cpu.rstFlag = true ∨ s.cpu.nmiFlag = true ∨ (s.cpu.irqPin = true ∧ s.cpu.regs.flags.i = false)) →
    (n.toNat + 2 < s.cpu.cc.toNat ∨ (s.params.interruptCarry = .elapsed ∧ s.cpu.intEarlier = true)) →
    u = { s with cpu := { s.cpu with intCycle := .inProgress, deliver := true, intEarlier := false, cc := 0 } } →
    (∀ i : Instr, s.atFinish i → exec i s = .next u) ∧
    (s.atOpenFinish → execSlot s = u ∧ exec .tickNs s = .next (reschedule u))

/-- 60_exceptions.md R227 to R232, 43_sequencer.md R205: the slots of opcode `$00`, as the interrupt sequence
(`deliver`) and as BRK: dummy read, PC high and low and the status pushed, `I` set and the source chosen by priority
with its latch cleared, PC loaded from the vector and the delivery ended. The spec marks BRK's slot bodies, the push order
and the setting of `I` "from general knowledge, not in source"; that an opcode's meaning is one slot is log 12. -/
def Obligations.BrkAndInterruptSlots : Prop :=
  ∀ (s : State) (r : Regs), s.fault = none → r = s.cpu.regs →
    (s.cpu.cc = slotOf 0x00 0 → exec .brk s = .next ((cpuRead s.responder r.pc s).andThen fun t =>
      t.ran (slotOf 0x00 1) { r with pc := if s.cpu.deliver then r.pc else r.pc + 1 })) ∧
    (s.cpu.cc = slotOf 0x00 1 → exec .brk s = .next
      ((cpuWrite s.responder (0x0100 + r.sp.setWidth 16) (r.pc.extractLsb' 8 8) s).andThen fun t =>
        t.ran (slotOf 0x00 2) { r with sp := r.sp - 1 })) ∧
    (s.cpu.cc = slotOf 0x00 2 → exec .brk s = .next
      ((cpuWrite s.responder (0x0100 + r.sp.setWidth 16) (r.pc.extractLsb' 0 8) s).andThen fun t =>
        t.ran (slotOf 0x00 3) { r with sp := r.sp - 1 })) ∧
    (s.cpu.cc = slotOf 0x00 3 → exec .brk s = .next
      ((cpuWrite s.responder (0x0100 + r.sp.setWidth 16)
        (bitOf r.flags.n ++ bitOf r.flags.v ++ (1 : BitVec 1) ++ bitOf (!s.cpu.deliver) ++ bitOf r.flags.d ++
          bitOf r.flags.i ++ bitOf r.flags.z ++ bitOf r.flags.c) s).andThen fun t =>
        t.ran (slotOf 0x00 4) { r with sp := r.sp - 1 })) ∧
    (∀ (v : Addr) (c : Cpu), s.cpu.cc = slotOf 0x00 4 →
      (v, c) =
        (if s.cpu.deliver = false then (0xFFFE, s.cpu)
        else if s.cpu.rstFlag = true then (0xFFFC, { s.cpu with rstFlag := false })
        else if s.cpu.nmiFlag = true then (0xFFFA, { s.cpu with nmiFlag := false })
        else (0xFFFE, s.cpu)) →
      exec .brk s = .next
        ((cpuRead s.responder v
          { s with cpu := { c with regs := { r with flags := { r.flags with i := true }, ea := v } } }).andThen fun t =>
          t.ran (slotOf 0x00 5)
            { r with flags := { r.flags with i := true }, ea := v, tmp := cpuReadByte v s })) ∧
    (s.cpu.cc = slotOf 0x00 5 → exec .brk s = .next ((cpuRead s.responder (r.ea + 1) s).andThen fun t =>
      if s.cpu.deliver then
        { t with cpu := { t.cpu with
            cc := slotOf 0x00 6, regs := { r with pc := cpuReadByte (r.ea + 1) s ++ r.tmp },
            intCycle := .none, intEarlier := false } }
      else t.ran (slotOf 0x00 6) { r with pc := cpuReadByte (r.ea + 1) s ++ r.tmp }))

/-- 60_exceptions.md R236 with the stack of 43_sequencer.md R180: RTI pulls P, PC low, PC high (its slot bodies, and that
all eight flags are restored by the layout of 30_encoding.md R94, are the model's: log 8). -/
def Obligations.RtiSlots : Prop :=
  ∀ (s : State) (r : Regs) (sp : Byte) (d : Byte), s.fault = none → r = s.cpu.regs → sp = r.sp + 1 →
    d = cpuReadByte (0x0100 + sp.setWidth 16) s →
    (s.cpu.cc = slotOf 0x40 0 → exec .rti s = .next ((cpuRead s.responder r.pc s).andThen fun t =>
      t.ran (slotOf 0x40 1) r)) ∧
    (s.cpu.cc = slotOf 0x40 1 → exec .rti s = .next
      ((cpuRead s.responder (0x0100 + r.sp.setWidth 16) s).andThen fun t => t.ran (slotOf 0x40 2) r)) ∧
    (s.cpu.cc = slotOf 0x40 2 → exec .rti s = .next
      ((cpuRead s.responder (0x0100 + sp.setWidth 16) { s with cpu := { s.cpu with regs := { r with sp := sp } } }).andThen
        fun t => t.ran (slotOf 0x40 3)
          { r with sp := sp, flags :=
            { n := d.getLsbD 7, v := d.getLsbD 6, u := d.getLsbD 5, b := d.getLsbD 4, d := d.getLsbD 3,
              i := d.getLsbD 2, z := d.getLsbD 1, c := d.getLsbD 0 } })) ∧
    (s.cpu.cc = slotOf 0x40 3 → exec .rti s = .next
      ((cpuRead s.responder (0x0100 + sp.setWidth 16) { s with cpu := { s.cpu with regs := { r with sp := sp } } }).andThen
        fun t => t.ran (slotOf 0x40 4) { r with sp := sp, tmp := d })) ∧
    (s.cpu.cc = slotOf 0x40 4 → exec .rti s = .next
      ((cpuRead s.responder (0x0100 + sp.setWidth 16) { s with cpu := { s.cpu with regs := { r with sp := sp } } }).andThen
        fun t => t.ran (slotOf 0x40 5) { r with sp := sp, pc := d ++ r.tmp }))

/-! ## SEQ: opcodes -/

/-- 43_sequencer.md R204 and R208: slot 0 of `LDA #` and of `NOP` (slot bodies the spec marks "from general knowledge,
not in source"; log 12). -/
def Obligations.LdaAndNopSlots : Prop :=
  ∀ (s : State) (r : Regs) (d : Byte), s.fault = none → r = s.cpu.regs → d = cpuReadByte r.pc s →
    (s.cpu.cc = slotOf 0xA9 0 → exec .ldaImm s = .next ((cpuRead s.responder r.pc s).andThen fun t =>
      t.ran (slotOf 0xA9 1)
        { r with a := d, pc := r.pc + 1, flags := { r.flags with n := d.getLsbD 7, z := decide (d = 0) } })) ∧
    (s.cpu.cc = slotOf 0xEA 0 → exec .nop s = .next ((cpuRead s.responder r.pc s).andThen fun t =>
      t.ran (slotOf 0xEA 1) r))

/-- 43_sequencer.md R206 and R207 (with R180): the slots of `JSR` and `RTS` before their finish (bodies the spec marks
"from general knowledge, not in source"; log 12). -/
def Obligations.JsrAndRtsSlots : Prop :=
  ∀ (s : State) (r : Regs) (sp : Byte), s.fault = none → r = s.cpu.regs → sp = r.sp + 1 →
    (s.cpu.cc = slotOf 0x20 0 → exec .jsrAbs s = .next ((cpuRead s.responder r.pc s).andThen fun t =>
      t.ran (slotOf 0x20 1) { r with tmp := cpuReadByte r.pc s, pc := r.pc + 1 })) ∧
    (s.cpu.cc = slotOf 0x20 1 → exec .jsrAbs s = .next
      ((cpuRead s.responder (0x0100 + r.sp.setWidth 16) s).andThen fun t => t.ran (slotOf 0x20 2) r)) ∧
    (s.cpu.cc = slotOf 0x20 2 → exec .jsrAbs s = .next
      ((cpuWrite s.responder (0x0100 + r.sp.setWidth 16) (r.pc.extractLsb' 8 8) s).andThen fun t =>
        t.ran (slotOf 0x20 3) { r with sp := r.sp - 1 })) ∧
    (s.cpu.cc = slotOf 0x20 3 → exec .jsrAbs s = .next
      ((cpuWrite s.responder (0x0100 + r.sp.setWidth 16) (r.pc.extractLsb' 0 8) s).andThen fun t =>
        t.ran (slotOf 0x20 4) { r with sp := r.sp - 1 })) ∧
    (s.cpu.cc = slotOf 0x20 4 → exec .jsrAbs s = .next ((cpuRead s.responder r.pc s).andThen fun t =>
      t.ran (slotOf 0x20 5) { r with pc := cpuReadByte r.pc s ++ r.tmp })) ∧
    (s.cpu.cc = slotOf 0x60 0 → exec .rts s = .next ((cpuRead s.responder r.pc s).andThen fun t =>
      t.ran (slotOf 0x60 1) r)) ∧
    (s.cpu.cc = slotOf 0x60 1 → exec .rts s = .next
      ((cpuRead s.responder (0x0100 + r.sp.setWidth 16) s).andThen fun t => t.ran (slotOf 0x60 2) r)) ∧
    (s.cpu.cc = slotOf 0x60 2 → exec .rts s = .next
      ((cpuRead s.responder (0x0100 + sp.setWidth 16) { s with cpu := { s.cpu with regs := { r with sp := sp } } }).andThen
        fun t => t.ran (slotOf 0x60 3) { r with sp := sp, tmp := cpuReadByte (0x0100 + sp.setWidth 16) s })) ∧
    (s.cpu.cc = slotOf 0x60 3 → exec .rts s = .next
      ((cpuRead s.responder (0x0100 + sp.setWidth 16) { s with cpu := { s.cpu with regs := { r with sp := sp } } }).andThen
        fun t => t.ran (slotOf 0x60 4) { r with sp := sp, pc := cpuReadByte (0x0100 + sp.setWidth 16) s ++ r.tmp })) ∧
    (s.cpu.cc = slotOf 0x60 4 → exec .rts s = .next ((cpuRead s.responder r.pc s).andThen fun t =>
      t.ran (slotOf 0x60 5) { r with pc := r.pc + 1 }))

/-- 43_sequencer.md R199 to R201, R209 and R203: the branch slots, with the condition of each branch; at a page cross a
point recorded at the branch's slot 0 is deferred to its slot 1 (`page_cross`); under `no_page_cross` a taken branch
within its page first moves a due point to its slot 2 and then fetches, so it never ends with a redirect (latches:
log 21). The spec marks the conditions and the dummy reads "from general knowledge, not in source"; log 12. -/
def Obligations.BranchSlots : Prop :=
  (∀ f : Flags,
    branchCond 0x10 f = !f.n ∧ branchCond 0x30 f = f.n ∧ branchCond 0x50 f = !f.v ∧ branchCond 0x70 f = f.v ∧
    branchCond 0x90 f = !f.c ∧ branchCond 0xB0 f = f.c ∧ branchCond 0xD0 f = !f.z ∧ branchCond 0xF0 f = f.z) ∧
  ∀ (i : Instr) (b : Byte) (s : State) (r : Regs), (i, b) ∈ branchBytes → s.fault = none → r = s.cpu.regs →
    (s.cpu.cc = slotOf b 0 → exec i s = .next ((cpuRead s.responder r.pc s).andThen fun t =>
      t.ran (slotOf b 1) { r with tmp := cpuReadByte r.pc s, pc := r.pc + 1 })) ∧
    (∀ target : Addr, s.cpu.cc = slotOf b 1 → branchCond b r.flags = true → target = r.pc + r.tmp.signExtend 16 →
      exec i s = .next
        ((cpuRead s.responder r.pc { s with cpu := { s.cpu with regs := { r with ea := target } } }).andThen fun t =>
          t.ran (slotOf b 2) { r with ea := target, pc := r.pc.extractLsb' 8 8 ++ target.extractLsb' 0 8 })) ∧
    (∀ c : Cpu, s.cpu.cc = slotOf b 2 → r.ea.extractLsb' 8 8 ≠ r.pc.extractLsb' 8 8 →
      c = (if s.params.branchDeferCase = .pageCross ∧ s.cpu.intCycle = .pendingAt (slotOf b 0)
        then { s.cpu with intCycle := .pendingAt (slotOf b 1) } else s.cpu) →
      exec i s = .next ((cpuRead s.responder r.pc { s with cpu := c }).andThen fun t =>
        t.ran (slotOf b 3) { r with pc := r.ea })) ∧
    ∀ c : Cpu, s.cpu.cc = slotOf b 2 → r.ea.extractLsb' 8 8 = r.pc.extractLsb' 8 8 →
      s.params.branchDeferCase = .noPageCross →
      c = (if due s.params s.cpu = true
        then { s.cpu with intCycle := .pendingAt (slotOf b 2), intEarlier := false } else s.cpu).reevaluated →
      exec i s = .next ((cpuRead s.responder r.pc { s with cpu := c }).andThen fun t =>
        { t with
          cpu := { t.cpu with
            cc := slotOf (cpuReadByte r.pc s) 0
            regs := { r with pc := r.pc + 1 }
            deliver := false
            intEarlier := t.cpu.pointPending || t.cpu.intEarlier } })

/-- 43_sequencer.md R210: ADC and SBC with D clear are the exact sum cut to 8 bits, C its ninth bit, V the signed
overflow; with D set, V is the binary one, and A and C come from the decimal path, N and Z from the path `ADC_DECIMAL_NZ`
names, the decimal path's values being free (log 16). At the slot of the open table that reads its operand, ADC and SBC
work on the A and the flags the slot found (log 7). -/
def Obligations.AddWithCarry : Prop :=
  ∀ (op : Config.ArithOp) (m m' : Byte) (r : Regs), m' = (match op with | .adc => m | .sbc => m ^^^ 0xFF) →
    ((arith op m r).flags.v = true ↔
      r.a.toInt + m'.toInt + (r.flags.c.toNat : Int) < -128 ∨ 127 < r.a.toInt + m'.toInt + (r.flags.c.toNat : Int)) ∧
    (r.flags.d = false →
      (arith op m r).a.toNat = (r.a.toNat + m'.toNat + r.flags.c.toNat) % 256 ∧
      ((arith op m r).flags.c = true ↔ 256 ≤ r.a.toNat + m'.toNat + r.flags.c.toNat) ∧
      ((arith op m r).flags.z = true ↔ (arith op m r).a = 0) ∧
      (arith op m r).flags.n = (arith op m r).a.getLsbD 7) ∧
    (r.flags.d = true →
      ((arith op m r).a, (arith op m r).flags.c) = Config.decimalResult op r.a m r.flags.c ∧
      ∀ bin : Byte, bin = BitVec.ofNat 8 (r.a.toNat + m'.toNat + r.flags.c.toNat) →
        (arith op m r).flags.n = (match (Config.adcDecimalNZ op).1 with
          | .binary => bin.getLsbD 7
          | .decimal => (Config.decimalNZ op r.a m r.flags.c).1) ∧
        (arith op m r).flags.z = (match (Config.adcDecimalNZ op).2 with
          | .binary => decide (bin = 0)
          | .decimal => (Config.decimalNZ op r.a m r.flags.c).2)) ∧
    { arith op m r with a := r.a, flags := { (arith op m r).flags with
        n := r.flags.n, v := r.flags.v, z := r.flags.z, c := r.flags.c } } = r ∧
    ∀ (b : Byte) (sub : BitVec 3) (a : Addr) (k : Regs → Byte → Regs × Config.BodyResult) (s : State),
      s.cpu.cc = slotOf b sub → sub ≠ 7 → m = cpuReadByte a s →
      runPlan (bodyPlan b (some op) s.cpu (.read r a k)) s =
        (cpuRead s.responder a { s with cpu := { s.cpu with regs := r } }).andThen fun t =>
          t.landed b sub (arith op m { (k r m).1 with a := s.cpu.regs.a, flags := s.cpu.regs.flags }) (k r m).2

/-! ## Runs -/

/-- 43_sequencer.md R211, 70_reset_and_hazards.md R274: with the CPU alone, LDA # and NOP cost 2 cycles, JSR, RTS and RTI
6, BRK 7: that many `STEP`s, one bus access each, the last the fetch of the next opcode, 2 half-cycles apart (RTI's
slots: log 8). -/
def Obligations.StraightLineCycleCounts : Prop :=
  ∀ (b : Byte) (n : Nat) (s : State) (r : List Input),
    (b, n) ∈ [((0xA9 : Byte), 2), (0xEA, 2), (0x20, 6), (0x60, 6), (0x40, 6), (0x00, 7)] →
    s.cpuAlone → s.cpu.cc = slotOf b 0 → s.cpu.deliver = false → s.inputs = stepInputs n ++ r →
    s.tickTime % 2 = 1 → s.tickTime + 2 * n < 2 ^ 64 →
    ∃ t pc op, core.run n s = .next t ∧ t.fault = none ∧ t.stepping = none ∧ t.inputs = r ∧
      t.hist.length = s.hist.length + n ∧
      t.hist.getLast? = some (.read (t.pla.readHandler pc) pc op) ∧ t.cpu.cc = slotOf op 0 ∧
      t.cpu.regs.pc = pc + 1 ∧ t.clk.now.toNat = s.tickTime + 2 * (n - 1) ∧ t.tickTime = s.tickTime + 2 * n ∧
      t.clk.pending = [Config.tickNsId]

/-- 43_sequencer.md R209, R211 (MIN64's branch page-cross counts): with the CPU alone a branch costs 2 cycles not taken,
3 taken within the page of the next instruction, 4 taken across it, and the next opcode is fetched at the target. -/
def Obligations.BranchCycleCounts : Prop :=
  ∀ (i : Instr) (b offset : Byte) (s : State) (r : List Input) (next target dest : Addr) (n : Nat),
    (i, b) ∈ branchBytes → s.cpuAlone → s.cpu.cc = slotOf b 0 → s.cpu.deliver = false →
    s.inputs = stepInputs n ++ r → s.tickTime % 2 = 1 → s.tickTime + 2 * n < 2 ^ 64 →
    offset = cpuReadByte s.cpu.regs.pc s → next = s.cpu.regs.pc + 1 → target = next + offset.signExtend 16 →
    (dest, n) = (if branchCond b s.cpu.regs.flags = false then (next, 2)
      else if target.extractLsb' 8 8 = next.extractLsb' 8 8 then (target, 3) else (target, 4)) →
    ∃ t op, core.run n s = .next t ∧ t.fault = none ∧ t.stepping = none ∧ t.inputs = r ∧
      t.hist.length = s.hist.length + n ∧
      t.hist.getLast? = some (.read (t.pla.readHandler dest) dest op) ∧ t.cpu.cc = slotOf op 0 ∧
      t.cpu.regs.pc = dest + 1 ∧ t.clk.now.toNat = s.tickTime + 2 * (n - 1) ∧
      t.cpu.regs.a = s.cpu.regs.a ∧ t.cpu.regs.x = s.cpu.regs.x ∧ t.cpu.regs.y = s.cpu.regs.y ∧
      t.cpu.regs.sp = s.cpu.regs.sp ∧ t.cpu.regs.flags = s.cpu.regs.flags

/-- 70_reset_and_hazards.md R263: after `MRESET` seven `STEP`s run the interrupt sequence as an RST: the seven bus
accesses, the last the fetch of the first opcode at half-cycle 13, with PC the vector's word, `I` set and SP down 3. -/
def Obligations.PowerOnSequence : Prop :=
  ∀ (s : State) (r : List Input) (p : Regs), s.fault = none → s.stepping = none → s.quiet → 0 < s.params.walkBound →
    s.inputs = { issuer := .host, word := 0x18000000 } :: (stepInputs 7 ++ r) → p = nextDraw s.env →
    ∃ t d lo hi op, core.run 8 s = .next t ∧ t.fault = none ∧ t.inputs = r ∧ t.clk.now = 13 ∧
      t.hist =
        [.read (Pla.reset.readHandler p.pc) p.pc d,
          .write .ram (0x0100 + p.sp.setWidth 16) (p.pc.extractLsb' 8 8),
          .write .ram (0x0100 + (p.sp - 1).setWidth 16) (p.pc.extractLsb' 0 8),
          .write .ram (0x0100 + (p.sp - 2).setWidth 16)
            (bitOf p.flags.n ++ bitOf p.flags.v ++ (1 : BitVec 1) ++ (0 : BitVec 1) ++ bitOf p.flags.d ++
              bitOf p.flags.i ++ bitOf p.flags.z ++ bitOf p.flags.c),
          .read .kernal 0xFFFC lo, .read .kernal 0xFFFD hi,
          .read (Pla.reset.readHandler (hi ++ lo)) (hi ++ lo) op] ∧
      t.cpu.cc = slotOf op 0 ∧ t.cpu.regs.pc = hi ++ lo + 1 ∧ t.cpu.regs.flags.i = true ∧
      t.cpu.regs.sp = p.sp - 3 ∧ t.cpu.regs.a = p.a ∧ t.cpu.regs.x = p.x ∧ t.cpu.regs.y = p.y ∧
      t.cpu.intCycle = .none ∧ t.cpu.rstFlag = false ∧ t.cpu.deliver = false ∧
      t.clk.pending = [Config.tickNsId] ∧ t.clk.time Config.tickNsId = 15

/-! ## The whole machine -/

/-- 60_exceptions.md R238: a command of the external class cannot touch the CPU's registers, its place in the table, the
RST latch, the time or the parameters, and cannot clear the NMI latch; the history only grows. -/
def Obligations.ExternalCommandsKeepTheCpu : Prop :=
  ∀ (i : Instr) (s t : State), i.cmdClass = .external → exec i s = .next t → ExternalFrame s t

/-- 10_state.md R47, 20_memory.md R77: no instruction but `MRESET` takes back or reorders what the history records. -/
def Obligations.HistoryOnlyGrows : Prop :=
  ∀ (i : Instr) (s t : State), i ≠ .mreset → exec i s = .next t → s.hist <+: t.hist

/-- 10_state.md R40: a latched NMI is lost only by `MRESET` or by being taken at slot 4 of an interrupt sequence with
no RST latched. -/
def Obligations.NmiLatchedUntilServiced : Prop :=
  ∀ s t : State, step s = .next t → s.cpu.nmiFlag = true → t.cpu.nmiFlag = false →
    (∃ inp ∈ s.inputs.head?, decodeCommand inp.word = .ok .mreset) ∨
    (s.cpu.cc = slotOf 0x00 4 ∧ s.cpu.deliver = true ∧ s.cpu.rstFlag = false)

/-- 60_exceptions.md R235: an interrupt begins only at a finish micro-op, between instructions: a step that begins one ran
the finish of a named opcode or of one of the open table, makes no bus access, leaves the registers as the finished
instruction left them (the latches too, log 21), and the next slot is slot `$000`. -/
def Obligations.InterruptsBeginBetweenInstructions : Prop :=
  ∀ s t : State, step s = .next t → s.cpu.deliver = false → t.cpu.deliver = true →
    (∃ inp ∈ s.inputs.head?, decodeCommand inp.word = .ok .mreset) ∨
    (s.finishing ∧ t.cpu = { s.cpu with intCycle := .inProgress, deliver := true, intEarlier := false, cc := 0 } ∧
      t.hist = s.hist ∧ t.env = s.env)

/-- 20_memory.md R75, as the model's simulator oracle has it (log 5, log 10): a step without a fault changes a byte of
a handler only where the history records a `RAM` write of that address. -/
def Obligations.MemoryChangesOnlyByRecordedWrites : Prop :=
  ∀ (s t : State) (h : Handler) (a : Addr), step s = .next t → t.fault = none →
    (∀ d, HistEntry.write .ram a d ∉ t.hist.drop s.hist.length) ∨ h ≠ .ram →
    t.env.peek h a = s.env.peek h a

/-- 60_exceptions.md R238, R240: no CPU address reaches the bank lines or the ROUTER: a tick whose handlers issue no
command changes neither. -/
def Obligations.CpuAloneKeepsTheLines : Prop :=
  ∀ (i : Instr) (s t : State), (i = .tickNs ∨ i = .tickSt ∨ i.cmdClass = .opcode) → s.env.calls = [] →
    exec i s = .next t → t.pla = s.pla ∧ t.rt = s.rt ∧ t.clk.now = s.clk.now ∧ t.env.events = s.env.events

end SliceStatements
end

