-- ==== Sys2Proof/Laws/State.lean ====
section
/-! SUPPORT. One lemma per field per update of the state, so that no proof unfolds a record update; and the small lemmas of the EventClock's records. -/

namespace Sys2Proof.Machine

/-! ### raise -/

@[simp] theorem raise_clk (f : FaultCode) (s : State) : (raise f s).clk = s.clk := rfl
@[simp] theorem raise_pla (f : FaultCode) (s : State) : (raise f s).pla = s.pla := rfl
@[simp] theorem raise_rt (f : FaultCode) (s : State) : (raise f s).rt = s.rt := rfl
@[simp] theorem raise_cpu (f : FaultCode) (s : State) : (raise f s).cpu = s.cpu := rfl
@[simp] theorem raise_fault (f : FaultCode) (s : State) : (raise f s).fault = some f := rfl
@[simp] theorem raise_hist (f : FaultCode) (s : State) : (raise f s).hist = s.hist := rfl
@[simp] theorem raise_ret (f : FaultCode) (s : State) : (raise f s).ret = s.ret := rfl
@[simp] theorem raise_params (f : FaultCode) (s : State) : (raise f s).params = s.params := rfl
@[simp] theorem raise_env (f : FaultCode) (s : State) : (raise f s).env = s.env := rfl
@[simp] theorem raise_inputs (f : FaultCode) (s : State) : (raise f s).inputs = s.inputs := rfl
@[simp] theorem raise_stepping (f : FaultCode) (s : State) : (raise f s).stepping = s.stepping := rfl

/-! ### mapCpu -/

@[simp] theorem mapCpu_clk (s : State) (f : Cpu → Cpu) : (s.mapCpu f).clk = s.clk := rfl
@[simp] theorem mapCpu_pla (s : State) (f : Cpu → Cpu) : (s.mapCpu f).pla = s.pla := rfl
@[simp] theorem mapCpu_rt (s : State) (f : Cpu → Cpu) : (s.mapCpu f).rt = s.rt := rfl
@[simp] theorem mapCpu_cpu (s : State) (f : Cpu → Cpu) : (s.mapCpu f).cpu = f s.cpu := rfl
@[simp] theorem mapCpu_fault (s : State) (f : Cpu → Cpu) : (s.mapCpu f).fault = s.fault := rfl
@[simp] theorem mapCpu_hist (s : State) (f : Cpu → Cpu) : (s.mapCpu f).hist = s.hist := rfl
@[simp] theorem mapCpu_ret (s : State) (f : Cpu → Cpu) : (s.mapCpu f).ret = s.ret := rfl
@[simp] theorem mapCpu_params (s : State) (f : Cpu → Cpu) : (s.mapCpu f).params = s.params := rfl
@[simp] theorem mapCpu_env (s : State) (f : Cpu → Cpu) : (s.mapCpu f).env = s.env := rfl
@[simp] theorem mapCpu_inputs (s : State) (f : Cpu → Cpu) : (s.mapCpu f).inputs = s.inputs := rfl
@[simp] theorem mapCpu_stepping (s : State) (f : Cpu → Cpu) : (s.mapCpu f).stepping = s.stepping := rfl

/-! ### record -/

@[simp] theorem record_clk (s : State) (e : HistEntry) : (s.record e).clk = s.clk := rfl
@[simp] theorem record_pla (s : State) (e : HistEntry) : (s.record e).pla = s.pla := rfl
@[simp] theorem record_rt (s : State) (e : HistEntry) : (s.record e).rt = s.rt := rfl
@[simp] theorem record_cpu (s : State) (e : HistEntry) : (s.record e).cpu = s.cpu := rfl
@[simp] theorem record_fault (s : State) (e : HistEntry) : (s.record e).fault = s.fault := rfl
@[simp] theorem record_hist (s : State) (e : HistEntry) : (s.record e).hist = s.hist ++ [e] := rfl
@[simp] theorem record_ret (s : State) (e : HistEntry) : (s.record e).ret = s.ret := rfl
@[simp] theorem record_params (s : State) (e : HistEntry) : (s.record e).params = s.params := rfl
@[simp] theorem record_env (s : State) (e : HistEntry) : (s.record e).env = s.env := rfl
@[simp] theorem record_inputs (s : State) (e : HistEntry) : (s.record e).inputs = s.inputs := rfl
@[simp] theorem record_stepping (s : State) (e : HistEntry) : (s.record e).stepping = s.stepping := rfl

/-! ### withCalls -/

@[simp] theorem withCalls_clk (s : State) (rs : List CallReply) : (s.withCalls rs).clk = s.clk := rfl
@[simp] theorem withCalls_pla (s : State) (rs : List CallReply) : (s.withCalls rs).pla = s.pla := rfl
@[simp] theorem withCalls_rt (s : State) (rs : List CallReply) : (s.withCalls rs).rt = s.rt := rfl
@[simp] theorem withCalls_cpu (s : State) (rs : List CallReply) : (s.withCalls rs).cpu = s.cpu := rfl
@[simp] theorem withCalls_fault (s : State) (rs : List CallReply) : (s.withCalls rs).fault = s.fault := rfl
@[simp] theorem withCalls_hist (s : State) (rs : List CallReply) : (s.withCalls rs).hist = s.hist := rfl
@[simp] theorem withCalls_ret (s : State) (rs : List CallReply) : (s.withCalls rs).ret = s.ret := rfl
@[simp] theorem withCalls_params (s : State) (rs : List CallReply) : (s.withCalls rs).params = s.params := rfl
@[simp] theorem withCalls_env (s : State) (rs : List CallReply) : (s.withCalls rs).env = { s.env with calls := rs } := rfl
@[simp] theorem withCalls_inputs (s : State) (rs : List CallReply) : (s.withCalls rs).inputs = s.inputs := rfl
@[simp] theorem withCalls_stepping (s : State) (rs : List CallReply) : (s.withCalls rs).stepping = s.stepping := rfl

/-! ### returns -/

@[simp] theorem returns_clk (s : State) (d : Byte) : (s.returns d).clk = s.clk := rfl
@[simp] theorem returns_pla (s : State) (d : Byte) : (s.returns d).pla = s.pla := rfl
@[simp] theorem returns_rt (s : State) (d : Byte) : (s.returns d).rt = s.rt := rfl
@[simp] theorem returns_cpu (s : State) (d : Byte) : (s.returns d).cpu = s.cpu := rfl
@[simp] theorem returns_fault (s : State) (d : Byte) : (s.returns d).fault = s.fault := rfl
@[simp] theorem returns_hist (s : State) (d : Byte) : (s.returns d).hist = s.hist := rfl
@[simp] theorem returns_ret (s : State) (d : Byte) : (s.returns d).ret = some d := rfl
@[simp] theorem returns_params (s : State) (d : Byte) : (s.returns d).params = s.params := rfl
@[simp] theorem returns_env (s : State) (d : Byte) : (s.returns d).env = s.env := rfl
@[simp] theorem returns_inputs (s : State) (d : Byte) : (s.returns d).inputs = s.inputs := rfl
@[simp] theorem returns_stepping (s : State) (d : Byte) : (s.returns d).stepping = s.stepping := rfl

/-! ### setPort -/

@[simp] theorem setPort_clk (l h c : Bool) (s : State) : (setPort l h c s).clk = s.clk := rfl
@[simp] theorem setPort_pla (l h c : Bool) (s : State) : (setPort l h c s).pla = { s.pla with loram := l, hiram := h, charen := c } := rfl
@[simp] theorem setPort_rt (l h c : Bool) (s : State) : (setPort l h c s).rt = s.rt := rfl
@[simp] theorem setPort_cpu (l h c : Bool) (s : State) : (setPort l h c s).cpu = s.cpu := rfl
@[simp] theorem setPort_fault (l h c : Bool) (s : State) : (setPort l h c s).fault = s.fault := rfl
@[simp] theorem setPort_hist (l h c : Bool) (s : State) : (setPort l h c s).hist = s.hist := rfl
@[simp] theorem setPort_ret (l h c : Bool) (s : State) : (setPort l h c s).ret = s.ret := rfl
@[simp] theorem setPort_params (l h c : Bool) (s : State) : (setPort l h c s).params = s.params := rfl
@[simp] theorem setPort_env (l h c : Bool) (s : State) : (setPort l h c s).env = s.env := rfl
@[simp] theorem setPort_inputs (l h c : Bool) (s : State) : (setPort l h c s).inputs = s.inputs := rfl
@[simp] theorem setPort_stepping (l h c : Bool) (s : State) : (setPort l h c s).stepping = s.stepping := rfl

/-! ### setGameExrom -/

@[simp] theorem setGameExrom_clk (g1 e1 g2 e2 : Bool) (s : State) : (setGameExrom g1 e1 g2 e2 s).clk = s.clk := rfl
@[simp] theorem setGameExrom_pla (g1 e1 g2 e2 : Bool) (s : State) : (setGameExrom g1 e1 g2 e2 s).pla = { s.pla with game1 := g1, exrom1 := e1, game2 := g2, exrom2 := e2 } := rfl
@[simp] theorem setGameExrom_rt (g1 e1 g2 e2 : Bool) (s : State) : (setGameExrom g1 e1 g2 e2 s).rt = s.rt := rfl
@[simp] theorem setGameExrom_cpu (g1 e1 g2 e2 : Bool) (s : State) : (setGameExrom g1 e1 g2 e2 s).cpu = s.cpu := rfl
@[simp] theorem setGameExrom_fault (g1 e1 g2 e2 : Bool) (s : State) : (setGameExrom g1 e1 g2 e2 s).fault = s.fault := rfl
@[simp] theorem setGameExrom_hist (g1 e1 g2 e2 : Bool) (s : State) : (setGameExrom g1 e1 g2 e2 s).hist = s.hist := rfl
@[simp] theorem setGameExrom_ret (g1 e1 g2 e2 : Bool) (s : State) : (setGameExrom g1 e1 g2 e2 s).ret = s.ret := rfl
@[simp] theorem setGameExrom_params (g1 e1 g2 e2 : Bool) (s : State) : (setGameExrom g1 e1 g2 e2 s).params = s.params := rfl
@[simp] theorem setGameExrom_env (g1 e1 g2 e2 : Bool) (s : State) : (setGameExrom g1 e1 g2 e2 s).env = s.env := rfl
@[simp] theorem setGameExrom_inputs (g1 e1 g2 e2 : Bool) (s : State) : (setGameExrom g1 e1 g2 e2 s).inputs = s.inputs := rfl
@[simp] theorem setGameExrom_stepping (g1 e1 g2 e2 : Bool) (s : State) : (setGameExrom g1 e1 g2 e2 s).stepping = s.stepping := rfl

/-! ### setVicBase -/

@[simp] theorem setVicBase_clk (n : BitVec 2) (s : State) : (setVicBase n s).clk = s.clk := rfl
@[simp] theorem setVicBase_pla (n : BitVec 2) (s : State) : (setVicBase n s).pla = { s.pla with vicBase := n } := rfl
@[simp] theorem setVicBase_rt (n : BitVec 2) (s : State) : (setVicBase n s).rt = s.rt := rfl
@[simp] theorem setVicBase_cpu (n : BitVec 2) (s : State) : (setVicBase n s).cpu = s.cpu := rfl
@[simp] theorem setVicBase_fault (n : BitVec 2) (s : State) : (setVicBase n s).fault = s.fault := rfl
@[simp] theorem setVicBase_hist (n : BitVec 2) (s : State) : (setVicBase n s).hist = s.hist := rfl
@[simp] theorem setVicBase_ret (n : BitVec 2) (s : State) : (setVicBase n s).ret = s.ret := rfl
@[simp] theorem setVicBase_params (n : BitVec 2) (s : State) : (setVicBase n s).params = s.params := rfl
@[simp] theorem setVicBase_env (n : BitVec 2) (s : State) : (setVicBase n s).env = s.env := rfl
@[simp] theorem setVicBase_inputs (n : BitVec 2) (s : State) : (setVicBase n s).inputs = s.inputs := rfl
@[simp] theorem setVicBase_stepping (n : BitVec 2) (s : State) : (setVicBase n s).stepping = s.stepping := rfl

/-! ### setDmaOverride -/

@[simp] theorem setDmaOverride_clk (on : Bool) (s : State) : (setDmaOverride on s).clk = s.clk := rfl
@[simp] theorem setDmaOverride_pla (on : Bool) (s : State) : (setDmaOverride on s).pla = { s.pla with dmaOverride := on } := rfl
@[simp] theorem setDmaOverride_rt (on : Bool) (s : State) : (setDmaOverride on s).rt = s.rt := rfl
@[simp] theorem setDmaOverride_cpu (on : Bool) (s : State) : (setDmaOverride on s).cpu = s.cpu := rfl
@[simp] theorem setDmaOverride_fault (on : Bool) (s : State) : (setDmaOverride on s).fault = s.fault := rfl
@[simp] theorem setDmaOverride_hist (on : Bool) (s : State) : (setDmaOverride on s).hist = s.hist := rfl
@[simp] theorem setDmaOverride_ret (on : Bool) (s : State) : (setDmaOverride on s).ret = s.ret := rfl
@[simp] theorem setDmaOverride_params (on : Bool) (s : State) : (setDmaOverride on s).params = s.params := rfl
@[simp] theorem setDmaOverride_env (on : Bool) (s : State) : (setDmaOverride on s).env = s.env := rfl
@[simp] theorem setDmaOverride_inputs (on : Bool) (s : State) : (setDmaOverride on s).inputs = s.inputs := rfl
@[simp] theorem setDmaOverride_stepping (on : Bool) (s : State) : (setDmaOverride on s).stepping = s.stepping := rfl

/-! ### aecRelease -/

@[simp] theorem aecRelease_clk (s : State) : (aecRelease s).clk = s.clk := rfl
@[simp] theorem aecRelease_pla (s : State) : (aecRelease s).pla = s.pla := rfl
@[simp] theorem aecRelease_rt (s : State) : (aecRelease s).rt = { s.rt with aec := false } := rfl
@[simp] theorem aecRelease_cpu (s : State) : (aecRelease s).cpu = s.cpu := rfl
@[simp] theorem aecRelease_fault (s : State) : (aecRelease s).fault = s.fault := rfl
@[simp] theorem aecRelease_hist (s : State) : (aecRelease s).hist = s.hist := rfl
@[simp] theorem aecRelease_ret (s : State) : (aecRelease s).ret = s.ret := rfl
@[simp] theorem aecRelease_params (s : State) : (aecRelease s).params = s.params := rfl
@[simp] theorem aecRelease_env (s : State) : (aecRelease s).env = s.env := rfl
@[simp] theorem aecRelease_inputs (s : State) : (aecRelease s).inputs = s.inputs := rfl
@[simp] theorem aecRelease_stepping (s : State) : (aecRelease s).stepping = s.stepping := rfl

/-! ### withInput -/

@[simp] theorem withInput_clk (s : State) (inp : Input) : (s.withInput inp).clk = s.clk := rfl
@[simp] theorem withInput_pla (s : State) (inp : Input) : (s.withInput inp).pla = s.pla := rfl
@[simp] theorem withInput_rt (s : State) (inp : Input) : (s.withInput inp).rt = s.rt := rfl
@[simp] theorem withInput_cpu (s : State) (inp : Input) : (s.withInput inp).cpu = s.cpu := rfl
@[simp] theorem withInput_fault (s : State) (inp : Input) : (s.withInput inp).fault = none := rfl
@[simp] theorem withInput_hist (s : State) (inp : Input) : (s.withInput inp).hist = s.hist := rfl
@[simp] theorem withInput_ret (s : State) (inp : Input) : (s.withInput inp).ret = s.ret := rfl
@[simp] theorem withInput_params (s : State) (inp : Input) : (s.withInput inp).params = s.params := rfl
@[simp] theorem withInput_env (s : State) (inp : Input) : (s.withInput inp).env = s.env := rfl
@[simp] theorem withInput_inputs (s : State) (inp : Input) : (s.withInput inp).inputs = inp :: s.inputs := rfl
@[simp] theorem withInput_stepping (s : State) (inp : Input) : (s.withInput inp).stepping = none := rfl

/-! ### Sequencing -/

@[simp] theorem andThen_live {s : State} (h : s.fault = none) (f : State → State) : s.andThen f = f s := by
  simp [State.andThen, h]

@[simp] theorem andThen_faulted {s : State} {c : FaultCode} (h : s.fault = some c) (f : State → State) :
    s.andThen f = s := by
  simp [State.andThen, h]

/-- What `andThen` can do. -/
theorem andThen_cases (s : State) (f : State → State) :
    (s.fault = none ∧ s.andThen f = f s) ∨ (s.fault ≠ none ∧ s.andThen f = s) := by
  cases h : s.fault with
  | none => exact .inl ⟨rfl, andThen_live h f⟩
  | some c => exact .inr ⟨by simp, andThen_faulted h f⟩

/-- A property of a state that `f` keeps in a live state is kept by `andThen f`. -/
theorem andThen_keeps {P : State → Prop} {s : State} {f : State → State} (hs : P s)
    (hf : s.fault = none → P s → P (f s)) : P (s.andThen f) := by
  obtain ⟨h, e⟩ | ⟨-, e⟩ := andThen_cases s f
  · rw [e]; exact hf h hs
  · rw [e]; exact hs

/-! ### The EventClock's records -/

@[simp] theorem time_setTime_same (c : Clk) (i : EventId) (t : Time) : (c.setTime i t).time i = t := by
  simp [Clk.time, Clk.setTime]

theorem time_setTime_ne (c : Clk) {i j : EventId} (t : Time) (h : j ≠ i) : (c.setTime i t).time j = c.time j := by
  have h' : (i.toFin : Nat) ≠ j.toFin := fun e => h (BitVec.eq_of_toNat_eq e.symm)
  simp only [Clk.time, Clk.setTime, Fin.getElem_fin]
  exact Vector.getElem_set_ne _ _ h'

@[simp] theorem setTime_pending (c : Clk) (i : EventId) (t : Time) : (c.setTime i t).pending = c.pending := rfl
@[simp] theorem setTime_now (c : Clk) (i : EventId) (t : Time) : (c.setTime i t).now = c.now := rfl
@[simp] theorem link_now (c : Clk) (i : EventId) (t : Time) (k : Nat) : (c.link i t k).now = c.now := rfl
@[simp] theorem link_pending (c : Clk) (i : EventId) (t : Time) (k : Nat) :
    (c.link i t k).pending = c.pending.take k ++ [i] ++ c.pending.drop k := rfl
@[simp] theorem link_time (c : Clk) (i j : EventId) (t : Time) (k : Nat) :
    (c.link i t k).time j = (c.setTime i t).time j := rfl
@[simp] theorem unlink_now (c : Clk) (i : EventId) : (c.unlink i).now = c.now := rfl
@[simp] theorem unlink_ev (c : Clk) (i : EventId) : (c.unlink i).ev = c.ev := rfl
@[simp] theorem unlink_time (c : Clk) (i j : EventId) : (c.unlink i).time j = c.time j := rfl
@[simp] theorem unlink_pending (c : Clk) (i : EventId) : (c.unlink i).pending = c.pending.erase i := rfl

theorem isPending_iff (c : Clk) (i : EventId) : c.isPending i = true ↔ i ∈ c.pending := by
  simp [Clk.isPending]

end Sys2Proof.Machine
end

