-- ==== Sys2Proof/Laws/Memory.lean ====
section
/-! SUPPORT. The simulator oracle's memory: a store is read back, other bytes are left alone, and the canonical form is kept. -/

namespace Sys2Proof.Machine

/-! ### Reading after a change -/

theorem memGet_insert_same (m : Memory) (k : Nat) (d : Byte) : memGet (memInsert m k d) k = some d := by
  induction m with
  | nil => simp [memInsert, memGet]
  | cons x m ih =>
    obtain ⟨k', d'⟩ := x
    by_cases h1 : k < k'
    · simp [memInsert, memGet, h1]
    · by_cases h2 : k = k'
      · simp [memInsert, memGet, h2]
      · have h3 : k' ≠ k := fun e => h2 e.symm
        simp [memInsert, memGet, h1, h2, h3, ih]

theorem memGet_insert_ne (m : Memory) {k j : Nat} (d : Byte) (h : j ≠ k) :
    memGet (memInsert m k d) j = memGet m j := by
  induction m with
  | nil => simp [memInsert, memGet, Ne.symm h]
  | cons x m ih =>
    obtain ⟨k', d'⟩ := x
    by_cases h1 : k < k'
    · simp [memInsert, memGet, h1, Ne.symm h]
    · by_cases h2 : k = k'
      · subst h2
        simp [memInsert, memGet, Ne.symm h]
      · simp only [memInsert, if_neg h1, if_neg h2, memGet, ih]

theorem memGet_erase_same (m : Memory) (k : Nat) : memGet (memErase m k) k = none := by
  induction m with
  | nil => simp [memErase, memGet]
  | cons x m ih =>
    obtain ⟨k', d'⟩ := x
    by_cases h : k' = k
    · simpa [memErase, h] using ih
    · simpa [memErase, memGet, h] using ih

theorem memGet_erase_ne (m : Memory) {k j : Nat} (h : j ≠ k) : memGet (memErase m k) j = memGet m j := by
  induction m with
  | nil => simp [memErase, memGet]
  | cons x m ih =>
    obtain ⟨k', d'⟩ := x
    by_cases h1 : k' = k
    · subst h1
      simpa [memErase, memGet, Ne.symm h] using ih
    · have hc : memErase ((k', d') :: m) k = (k', d') :: memErase m k := by simp [memErase, h1]
      rw [hc]
      simp only [memGet, ih]

/-! ### Keys -/

theorem cellKey_inj {h h' : Handler} {a a' : Addr} (e : cellKey h a = cellKey h' a') : h = h' ∧ a = a' := by
  have ha := a.isLt
  have ha' := a'.isLt
  unfold cellKey at e
  have hc : h.code = h'.code := by omega
  have haa : a.toNat = a'.toNat := by omega
  exact ⟨by cases h <;> cases h' <;> simp [Handler.code] at hc <;> rfl, BitVec.eq_of_toNat_eq haa⟩

theorem cellKey_lt (h : Handler) (a : Addr) : cellKey h a < 8 * 65536 := by
  have ha := a.isLt
  cases h <;> simp only [cellKey, Handler.code] <;> omega

theorem cellKey_ram_lt (a : Addr) : cellKey .ram a < 65536 := by
  have ha := a.isLt
  simp only [cellKey, Handler.code]
  omega

/-! ### One byte of the simulator oracle -/

@[simp] theorem store_calls (e : Env) (h : Handler) (a : Addr) (d : Byte) : (e.store h a d).calls = e.calls := by
  cases h <;> rfl

@[simp] theorem store_events (e : Env) (h : Handler) (a : Addr) (d : Byte) : (e.store h a d).events = e.events := by
  cases h <;> rfl

@[simp] theorem store_draws (e : Env) (h : Handler) (a : Addr) (d : Byte) : (e.store h a d).draws = e.draws := by
  cases h <;> rfl

@[simp] theorem store_drawCount (e : Env) (h : Handler) (a : Addr) (d : Byte) :
    (e.store h a d).drawCount = e.drawCount := by
  cases h <;> rfl

@[simp] theorem store_fill (e : Env) (h h' : Handler) (a : Addr) (d : Byte) :
    (e.store h a d).fill h' = e.fill h' := by
  cases h <;> cases h' <;> rfl

/-- What a byte of the simulator oracle reads as after a write (20_memory.md R75): only the written byte of `RAM` changes. -/
theorem peek_store (e : Env) (h h' : Handler) (a a' : Addr) (d : Byte) :
    (e.store h a d).peek h' a' = if h = .ram ∧ h' = .ram ∧ a' = a then some d else e.peek h' a' := by
  by_cases hr : h = .ram
  · subst hr
    by_cases hk : cellKey h' a' = cellKey .ram a
    · obtain ⟨rfl, rfl⟩ := cellKey_inj hk
      by_cases hf : e.ramFill = some d
      · simp [Env.store, Env.peek, memPut, hf, memGet_erase_same, Env.fill]
      · simp [Env.store, Env.peek, memPut, hf, memGet_insert_same]
    · have hne : ¬(Handler.ram = .ram ∧ h' = .ram ∧ a' = a) := by
        rintro ⟨-, rfl, rfl⟩
        exact hk rfl
      have hg : memGet (memPut e.ramFill e.cells (cellKey .ram a) d) (cellKey h' a') = memGet e.cells (cellKey h' a') := by
        unfold memPut
        split
        · exact memGet_erase_ne _ hk
        · exact memGet_insert_ne _ _ hk
      rw [if_neg hne]
      have hfill : (e.store .ram a d).fill h' = e.fill h' := store_fill e .ram h' a d
      simp only [Env.peek, hfill]
      simp only [Env.store, hg]
  · have : e.store h a d = e := by cases h <;> first | rfl | exact absurd rfl hr
    simp [this, hr]

/-! ### Canonical form -/

theorem memErase_mem {m : Memory} {k : Nat} {x : Host.Cell} (h : x ∈ memErase m k) : x ∈ m := by
  simp only [memErase, List.mem_filter] at h
  exact h.1

theorem memInsert_mem {m : Memory} {k : Nat} {d : Byte} {x : Host.Cell} (h : x ∈ memInsert m k d) :
    x = (k, d) ∨ x ∈ m := by
  induction m with
  | nil => simpa [memInsert] using h
  | cons y m ih =>
    obtain ⟨k', d'⟩ := y
    simp only [memInsert] at h
    split at h
    · simpa using h
    · split at h
      · rcases List.mem_cons.mp h with h | h
        · exact .inl h
        · exact .inr (List.mem_cons_of_mem _ h)
      · rcases List.mem_cons.mp h with h | h
        · exact .inr (by simp [h])
        · rcases ih h with h | h
          · exact .inl h
          · exact .inr (List.mem_cons_of_mem _ h)

theorem memErase_rising {m : Memory} (k : Nat) (h : m.Pairwise fun x y => x.1 < y.1) :
    (memErase m k).Pairwise fun x y => x.1 < y.1 :=
  h.sublist List.filter_sublist

theorem memInsert_rising {m : Memory} (k : Nat) (d : Byte) (h : m.Pairwise fun x y => x.1 < y.1) :
    (memInsert m k d).Pairwise fun x y => x.1 < y.1 := by
  induction m with
  | nil => simp [memInsert]
  | cons y m ih =>
    obtain ⟨k', d'⟩ := y
    obtain ⟨h1, h2⟩ := List.pairwise_cons.mp h
    simp only [memInsert]
    split
    · rename_i hlt
      refine List.pairwise_cons.mpr ⟨?_, h⟩
      intro x hx
      rcases List.mem_cons.mp hx with rfl | hx
      · exact hlt
      · exact Nat.lt_trans hlt (h1 x hx)
    · split
      · rename_i heq
        subst heq
        exact List.pairwise_cons.mpr ⟨h1, h2⟩
      · refine List.pairwise_cons.mpr ⟨?_, ih h2⟩
        intro x hx
        rcases memInsert_mem hx with rfl | hx
        · simp only
          omega
        · exact h1 x hx

theorem wf_iff (e : Env) : e.wf = true ↔
    (e.cells.Pairwise fun x y => x.1 < y.1) ∧ ∀ x ∈ e.cells, x.1 < 8 * 65536 ∧ e.fillAt x.1 ≠ some x.2 := by
  simp only [Env.wf, Bool.and_eq_true, decide_eq_true_eq, List.all_eq_true]

/-- Every write keeps the canonical form. -/
theorem store_keeps_wf {e : Env} (h : Handler) (a : Addr) (d : Byte) (hw : e.wf = true) : (e.store h a d).wf = true := by
  rw [wf_iff] at hw ⊢
  obtain ⟨hp, hx⟩ := hw
  by_cases hr : h = .ram
  · subst hr
    simp only [Env.store, memPut]
    by_cases hf : e.ramFill = some d
    · simp only [if_pos hf]
      refine ⟨memErase_rising _ hp, fun x hm => ?_⟩
      simpa [Env.fillAt] using hx x (memErase_mem hm)
    · simp only [if_neg hf]
      refine ⟨memInsert_rising _ _ hp, fun x hm => ?_⟩
      rcases memInsert_mem hm with rfl | hm
      · refine ⟨cellKey_lt _ _, ?_⟩
        simpa [Env.fillAt, cellKey_ram_lt] using hf
      · simpa [Env.fillAt] using hx x hm
  · have : e.store h a d = e := by cases h <;> first | rfl | exact absurd rfl hr
    rw [this]
    exact ⟨hp, hx⟩

theorem reset_memory_wf : State.reset.env.wf = true := by decide

end Sys2Proof.Machine
end

