-- ==== Sys2Proof/Laws/Ops.lean ====
section
/-! SUPPORT. What each shared operation can do, said once: the EventClock's list, the ROUTER's calls into the SEQ, handler calls and responses; and that the nesting depth of responses is never a limit. -/

namespace Sys2Proof.Machine

/-! ### The EventClock's list -/

/-- The clock after `ev[i]` is inserted with time `t` (40_clock.md R121). -/
def Clk.scheduled (c : Clk) (i : EventId) (t : Time) : Clk := c.link i t (c.insertPos t)

/-- What `schedule` can do (40_clock.md R121). -/
theorem schedule_cases (i : EventId) (c : Nat) (ph : Phase) (s : State) :
    (i ∈ s.clk.pending ∧ schedule i c ph s = raise .alreadyPending s) ∨
    (i ∉ s.clk.pending ∧ 2 ^ 64 ≤ triggerTime s.clk.now c ph ∧ schedule i c ph s = raise .timeOverflow s) ∨
    (i ∉ s.clk.pending ∧ triggerTime s.clk.now c ph < 2 ^ 64 ∧
      s.params.walkBound ≤ s.clk.insertPos (BitVec.ofNat 64 (triggerTime s.clk.now c ph)) ∧
      schedule i c ph s = raise .walkBound s) ∨
    (i ∉ s.clk.pending ∧ triggerTime s.clk.now c ph < 2 ^ 64 ∧
      s.clk.insertPos (BitVec.ofNat 64 (triggerTime s.clk.now c ph)) < s.params.walkBound ∧
      schedule i c ph s = { s with clk := s.clk.scheduled i (BitVec.ofNat 64 (triggerTime s.clk.now c ph)) }) := by
  unfold schedule
  by_cases h1 : s.clk.isPending i = true
  · exact .inl ⟨(isPending_iff _ _).mp h1, by simp [h1]⟩
  · have h1' : i ∉ s.clk.pending := fun h => h1 ((isPending_iff _ _).mpr h)
    by_cases h2 : Config.timeLimit ≤ triggerTime s.clk.now c ph
    · exact .inr (.inl ⟨h1', h2, by simp [h1, h2]⟩)
    · have h2' : triggerTime s.clk.now c ph < 2 ^ 64 := by
        simp only [Config.timeLimit] at h2
        omega
      by_cases h3 : s.params.walkBound ≤ s.clk.insertPos (BitVec.ofNat 64 (triggerTime s.clk.now c ph))
      · exact .inr (.inr (.inl ⟨h1', h2', h3, by simp [h1, h2, h3]⟩))
      · exact .inr (.inr (.inr ⟨h1', h2', by omega, by simp [h1, h2, h3, Clk.scheduled]⟩))

/-- What `cancelEvent` can do (40_clock.md R123). -/
theorem cancelEvent_cases (i : EventId) (s : State) :
    (i ∉ s.clk.pending ∧ cancelEvent i s = s) ∨
    (i ∈ s.clk.pending ∧ s.params.walkBound ≤ s.clk.pending.idxOf i ∧ cancelEvent i s = raise .walkBound s) ∨
    (i ∈ s.clk.pending ∧ s.clk.pending.idxOf i < s.params.walkBound ∧
      cancelEvent i s = { s with clk := s.clk.unlink i }) := by
  unfold cancelEvent
  by_cases h1 : s.clk.isPending i = true
  · have h1' := (isPending_iff _ _).mp h1
    by_cases h2 : s.params.walkBound ≤ s.clk.pending.idxOf i
    · exact .inr (.inl ⟨h1', h2, by simp [h1, h2]⟩)
    · exact .inr (.inr ⟨h1', by omega, by simp [h1, h2]⟩)
  · exact .inl ⟨fun h => h1 ((isPending_iff _ _).mpr h), by simp [h1]⟩

/-- The trigger time is never in the past and on the requested phase (30_encoding.md R93). -/
theorem triggerTime_ge (now : Time) (c : Nat) (ph : Phase) : 2 * c + now.toNat ≤ triggerTime now c ph := by
  simp [triggerTime]

theorem triggerTime_phi2_odd (now : Time) (c : Nat) : triggerTime now c .phi2 % 2 = 1 := by
  simp only [triggerTime, phaseAdjust]
  split <;> omega

/-- In a sorted list the events up to the insertion position are the ones not later (40_clock.md R122). -/
theorem countP_split {f : EventId → Time} (l : List EventId) (t : Time)
    (h : l.Pairwise fun i j => f i ≤ f j) :
    (∀ j ∈ l.take (l.countP fun j => decide (f j ≤ t)), f j ≤ t) ∧
    (∀ j ∈ l.drop (l.countP fun j => decide (f j ≤ t)), t < f j) := by
  induction l with
  | nil => simp
  | cons x l ih =>
    obtain ⟨h1, h2⟩ := List.pairwise_cons.mp h
    obtain ⟨ih1, ih2⟩ := ih h2
    by_cases hx : f x ≤ t
    · have hc : (x :: l).countP (fun j => decide (f j ≤ t)) = l.countP (fun j => decide (f j ≤ t)) + 1 := by
        simp [hx]
      rw [hc]
      refine ⟨?_, by simpa using ih2⟩
      intro j hj
      rcases List.mem_cons.mp (by simpa using hj) with rfl | hj
      · exact hx
      · exact ih1 j hj
    · have hxt : t < f x := BitVec.not_le.mp hx
      have hall : ∀ j ∈ l, t < f j := fun j hj => Nat.lt_of_lt_of_le hxt (h1 j hj)
      have h0 : (x :: l).countP (fun j => decide (f j ≤ t)) = 0 := by
        rw [List.countP_eq_zero]
        intro j hj
        rcases List.mem_cons.mp hj with rfl | hj
        · simpa using hx
        · simpa [BitVec.not_le] using hall j hj
      rw [h0]
      refine ⟨by simp, ?_⟩
      intro j hj
      rcases List.mem_cons.mp (by simpa using hj) with rfl | hj
      · exact hxt
      · exact hall j hj

/-! ### SETRDY, by case (43_sequencer.md R190) -/

/-- The level of the strategy in force is only copied. -/
theorem setRdy_same {level : Bool} {s : State} (h : modeOf level = s.cpu.mode) :
    setRdy level s = s.mapCpu fun c => { c with rdy := level } := if_pos h

/-- A switch while no tick is pending. -/
theorem setRdy_switches {level : Bool} {s : State} (h : modeOf level ≠ s.cpu.mode)
    (hp : s.cpu.mode.tick ∉ s.clk.pending) :
    setRdy level s = s.mapCpu fun c => { c with rdy := level, mode := modeOf level } := by
  have h1 : ¬s.clk.isPending s.cpu.mode.tick = true := fun g => hp ((isPending_iff _ _).mp g)
  exact (if_neg h).trans (if_neg h1)

/-- A switch that moves the pending tick. -/
theorem setRdy_moves {level : Bool} {s : State} (h : modeOf level ≠ s.cpu.mode)
    (hp : s.cpu.mode.tick ∈ s.clk.pending) :
    setRdy level s =
      (cancelEvent s.cpu.mode.tick (s.mapCpu fun c => { c with rdy := level, mode := modeOf level })).andThen fun s3 =>
        schedule (modeOf level).tick (((s.clk.time s.cpu.mode.tick).toNat - s3.clk.now.toNat) / 2) .phi2 s3 := by
  have h1 : s.clk.isPending s.cpu.mode.tick = true := (isPending_iff _ _).mpr hp
  exact (if_neg h).trans (if_pos h1)

/-! ### Scripted replies -/

theorem takeReply_length (k : CallKey) (rs : List CallReply) :
    ((takeReply k rs).1 = none ∧ (takeReply k rs).2 = rs) ∨
    ((takeReply k rs).1 ≠ none ∧ (takeReply k rs).2.length + 1 = rs.length) := by
  induction rs with
  | nil => simp [takeReply]
  | cons r rs ih =>
    by_cases h : r.key = k
    · simp [takeReply, h]
    · simp only [takeReply, if_neg h]
      rcases ih with ⟨h1, h2⟩ | ⟨h1, h2⟩
      · exact .inl ⟨h1, by rw [h2]⟩
      · exact .inr ⟨h1, by simp [h2]⟩

theorem takeReply_le (k : CallKey) (rs : List CallReply) : (takeReply k rs).2.length ≤ rs.length := by
  rcases takeReply_length k rs with ⟨-, h⟩ | ⟨-, h⟩
  · rw [h]
  · omega

theorem replyWords_none : replyWords none = [] := rfl

/-! ### What every external command keeps

A property of states that the primitive changes of external commands keep is kept by responses of any depth. -/

/-- The primitive changes out of which external commands are made. -/
structure ExternalKeeps (P : State → Prop) : Prop where
  fail : ∀ f s, P s → P (raise f s)
  calls : ∀ key s, P s → P (s.withCalls (takeReply key s.env.calls).2)
  store : ∀ h a d (s : State), P s →
    P { s with env := { s.env.store h a d with calls := (takeReply (.write h a) s.env.calls).2 } }
  record : ∀ e s, P s → P (s.record e)
  returns : ∀ d s, P s → P (s.returns d)
  sched : ∀ i c ph s, s.fault = none → P s → P (schedExternal i c ph s)
  cancel : ∀ i s, s.fault = none → P s → P (cancelExternal i s)
  port : ∀ l h c s, P s → P (setPort l h c s)
  gameExrom : ∀ g1 e1 g2 e2 s, P s → P (setGameExrom g1 e1 g2 e2 s)
  vicBase : ∀ n s, P s → P (setVicBase n s)
  dmaOverride : ∀ on s, P s → P (setDmaOverride on s)
  ba : ∀ b s, s.fault = none → P s → P (setBa b s)
  irq : ∀ b s, s.fault = none → P s → P (setIrq b s)
  nmi : ∀ b s, s.fault = none → P s → P (setNmi b s)

/-- Two properties kept, kept together. -/
theorem ExternalKeeps.and {P Q : State → Prop} (p : ExternalKeeps P) (q : ExternalKeeps Q) : ExternalKeeps fun s => P s ∧ Q s where
  fail f s h := ⟨p.fail f s h.1, q.fail f s h.2⟩
  calls f s h := ⟨p.calls f s h.1, q.calls f s h.2⟩
  store a b c s h := ⟨p.store a b c s h.1, q.store a b c s h.2⟩
  record f s h := ⟨p.record f s h.1, q.record f s h.2⟩
  returns f s h := ⟨p.returns f s h.1, q.returns f s h.2⟩
  sched a b c s hf h := ⟨p.sched a b c s hf h.1, q.sched a b c s hf h.2⟩
  cancel a s hf h := ⟨p.cancel a s hf h.1, q.cancel a s hf h.2⟩
  port a b c s h := ⟨p.port a b c s h.1, q.port a b c s h.2⟩
  gameExrom a b c d s h := ⟨p.gameExrom a b c d s h.1, q.gameExrom a b c d s h.2⟩
  vicBase f s h := ⟨p.vicBase f s h.1, q.vicBase f s h.2⟩
  dmaOverride f s h := ⟨p.dmaOverride f s h.1, q.dmaOverride f s h.2⟩
  ba a s hf h := ⟨p.ba a s hf h.1, q.ba a s hf h.2⟩
  irq a s hf h := ⟨p.irq a s hf h.1, q.irq a s hf h.2⟩
  nmi a s hf h := ⟨p.nmi a s hf h.1, q.nmi a s hf h.2⟩

/-- A responder that keeps `P`. -/
def ResponderKeeps (P : State → Prop) (resp : Responder) : Prop := ∀ ws s, P s → P (resp ws s)

theorem handlerRead_keeps {P : State → Prop} (k : ExternalKeeps P) {resp : Responder} (hr : ResponderKeeps P resp)
    (h : Handler) (a : Addr) (s : State) (hs : P s) : P (handlerRead resp h a s) := by
  simp only [handlerRead]
  exact andThen_keeps (hr _ _ (k.calls _ _ hs)) fun _ ht => k.record _ _ ht

theorem handlerWrite_keeps {P : State → Prop} (k : ExternalKeeps P) {resp : Responder} (hr : ResponderKeeps P resp)
    (h : Handler) (a : Addr) (d : Byte) (s : State) (hs : P s) : P (handlerWrite resp h a d s) := by
  simp only [handlerWrite]
  exact andThen_keeps (hr _ _ (k.store _ _ _ _ hs)) fun _ ht => k.record _ _ ht

theorem externalOp_keeps {P : State → Prop} (k : ExternalKeeps P) {resp : Responder} (hr : ResponderKeeps P resp)
    (i : Instr) (s : State) (hf : s.fault = none) (hs : P s) : P (externalOp resp i s) := by
  cases i with
  | sched ev cyc ph => exact k.sched _ _ _ _ hf hs
  | cancel ev => exact k.cancel _ _ hf hs
  | cpurd a => exact andThen_keeps (f := fun t => t.returns (cpuReadByte a s)) (handlerRead_keeps k hr _ _ _ hs) fun _ ht => k.returns _ _ ht
  | cpuwr a d => exact handlerWrite_keeps k hr _ _ _ _ hs
  | vicrd1 v => exact andThen_keeps (f := fun t => t.returns (vicReadByte v s)) (handlerRead_keeps k hr _ _ _ hs) fun _ ht => k.returns _ _ ht
  | vicrd2 v =>
    simp only [externalOp, vicrd2]
    split
    · exact k.returns _ _ hs
    · exact andThen_keeps (handlerRead_keeps k hr _ _ _ hs) fun _ ht => k.returns _ _ ht
  | setport l h c => exact k.port _ _ _ _ hs
  | setge g1 e1 g2 e2 => exact k.gameExrom _ _ _ _ _ hs
  | setvicbase n => exact k.vicBase _ _ hs
  | setdmaovr on => exact k.dmaOverride _ _ hs
  | setba b => exact k.ba _ _ hf hs
  | setirq b => exact k.irq _ _ hf hs
  | setnmi b => exact k.nmi _ _ hf hs
  | _ => exact hs

theorem collaboratorWord_keeps {P : State → Prop} (k : ExternalKeeps P) {resp : Responder} (hr : ResponderKeeps P resp)
    (w : CommandWord) (s : State) (hf : s.fault = none) (hs : P s) : P (collaboratorWord resp w s) := by
  unfold collaboratorWord
  split
  · exact k.fail _ _ hs
  · split
    · exact k.fail _ _ hs
    · exact externalOp_keeps k hr _ _ hf hs

theorem foldl_keeps {P : State → Prop} {f : CommandWord → State → State}
    (h : ∀ w s, s.fault = none → P s → P (f w s)) (ws : List CommandWord) (s : State) (hs : P s) :
    P (ws.foldl (fun t w => t.andThen (f w)) s) := by
  induction ws generalizing s with
  | nil => exact hs
  | cons w ws ih => exact ih _ (andThen_keeps hs fun hf ht => h w s hf ht)

/-- A response of any depth keeps what the primitive changes keep. -/
theorem respond_keeps {P : State → Prop} (k : ExternalKeeps P) (n : Nat) : ResponderKeeps P (respond n) := by
  induction n with
  | zero => exact fun ws s hs => foldl_keeps (fun w s hf => collaboratorWord_keeps k (fun _ _ h => h) w s hf) ws s hs
  | succ n ih => exact fun ws s hs => foldl_keeps (fun w s hf => collaboratorWord_keeps k ih w s hf) ws s hs

theorem responder_keeps {P : State → Prop} (k : ExternalKeeps P) (s : State) : ResponderKeeps P s.responder :=
  respond_keeps k _

theorem cpuRead_keeps {P : State → Prop} (k : ExternalKeeps P) {resp : Responder} (hr : ResponderKeeps P resp)
    (a : Addr) (s : State) (hs : P s) : P (cpuRead resp a s) :=
  handlerRead_keeps k hr _ _ _ hs

theorem cpuWrite_keeps {P : State → Prop} (k : ExternalKeeps P) {resp : Responder} (hr : ResponderKeeps P resp)
    (a : Addr) (d : Byte) (s : State) (hs : P s) : P (cpuWrite resp a d s) :=
  handlerWrite_keeps k hr _ _ _ _ hs

/-! ### The nesting depth is no limit -/

/-- How the responses met inside a response are run. -/
def innerResponder : Nat → Responder
  | 0 => fun _ u => u
  | n + 1 => respond n

theorem respond_eq (n : Nat) (ws : List CommandWord) (s : State) :
    respond n ws s = ws.foldl (fun t w => t.andThen (collaboratorWord (innerResponder n) w)) s := by
  cases n <;> rfl

@[simp] theorem respond_nil (n : Nat) (s : State) : respond n [] s = s := by
  cases n <;> rfl

theorem respond_cons (n : Nat) (w : CommandWord) (ws : List CommandWord) (s : State) :
    respond n (w :: ws) s = respond n ws (s.andThen (collaboratorWord (innerResponder n) w)) := by
  simp only [respond_eq, List.foldl_cons]

@[simp] theorem innerResponder_nil (n : Nat) (s : State) : innerResponder n [] s = s := by
  cases n <;> simp [innerResponder]

/-- Two responders that agree on no words, and on the states with fewer scripted replies than `s`. -/
def AgreeBelow (r r' : Responder) (n : Nat) : Prop :=
  (∀ s, r [] s = r' [] s) ∧ ∀ ws t, t.env.calls.length < n → r ws t = r' ws t

/-- A handler call takes its reply before it responds, so it needs its responder on smaller scripts only. -/
theorem reply_congr {r r' : Responder} {key : CallKey} {rs : List CallReply} {s : State}
    (h : AgreeBelow r r' rs.length) (hs : s.env.calls = (takeReply key rs).2) :
    r (replyWords (takeReply key rs).1) s = r' (replyWords (takeReply key rs).1) s := by
  rcases takeReply_length key rs with ⟨h1, -⟩ | ⟨-, h2⟩
  · rw [h1]
    exact h.1 s
  · exact h.2 _ _ (by rw [hs]; omega)

theorem handlerRead_congr {r r' : Responder} {s : State} (g : AgreeBelow r r' s.env.calls.length) (h : Handler)
    (a : Addr) : handlerRead r h a s = handlerRead r' h a s := by
  simp only [handlerRead]
  rw [reply_congr g rfl]

theorem handlerWrite_congr {r r' : Responder} {s : State} (g : AgreeBelow r r' s.env.calls.length) (h : Handler)
    (a : Addr) (d : Byte) : handlerWrite r h a d s = handlerWrite r' h a d s := by
  simp only [handlerWrite]
  rw [reply_congr g rfl]

theorem vicrd1_congr {r r' : Responder} {s : State} (g : AgreeBelow r r' s.env.calls.length) (v : VicAddr) :
    vicrd1 r v s = vicrd1 r' v s := by
  simp only [vicrd1, handlerRead_congr g]

theorem externalOp_congr {r r' : Responder} {s : State} (g : AgreeBelow r r' s.env.calls.length) (i : Instr) :
    externalOp r i s = externalOp r' i s := by
  cases i with
  | cpurd a => simp only [externalOp, cpurd, cpuRead, handlerRead_congr g]
  | cpuwr a d => exact handlerWrite_congr g _ _ _
  | vicrd1 v => exact vicrd1_congr g v
  | vicrd2 v => simp only [externalOp, vicrd2, vicrd1_congr g]
  | _ => rfl

theorem collaboratorWord_congr {r r' : Responder} {s : State} (g : AgreeBelow r r' s.env.calls.length)
    (w : CommandWord) : collaboratorWord r w s = collaboratorWord r' w s := by
  simp only [collaboratorWord, externalOp_congr g]

/-! #### No command lengthens the script -/

theorem schedule_env (i : EventId) (c : Nat) (ph : Phase) (s : State) : (schedule i c ph s).env = s.env := by
  rcases schedule_cases i c ph s with ⟨-, h⟩ | ⟨-, -, h⟩ | ⟨-, -, -, h⟩ | ⟨-, -, -, h⟩ <;> rw [h] <;> rfl

theorem cancelEvent_env (i : EventId) (s : State) : (cancelEvent i s).env = s.env := by
  rcases cancelEvent_cases i s with ⟨-, h⟩ | ⟨-, -, h⟩ | ⟨-, -, h⟩ <;> rw [h]
  rfl

theorem andThen_env {s : State} {f : State → State} (h : ∀ t, (f t).env = t.env) : (s.andThen f).env = s.env := by
  rcases andThen_cases s f with ⟨-, e⟩ | ⟨-, e⟩ <;> rw [e]
  exact h s

theorem setRdy_env (b : Bool) (s : State) : (setRdy b s).env = s.env := by
  simp only [setRdy]
  split
  · rfl
  · split
    · rw [andThen_env fun t => schedule_env _ _ _ t, cancelEvent_env]
      rfl
    · rfl

theorem followStall_env (b : Bool) (s : State) : (followStall b s).env = s.env := by
  simp only [followStall]
  split
  · rw [setRdy_env]
  · rfl

theorem setBa_env (b : Bool) (s : State) : (setBa b s).env = s.env := by
  simp only [setBa]
  split
  · rfl
  · rw [andThen_env, followStall_env]
    intro t
    split
    · rw [andThen_env, cancelEvent_env]
      exact fun _ => rfl
    · rw [schedule_env]

theorem setIrq_env (b : Bool) (s : State) : (setIrq b s).env = s.env := by
  simp only [setIrq]
  repeat' split
  all_goals rfl

theorem setNmi_env (b : Bool) (s : State) : (setNmi b s).env = s.env := by
  simp only [setNmi]
  repeat' split
  all_goals rfl

theorem schedExternal_env (i : EventId) (cyc : BitVec 16) (ph : Phase) (s : State) :
    (schedExternal i cyc ph s).env = s.env := by
  simp only [schedExternal]
  split
  · rfl
  · exact schedule_env _ _ _ _

theorem cancelExternal_env (i : EventId) (s : State) : (cancelExternal i s).env = s.env := by
  simp only [cancelExternal]
  split
  · rfl
  · exact cancelEvent_env _ _

/-- The script of call replies never grows. -/
theorem callsLength_keeps (n : Nat) : ExternalKeeps fun s => s.env.calls.length ≤ n where
  fail _ _ h := h
  calls key s h := Nat.le_trans (takeReply_le key s.env.calls) h
  store hd a _ s h := Nat.le_trans (takeReply_le (.write hd a) s.env.calls) h
  record _ _ h := h
  returns _ _ h := h
  sched i c ph s _ h := by rw [schedExternal_env]; exact h
  cancel i s _ h := by rw [cancelExternal_env]; exact h
  port _ _ _ _ h := h
  gameExrom _ _ _ _ _ h := h
  vicBase _ _ h := h
  dmaOverride _ _ h := h
  ba b s _ h := by rw [setBa_env]; exact h
  irq b s _ h := by rw [setIrq_env]; exact h
  nmi b s _ h := by rw [setNmi_env]; exact h

theorem innerResponder_keeps {P : State → Prop} (k : ExternalKeeps P) (n : Nat) :
    ResponderKeeps P (innerResponder n) := by
  cases n with
  | zero => exact fun _ _ h => h
  | succ n => exact respond_keeps k n

/-- Where the inner responders agree, the responders do. -/
theorem respond_agree {k m n : Nat}
    (g : ∀ ws t, t.env.calls.length < k → innerResponder m ws t = innerResponder n ws t) (ws : List CommandWord)
    (s : State) (hs : s.env.calls.length ≤ k) : respond m ws s = respond n ws s := by
  induction ws generalizing s with
  | nil => simp
  | cons w ws ih =>
    have hc : collaboratorWord (innerResponder m) w s = collaboratorWord (innerResponder n) w s :=
      collaboratorWord_congr ⟨by simp, fun ws t ht => g ws t (by omega)⟩ w
    have ha : s.andThen (collaboratorWord (innerResponder m) w) = s.andThen (collaboratorWord (innerResponder n) w) := by
      simp only [State.andThen, hc]
    rw [respond_cons, respond_cons, ha]
    refine ih _ (andThen_keeps (P := fun s => s.env.calls.length ≤ k) hs fun hf hk => ?_)
    exact collaboratorWord_keeps (callsLength_keeps k) (innerResponder_keeps (callsLength_keeps k) n) w s hf hk

/-- Any depth at least the number of scripted replies is deep enough: `State.responder` loses no response. -/
theorem respond_depth (k : Nat) : ∀ (m n : Nat), k ≤ m → k ≤ n → ∀ (ws : List CommandWord) (s : State),
    s.env.calls.length ≤ k → respond m ws s = respond n ws s := by
  induction k with
  | zero => exact fun m n hm hn => respond_agree fun ws t ht => absurd ht (Nat.not_lt_zero _)
  | succ k ih =>
    intro m n hm hn
    cases m with
    | zero => exact absurd hm (Nat.not_succ_le_zero k)
    | succ m =>
      cases n with
      | zero => exact absurd hn (Nat.not_succ_le_zero k)
      | succ n =>
        exact respond_agree fun ws t ht =>
          ih m n (Nat.le_of_succ_le_succ hm) (Nat.le_of_succ_le_succ hn) ws t (Nat.le_of_lt_succ ht)

end Sys2Proof.Machine
end

