-- ==== Sys2Proof/Laws/Frame.lean ====
section
/-! SUPPORT. What the shared operations leave alone, said once: `ExternalFrame` for every command a collaborator may issue, and so for every handler call and every response. -/

namespace Sys2Proof.Machine

theorem ExternalFrame.refl (s : State) : ExternalFrame s s :=
  { regs := rfl, cc := rfl, deliver := rfl, rstFlag := rfl, nmiLatch := id, now := rfl, params := rfl, inputs := rfl,
    stepping := rfl, history := List.prefix_rfl, events := rfl, draws := rfl, drawCount := rfl, ramFill := rfl,
    otherFill := rfl }

theorem ExternalFrame.trans {s t u : State} (h : ExternalFrame s t) (g : ExternalFrame t u) : ExternalFrame s u :=
  { regs := g.regs.trans h.regs
    cc := g.cc.trans h.cc
    deliver := g.deliver.trans h.deliver
    rstFlag := g.rstFlag.trans h.rstFlag
    nmiLatch := fun x => g.nmiLatch (h.nmiLatch x)
    now := g.now.trans h.now
    params := g.params.trans h.params
    inputs := g.inputs.trans h.inputs
    stepping := g.stepping.trans h.stepping
    history := h.history.trans g.history
    events := g.events.trans h.events
    draws := g.draws.trans h.draws
    drawCount := g.drawCount.trans h.drawCount
    ramFill := g.ramFill.trans h.ramFill
    otherFill := g.otherFill.trans h.otherFill }

theorem ExternalFrame.after {s t u : State} (g : ExternalFrame t u) (h : ExternalFrame s t) : ExternalFrame s u :=
  h.trans g

theorem ExternalFrame.andThen {s t : State} {f : State → State} (h : ExternalFrame s t)
    (g : ExternalFrame t (f t)) : ExternalFrame s (t.andThen f) := by
  rcases andThen_cases t f with ⟨-, e⟩ | ⟨-, e⟩ <;> rw [e]
  · exact h.trans g
  · exact h

/-- A change that leaves the frame's fields alone. -/
theorem ExternalFrame.of_eq {s t : State} (hc : t.cpu.regs = s.cpu.regs ∧ t.cpu.cc = s.cpu.cc ∧
    t.cpu.deliver = s.cpu.deliver ∧ t.cpu.rstFlag = s.cpu.rstFlag ∧ (s.cpu.nmiFlag = true → t.cpu.nmiFlag = true))
    (hn : t.clk.now = s.clk.now) (hp : t.params = s.params) (hi : t.inputs = s.inputs)
    (hs : t.stepping = s.stepping) (hh : t.hist = s.hist) (he : t.env = s.env) : ExternalFrame s t :=
  { regs := hc.1, cc := hc.2.1, deliver := hc.2.2.1, rstFlag := hc.2.2.2.1, nmiLatch := hc.2.2.2.2, now := hn,
    params := hp, inputs := hi, stepping := hs, history := by rw [hh], events := by rw [he], draws := by rw [he],
    drawCount := by rw [he], ramFill := by rw [he], otherFill := by rw [he] }

theorem schedule_frame (i : EventId) (c : Nat) (ph : Phase) (s : State) : ExternalFrame s (schedule i c ph s) := by
  rcases schedule_cases i c ph s with ⟨-, h⟩ | ⟨-, -, h⟩ | ⟨-, -, -, h⟩ | ⟨-, -, -, h⟩ <;> rw [h] <;>
    exact .of_eq ⟨rfl, rfl, rfl, rfl, id⟩ rfl rfl rfl rfl rfl rfl

theorem cancelEvent_frame (i : EventId) (s : State) : ExternalFrame s (cancelEvent i s) := by
  rcases cancelEvent_cases i s with ⟨-, h⟩ | ⟨-, -, h⟩ | ⟨-, -, h⟩ <;> rw [h] <;>
    exact .of_eq ⟨rfl, rfl, rfl, rfl, id⟩ rfl rfl rfl rfl rfl rfl

theorem setRdy_frame (b : Bool) (s : State) : ExternalFrame s (setRdy b s) := by
  simp only [setRdy]
  split
  · exact .of_eq ⟨rfl, rfl, rfl, rfl, id⟩ rfl rfl rfl rfl rfl rfl
  · refine ExternalFrame.trans (t := (s.mapCpu fun c => { c with rdy := b }).mapCpu fun c => { c with mode := modeOf b })
      (.of_eq ⟨rfl, rfl, rfl, rfl, id⟩ rfl rfl rfl rfl rfl rfl) ?_
    split
    · exact ExternalFrame.andThen (cancelEvent_frame _ _) (schedule_frame _ _ _ _)
    · exact .refl _

theorem followStall_frame (b : Bool) (s : State) : ExternalFrame s (followStall b s) := by
  simp only [followStall]
  split
  · exact ExternalFrame.after (setRdy_frame _ _) (.of_eq ⟨rfl, rfl, rfl, rfl, id⟩ rfl rfl rfl rfl rfl rfl)
  · exact .refl _

theorem setBa_frame (b : Bool) (s : State) : ExternalFrame s (setBa b s) := by
  simp only [setBa]
  split
  · exact .refl _
  · refine ExternalFrame.andThen (ExternalFrame.after (followStall_frame _ _)
      (.of_eq ⟨rfl, rfl, rfl, rfl, id⟩ rfl rfl rfl rfl rfl rfl)) ?_
    split
    · exact ExternalFrame.andThen (cancelEvent_frame _ _) (.of_eq ⟨rfl, rfl, rfl, rfl, id⟩ rfl rfl rfl rfl rfl rfl)
    · exact schedule_frame _ _ _ _

theorem calcTrigger_fields (c : Cpu) : c.calcTrigger.regs = c.regs ∧ c.calcTrigger.cc = c.cc ∧
    c.calcTrigger.deliver = c.deliver ∧ c.calcTrigger.rstFlag = c.rstFlag ∧ c.calcTrigger.nmiFlag = c.nmiFlag ∧
    c.calcTrigger.irqPin = c.irqPin ∧ c.calcTrigger.rdy = c.rdy ∧ c.calcTrigger.mode = c.mode := by
  obtain ⟨-, -, i, -⟩ := c
  cases i <;> exact ⟨rfl, rfl, rfl, rfl, rfl, rfl, rfl, rfl⟩

theorem trigIrq_frame (s : State) : ExternalFrame s (trigIrq s) := by
  obtain ⟨h1, h2, h3, h4, h5, -⟩ := calcTrigger_fields { s.cpu with irqPin := true }
  exact .of_eq ⟨h1, h2, h3, h4, fun h => h5.trans h⟩ rfl rfl rfl rfl rfl rfl

theorem trigNmi_frame (s : State) : ExternalFrame s (trigNmi s) := by
  obtain ⟨h1, h2, h3, h4, h5, -⟩ := calcTrigger_fields { s.cpu with nmiFlag := true }
  exact .of_eq ⟨h1, h2, h3, h4, fun _ => h5⟩ rfl rfl rfl rfl rfl rfl

theorem setIrq_frame (b : Bool) (s : State) : ExternalFrame s (setIrq b s) := by
  simp only [setIrq]
  repeat' split
  · exact ExternalFrame.after (trigIrq_frame _) (.of_eq ⟨rfl, rfl, rfl, rfl, id⟩ rfl rfl rfl rfl rfl rfl)
  all_goals exact .of_eq ⟨rfl, rfl, rfl, rfl, id⟩ rfl rfl rfl rfl rfl rfl

theorem setNmi_frame (b : Bool) (s : State) : ExternalFrame s (setNmi b s) := by
  simp only [setNmi]
  repeat' split
  · exact ExternalFrame.after (trigNmi_frame _) (.of_eq ⟨rfl, rfl, rfl, rfl, id⟩ rfl rfl rfl rfl rfl rfl)
  all_goals exact .of_eq ⟨rfl, rfl, rfl, rfl, id⟩ rfl rfl rfl rfl rfl rfl

/-- The frame is kept by every primitive change of external commands. -/
theorem externalFrame_keeps (s : State) : ExternalKeeps (ExternalFrame s) where
  fail _ _ h := h.trans (.of_eq ⟨rfl, rfl, rfl, rfl, id⟩ rfl rfl rfl rfl rfl rfl)
  calls _ t h := h.trans
    { regs := rfl, cc := rfl, deliver := rfl, rstFlag := rfl, nmiLatch := id, now := rfl, params := rfl, inputs := rfl,
      stepping := rfl, history := List.prefix_rfl, events := rfl, draws := rfl, drawCount := rfl, ramFill := rfl,
      otherFill := rfl }
  store hd a d t h := h.trans
    { regs := rfl, cc := rfl, deliver := rfl, rstFlag := rfl, nmiLatch := id, now := rfl, params := rfl, inputs := rfl,
      stepping := rfl, history := List.prefix_rfl, events := store_events _ _ _ _, draws := store_draws _ _ _ _,
      drawCount := store_drawCount _ _ _ _, ramFill := store_fill t.env hd .ram a d,
      otherFill := store_fill t.env hd .io a d }
  record e t h := h.trans
    { regs := rfl, cc := rfl, deliver := rfl, rstFlag := rfl, nmiLatch := id, now := rfl, params := rfl, inputs := rfl,
      stepping := rfl, history := List.prefix_append _ _, events := rfl, draws := rfl, drawCount := rfl, ramFill := rfl,
      otherFill := rfl }
  returns _ _ h := h.trans (.of_eq ⟨rfl, rfl, rfl, rfl, id⟩ rfl rfl rfl rfl rfl rfl)
  sched i c ph t _ h := h.trans (by
    simp only [schedExternal]
    split
    · exact .of_eq ⟨rfl, rfl, rfl, rfl, id⟩ rfl rfl rfl rfl rfl rfl
    · exact schedule_frame _ _ _ _)
  cancel i t _ h := h.trans (by
    simp only [cancelExternal]
    split
    · exact .of_eq ⟨rfl, rfl, rfl, rfl, id⟩ rfl rfl rfl rfl rfl rfl
    · exact cancelEvent_frame _ _)
  port _ _ _ _ h := h.trans (.of_eq ⟨rfl, rfl, rfl, rfl, id⟩ rfl rfl rfl rfl rfl rfl)
  gameExrom _ _ _ _ _ h := h.trans (.of_eq ⟨rfl, rfl, rfl, rfl, id⟩ rfl rfl rfl rfl rfl rfl)
  vicBase _ _ h := h.trans (.of_eq ⟨rfl, rfl, rfl, rfl, id⟩ rfl rfl rfl rfl rfl rfl)
  dmaOverride _ _ h := h.trans (.of_eq ⟨rfl, rfl, rfl, rfl, id⟩ rfl rfl rfl rfl rfl rfl)
  ba b t _ h := h.trans (setBa_frame b t)
  irq b t _ h := h.trans (setIrq_frame b t)
  nmi b t _ h := h.trans (setNmi_frame b t)

theorem externalOp_frame (n : Nat) (i : Instr) (s : State) (hf : s.fault = none) :
    ExternalFrame s (externalOp (respond n) i s) :=
  externalOp_keeps (externalFrame_keeps s) (respond_keeps (externalFrame_keeps s) n) i s hf (.refl s)

theorem responder_frame (n : Nat) (ws : List CommandWord) (s : State) : ExternalFrame s (respond n ws s) :=
  respond_keeps (externalFrame_keeps s) n ws s (.refl s)

theorem cpuRead_frame (n : Nat) (a : Addr) (s : State) : ExternalFrame s (cpuRead (respond n) a s) :=
  cpuRead_keeps (externalFrame_keeps s) (respond_keeps (externalFrame_keeps s) n) a s (.refl s)

theorem cpuWrite_frame (n : Nat) (a : Addr) (d : Byte) (s : State) : ExternalFrame s (cpuWrite (respond n) a d s) :=
  cpuWrite_keeps (externalFrame_keeps s) (respond_keeps (externalFrame_keeps s) n) a d s (.refl s)

/-! ### Silent handlers -/

/-- A read whose handler issues no command. -/
theorem handlerRead_silent (n : Nat) (h : Handler) (a : Addr) (s : State) (hf : s.fault = none)
    (hw : replyWords (takeReply (.read h a) s.env.calls).1 = []) :
    handlerRead (respond n) h a s =
      (s.withCalls (takeReply (.read h a) s.env.calls).2).record (.read h a (readAnswer h a s)) := by
  simp only [handlerRead, hw, respond_nil]
  rw [andThen_live]
  exact hf

/-- A write whose handler issues no command. -/
theorem handlerWrite_silent (n : Nat) (h : Handler) (a : Addr) (d : Byte) (s : State) (hf : s.fault = none)
    (hw : replyWords (takeReply (.write h a) s.env.calls).1 = []) :
    handlerWrite (respond n) h a d s =
      { s with
        env := { s.env.store h a d with calls := (takeReply (.write h a) s.env.calls).2 }
        hist := s.hist ++ [.write h a d] } := by
  simp only [handlerWrite, hw, respond_nil]
  rw [andThen_live]
  · rfl
  · exact hf

/-- With no scripted reply, a read only appends its record. -/
theorem cpuRead_quiet (n : Nat) (a : Addr) (s : State) (hf : s.fault = none) (hc : s.env.calls = []) :
    cpuRead (respond n) a s = s.record (.read (s.pla.readHandler a) a (cpuReadByte a s)) := by
  have h := handlerRead_silent n (s.pla.readHandler a) a s hf (by rw [hc]; rfl)
  rw [show (takeReply (.read (s.pla.readHandler a) a) s.env.calls).2 = s.env.calls by rw [hc]; rfl] at h
  exact h

/-! ### Micro-ops -/

/-- What a tick does with `Next`, outside slot 7. -/
theorem settle_next {s : State} (h : (slotSub s.cpu.cc).toNat ≠ 7) :
    settle .next s = s.mapCpu fun c => { c with cc := c.cc + 1 } := by
  simp [settle, h]

@[simp] theorem settle_jump (n : Slot) (s : State) : settle (.jump n) s = s.mapCpu fun c => { c with cc := n } := rfl

@[simp] theorem settle_unmodelled (s : State) : settle .unmodelled s = raise .microOpUnmodelled s := rfl

end Sys2Proof.Machine
end

