-- ==== Sys2Proof/Laws/Micro.lean ====
section
/-! SUPPORT. What one slot does, by the shape of its micro-op: no access, a read, a write; and which micro-op a slot of a named opcode is. -/

namespace Sys2Proof.Machine

/-! ### Slot indices -/

@[simp] theorem slotOpcode_slotOf (b : Byte) (sub : BitVec 3) : slotOpcode (slotOf b sub) = b := by
  revert b sub
  decide

@[simp] theorem slotSub_slotOf (b : Byte) (sub : BitVec 3) : slotSub (slotOf b sub) = sub := by
  revert b sub
  decide

/-- A slot index is its opcode and its subcycle (30_encoding.md R90). -/
theorem slotOf_parts (cc : Slot) : slotOf (slotOpcode cc) (slotSub cc) = cc := by
  revert cc
  decide

/-- The next slot of the same sequence, outside slot 7. -/
theorem slotOf_succ (b : Byte) (sub : BitVec 3) (h : sub.toNat ≠ 7) : slotOf b sub + 1 = slotOf b (sub + 1) := by
  revert b sub
  decide

/-- The stack address as a sum (20_memory.md R74). -/
theorem stackAddr_eq (sp : Byte) : stackAddr sp = 0x0100 + sp.setWidth 16 := by
  revert sp
  decide

/-! ### The parts of a bus access that do not look at the CPU -/

@[simp] theorem cpuReadByte_cpu (a : Addr) (s : State) (c : Cpu) : cpuReadByte a { s with cpu := c } = cpuReadByte a s :=
  rfl

@[simp] theorem responder_cpu (s : State) (c : Cpu) : State.responder { s with cpu := c } = s.responder := rfl

/-- After a read, a continuation may use that the read left the CPU's registers, place and delivery flag alone. -/
theorem cpuRead_andThen_congr {s : State} {a : Addr} {f g : State → State}
    (h : ∀ t, ExternalFrame s t → f t = g t) (n : Nat) :
    (cpuRead (respond n) a s).andThen f = (cpuRead (respond n) a s).andThen g := by
  simp only [State.andThen, h _ (cpuRead_frame n a s)]

/-- After a write, the same. -/
theorem cpuWrite_andThen_congr {s : State} {a : Addr} {d : Byte} {f g : State → State}
    (h : ∀ t, ExternalFrame s t → f t = g t) (n : Nat) :
    (cpuWrite (respond n) a d s).andThen f = (cpuWrite (respond n) a d s).andThen g := by
  simp only [State.andThen, h _ (cpuWrite_frame n a d s)]

/-! ### Plans -/

/-- A slot that reads and goes on: the registers become `f` of the byte read and the registers before. -/
theorem runPlan_read_next (c : Cpu) (a : Addr) (f : Byte → Regs → Regs) (s : State) (h : (slotSub c.cc).toNat ≠ 7) :
    runPlan (.read c a fun c' d => (c'.mapRegs (f d), .next)) s =
      (cpuRead s.responder a { s with cpu := c }).andThen fun t =>
        t.ran (c.cc + 1) (f (cpuReadByte a s) c.regs) := by
  refine cpuRead_andThen_congr (s := { s with cpu := c })
    (f := fun t => afterAccess (t.cpu.mapRegs (f (cpuReadByte a s)), .next) t) (fun t g => ?_) s.env.calls.length
  have hcc : t.cpu.cc = c.cc := g.cc
  have hr : t.cpu.regs = c.regs := g.regs
  simp only [afterAccess]
  rw [settle_next (by simpa only [Cpu.mapRegs, hcc] using h)]
  simp only [State.mapCpu, State.ran, Cpu.mapRegs, hcc, hr]

/-- A slot that writes and goes on. -/
theorem runPlan_write_next (c : Cpu) (a : Addr) (d : Byte) (f : Regs → Regs) (s : State)
    (h : (slotSub c.cc).toNat ≠ 7) :
    runPlan (.write c a d fun c' => (c'.mapRegs f, .next)) s =
      (cpuWrite s.responder a d { s with cpu := c }).andThen fun t => t.ran (c.cc + 1) (f c.regs) := by
  refine cpuWrite_andThen_congr (s := { s with cpu := c })
    (f := fun t => afterAccess (t.cpu.mapRegs f, .next) t) (fun t g => ?_) s.env.calls.length
  have hcc : t.cpu.cc = c.cc := g.cc
  have hr : t.cpu.regs = c.regs := g.regs
  simp only [afterAccess]
  rw [settle_next (by simpa only [Cpu.mapRegs, hcc] using h)]
  simp only [State.mapCpu, State.ran, Cpu.mapRegs, hcc, hr]

/-- A slot without an access. -/
@[simp] theorem runPlan_done (c : Cpu) (r : MicroResult) (s : State) :
    runPlan (.done c r) s = settle r { s with cpu := c } := rfl

/-! ### The slot of an opcode -/

/-- At a slot of its own sequence, an opcode's meaning is `ExecSlot`. -/
theorem opcodeSlot_at {o : Byte} {k : BitVec 3} {s : State} (h : s.cpu.cc = slotOf o k) : opcodeSlot o s = execSlot s := by
  have e : (s.mapCpu fun c => { c with cc := slotOf o (slotSub c.cc) }) = s := by
    obtain ⟨_, _, _, ⟨_, _, _, _, _, _, _, _, _, _⟩, _, _, _, _, _, _, _⟩ := s
    simp only at h
    subst h
    simp [State.mapCpu]
  simp only [opcodeSlot, e]

/-- `ExecSlot` at a slot of opcode `o`. -/
theorem execSlot_at {o : Byte} {k : BitVec 3} {s : State} (h : s.cpu.cc = slotOf o k) :
    execSlot s = runPlan (slotOp s.params (slotOf o k) s.params s.cpu) s := by
  simp only [execSlot, h]

@[simp] theorem slotOp_ldaImm (p : Params) (k : BitVec 3) : slotOp p (slotOf 0xA9 k) = ldaSlots k := by
  simp [slotOp, decodeOpcode]

@[simp] theorem slotOp_brk (p : Params) (k : BitVec 3) : slotOp p (slotOf 0x00 k) = brkSlots k := by
  simp [slotOp, decodeOpcode]

@[simp] theorem slotOp_jsrAbs (p : Params) (k : BitVec 3) : slotOp p (slotOf 0x20 k) = jsrSlots k := by
  simp [slotOp, decodeOpcode]

@[simp] theorem slotOp_rts (p : Params) (k : BitVec 3) : slotOp p (slotOf 0x60 k) = rtsSlots k := by
  simp [slotOp, decodeOpcode]

@[simp] theorem slotOp_nop (p : Params) (k : BitVec 3) : slotOp p (slotOf 0xEA k) = nopSlots k := by
  simp [slotOp, decodeOpcode]

@[simp] theorem slotOp_rti (p : Params) (k : BitVec 3) : slotOp p (slotOf 0x40 k) = rtiSlots k := by
  simp [slotOp, decodeOpcode]

/-- The slots of the eight branches. -/
theorem slotOp_branch {i : Instr} {b : Byte} (h : (i, b) ∈ branchBytes) (p : Params) (k : BitVec 3) :
    slotOp p (slotOf b k) = branchSlots k := by
  have each : ∀ x ∈ branchBytes, slotOp p (slotOf x.2 k) = branchSlots k := by
    intro x hx
    simp only [slotOp, slotOpcode_slotOf, slotSub_slotOf]
    revert x
    simp [branchBytes, decodeOpcode]
  exact each (i, b) h

/-- The finish slot of a named opcode holds the shared finish micro-op (R184 (d)). -/
theorem slotOp_finishSlot {i : Instr} {b : Byte} {k : BitVec 3} (h : (i, b, k) ∈ finishSlots) (p : Params) :
    slotOp p (slotOf b k) = finish := by
  have each : ∀ x ∈ finishSlots, slotOp p (slotOf x.2.1 x.2.2) = finish := by
    intro x hx
    simp only [slotOp, slotOpcode_slotOf, slotSub_slotOf]
    revert x
    simp [finishSlots, decodeOpcode, ldaSlots, brkSlots, jsrSlots, rtsSlots, nopSlots, rtiSlots, branchSlots]
  exact each (i, b, k) h

/-- A slot of an opcode of the open table (R184, R212). -/
theorem slotOp_open {b : Byte} {r : Reject} {p : Params} (h : decodeOpcode b = .error r) (hu : b ∉ p.unmodelled)
    (k : BitVec 3) : slotOp p (slotOf b k) = openSlots b k := by
  simp [slotOp, h, hu]

/-! ### The meaning of an opcode -/

theorem exec_ldaImm {s : State} (h : s.fault = none) : exec .ldaImm s = .next (opcodeSlot 0xA9 s) := by
  simp [exec, execLdaImm, runCommand, h]

theorem exec_brk {s : State} (h : s.fault = none) : exec .brk s = .next (opcodeSlot 0x00 s) := by
  simp [exec, execBrk, runCommand, h]

theorem exec_jsrAbs {s : State} (h : s.fault = none) : exec .jsrAbs s = .next (opcodeSlot 0x20 s) := by
  simp [exec, execJsrAbs, runCommand, h]

theorem exec_rts {s : State} (h : s.fault = none) : exec .rts s = .next (opcodeSlot 0x60 s) := by
  simp [exec, execRts, runCommand, h]

theorem exec_nop {s : State} (h : s.fault = none) : exec .nop s = .next (opcodeSlot 0xEA s) := by
  simp [exec, execNop, runCommand, h]

theorem exec_rti {s : State} (h : s.fault = none) : exec .rti s = .next (opcodeSlot 0x40 s) := by
  simp [exec, execRti, runCommand, h]

theorem exec_branch {i : Instr} {b : Byte} (hm : (i, b) ∈ branchBytes) {s : State} (h : s.fault = none) :
    exec i s = .next (opcodeSlot b s) := by
  have each : ∀ x ∈ branchBytes, exec x.1 s = .next (opcodeSlot x.2 s) := by
    simp [branchBytes, exec, execBpl, execBmi, execBvc, execBvs, execBcc, execBcs, execBne, execBeq, runCommand, h]
  exact each _ hm

/-- Every opcode with a finish slot means one slot of its sequence. -/
theorem exec_finishing {i : Instr} {b : Byte} {k : BitVec 3} (hm : (i, b, k) ∈ finishSlots) {s : State}
    (h : s.fault = none) : exec i s = .next (opcodeSlot b s) := by
  have each : ∀ x ∈ finishSlots, exec x.1 s = .next (opcodeSlot x.2.1 s) := by
    simp [finishSlots, exec, execLdaImm, execBrk, execJsrAbs, execRts, execNop, execRti, execBpl, execBmi, execBvc, execBvs,
      execBcc, execBcs, execBne, execBeq, runCommand, h]
  exact each _ hm

/-- A reading slot of an opcode, by what its micro-op is. -/
theorem opcodeSlot_read {o : Byte} {k : BitVec 3} {s : State} (hc : s.cpu.cc = slotOf o k) (hk : k.toNat ≠ 7)
    (c : Cpu) (hcc : c.cc = s.cpu.cc) (a : Addr) (f : Byte → Regs → Regs)
    (e : slotOp s.params (slotOf o k) s.params s.cpu = .read c a fun c' d => (c'.mapRegs (f d), .next)) :
    opcodeSlot o s = (cpuRead s.responder a { s with cpu := c }).andThen fun t =>
      t.ran (slotOf o (k + 1)) (f (cpuReadByte a s) c.regs) := by
  rw [opcodeSlot_at hc, execSlot_at hc, e, runPlan_read_next _ _ _ _ (by rw [hcc, hc]; simpa using hk), hcc, hc,
    slotOf_succ _ _ hk]

/-- A storing slot of an opcode, by what its micro-op is. -/
theorem opcodeSlot_write {o : Byte} {k : BitVec 3} {s : State} (hc : s.cpu.cc = slotOf o k) (hk : k.toNat ≠ 7)
    (c : Cpu) (hcc : c.cc = s.cpu.cc) (a : Addr) (d : Byte) (f : Regs → Regs)
    (e : slotOp s.params (slotOf o k) s.params s.cpu = .write c a d fun c' => (c'.mapRegs f, .next)) :
    opcodeSlot o s = (cpuWrite s.responder a d { s with cpu := c }).andThen fun t =>
      t.ran (slotOf o (k + 1)) (f c.regs) := by
  rw [opcodeSlot_at hc, execSlot_at hc, e, runPlan_write_next _ _ _ _ _ (by rw [hcc, hc]; simpa using hk), hcc, hc,
    slotOf_succ _ _ hk]

/-! ### The finish micro-op -/

/-- The two halves of the finish micro-op's re-evaluation, together (43_sequencer.md R192). -/
theorem finish_reevaluates (c : Cpu) : c.dropUndeliverable.rearm = c.reevaluated := by
  obtain ⟨r, cc, ic, nf, rf, ip, rd, m, d, ie⟩ := c
  cases ic
  · simp only [Cpu.dropUndeliverable, Cpu.rearm, Cpu.reevaluated, Cpu.calcTrigger]
    simp
  · simp only [Cpu.dropUndeliverable, Cpu.rearm, Cpu.reevaluated, Cpu.calcTrigger]
    split <;> simp_all [Cpu.deliverable]
  · simp only [Cpu.dropUndeliverable, Cpu.rearm, Cpu.reevaluated, Cpu.calcTrigger]
    simp

/-- When an interrupt is due (60_exceptions.md R225). -/
theorem due_iff (p : Params) (c : Cpu) : due p c = true ↔
    ∃ n, c.intCycle = .pendingAt n ∧ c.deliverable = true ∧
      (n.toNat + 2 < c.cc.toNat ∨ (c.intEarlier = true ∧ p.interruptCarry = .elapsed)) := by
  simp only [due]
  cases h : c.intCycle <;> simp

/-- The re-evaluation leaves the place in the table and the registers. -/
theorem reevaluated_fields (c : Cpu) : c.reevaluated.cc = c.cc ∧ c.reevaluated.regs = c.regs := by
  simp only [Cpu.reevaluated]; split <;> (try split) <;> exact ⟨rfl, rfl⟩

/-- The re-evaluation does not change whether an interrupt is due (60_exceptions.md R225). -/
theorem due_reevaluated (p : Params) (c : Cpu) : due p c.reevaluated = due p c := by
  obtain ⟨r, cc, ic, nf, rf, ip, rd, m, d, ie⟩ := c
  cases ic with
  | none =>
    simp only [Cpu.reevaluated]
    split
    · simp [due]
    · rfl
  | inProgress => rfl
  | pendingAt n =>
    simp only [Cpu.reevaluated]
    split
    · rfl
    · rename_i h
      rw [Bool.not_eq_true] at h
      simp only [due, h, Bool.false_and]

/-- After the same-page deferral no interrupt is due (43_sequencer.md R203). -/
theorem due_deferQuirkSamePage (p : Params) (c : Cpu) : due p (c.deferQuirkSamePage p) = false := by
  simp only [Cpu.deferQuirkSamePage]
  split
  · simp [due]
  · rename_i h
    simpa using h

/-- A finish micro-op that is not due fetches (43_sequencer.md R192). -/
theorem runPlan_finish_fetches (c : Cpu) (s : State) (hd : due s.params c = false) :
    runPlan (finish s.params c) s =
      (cpuRead s.responder c.regs.pc { s with cpu := c.reevaluated }).andThen fun t =>
        { t with
          cpu := { t.cpu with
            cc := slotOf (cpuReadByte c.regs.pc s) 0
            regs := { c.regs with pc := c.regs.pc + 1 }
            deliver := false
            intEarlier := t.cpu.pointPending || t.cpu.intEarlier } } := by
  have e1 := (reevaluated_fields c).2
  rw [← due_reevaluated] at hd
  simp only [finish, finish_reevaluates, hd, Bool.false_eq_true, if_false, runPlan, e1]
  refine cpuRead_andThen_congr (s := { s with cpu := c.reevaluated })
    (f := fun t => afterAccess (t.cpu.fetched, .jump (slotOf (cpuReadByte c.regs.pc s) 0)) t) (fun t g => ?_)
    s.env.calls.length
  simp only [afterAccess, settle_jump, State.mapCpu, Cpu.fetched, Regs.incPc, g.regs, e1, Cpu.pointPending]
  cases t.cpu.intCycle <;> simp

/-- A due finish micro-op redirects (60_exceptions.md R226). -/
theorem runPlan_finish_redirects (s : State) (c : Cpu) (hd : due s.params c = true) :
    runPlan (finish s.params c) s =
      { s with cpu := { c with intCycle := .inProgress, deliver := true, intEarlier := false, cc := 0 } } := by
  obtain ⟨n, hi, h, -⟩ := (due_iff _ _).mp hd
  have e : c.reevaluated = c := by simp [Cpu.reevaluated, hi, h]
  simp only [finish, finish_reevaluates, e, hd, if_true]
  rfl

/-- Where the finish micro-op of an opcode of the open table runs next, `ExecSlot` is the finish. -/
theorem execSlot_atOpenFinish {s : State} (h : s.atOpenFinish) : execSlot s = runPlan (finish s.params s.cpu) s := by
  obtain ⟨b, r, hb, hu, hc⟩ := h
  rw [execSlot_at hc, slotOp_open hb hu]
  simp [openSlots]

/-- Where the finish micro-op runs next, the opcode's meaning is the finish. -/
theorem exec_atFinish {i : Instr} {s : State} (hf : s.fault = none) (h : s.atFinish i) :
    exec i s = .next (runPlan (finish s.params s.cpu) s) := by
  rcases h with ⟨b, k, hm, hc⟩ | ⟨b, hm, hc, hn⟩ | ⟨b, hm, hc, he, hp⟩
  · rw [exec_finishing hm hf, opcodeSlot_at hc, execSlot_at hc, slotOp_finishSlot hm]
  · rw [exec_branch hm hf, opcodeSlot_at hc, execSlot_at hc, slotOp_branch hm]
    show Host.Outcome.next (runPlan (brCond s.params s.cpu) s) = _
    simp only [brCond, hc, slotOpcode_slotOf, hn]; rfl
  · rw [exec_branch hm hf, opcodeSlot_at hc, execSlot_at hc, slotOp_branch hm]
    show Host.Outcome.next (runPlan (brFix s.params s.cpu) s) = _
    simp only [brFix, he, hp, if_true]

end Sys2Proof.Machine
end

