-- ==== Sys2Proof/Laws/Inv.lean ====
section
/-! SUPPORT. The machine's invariant, one lemma per shared operation: what each keeps of `State.Inv`. -/

namespace Sys2Proof.Machine

/-! ### Lists -/

theorem nodup_insert {l : List EventId} {i : EventId} (k : Nat) (h : l.Nodup) (hi : i ∉ l) :
    (l.take k ++ [i] ++ l.drop k).Nodup := by
  have hp : (l.take k ++ [i] ++ l.drop k).Perm (i :: l) := by
    have h1 : (l.take k ++ [i] ++ l.drop k).Perm ([i] ++ l.take k ++ l.drop k) :=
      (List.perm_append_comm).append_right _
    simpa [List.take_append_drop] using h1
  exact hp.nodup_iff.mpr (List.nodup_cons.mpr ⟨hi, h⟩)

theorem mem_insert_iff {l : List EventId} {i j : EventId} (k : Nat) :
    j ∈ l.take k ++ [i] ++ l.drop k ↔ j = i ∨ j ∈ l := by
  have h : j ∈ l ↔ j ∈ l.take k ∨ j ∈ l.drop k := by
    rw [← List.mem_append, List.take_append_drop]
  simp only [List.mem_append, List.mem_singleton, h]
  tauto

/-- Inserting behind the events not later keeps a list sorted (40_clock.md R122). -/
theorem sorted_insert {f : EventId → Time} {l : List EventId} {i : EventId}
    (h : l.Pairwise fun a b => f a ≤ f b) :
    (l.take (l.countP fun j => decide (f j ≤ f i)) ++ [i] ++ l.drop (l.countP fun j => decide (f j ≤ f i))).Pairwise
      fun a b => f a ≤ f b := by
  obtain ⟨hb, ha⟩ := countP_split l (f i) h
  have hs : (l.take (l.countP fun j => decide (f j ≤ f i)) ++ l.drop (l.countP fun j => decide (f j ≤ f i))).Pairwise
      fun a b => f a ≤ f b := by rwa [List.take_append_drop]
  obtain ⟨h1, h2, h3⟩ := List.pairwise_append.mp hs
  refine List.pairwise_append.mpr ⟨List.pairwise_append.mpr ⟨h1, List.pairwise_singleton _ _, ?_⟩, h2, ?_⟩
  · intro a ha' b hb'
    rw [List.mem_singleton] at hb'
    subst hb'
    exact hb a ha'
  · intro a ha' b hb'
    rcases List.mem_append.mp ha' with ha' | ha'
    · exact h3 a ha' b hb'
    · rw [List.mem_singleton] at ha'
      subst ha'
      exact Nat.le_of_lt (ha b hb')

/-! ### Changes the invariant does not look at -/

/-- A change of fields the invariant does not name, or of none. -/
theorem State.Inv.congr {s t : State} (h : s.Inv) (hc : t.clk = s.clk) (hp : t.cpu.mode = s.cpu.mode)
    (hr : t.cpu.rdy = s.cpu.rdy) (hq : t.cpu.irqPin = s.cpu.irqPin) (ht : t.rt = s.rt)
    (hf : s.fault = none ∨ t.fault ≠ none) (he : t.env.wf = true) (hi : ∀ inp ∈ t.inputs, inp ∈ s.inputs) : t.Inv where
  distinct := by rw [hc]; exact h.distinct
  sorted := by rw [hc]; exact h.sorted
  future := by rw [hc]; exact h.future
  tickMode hf' m hm := by
    rw [hc] at hm
    rw [hp]
    exact h.tickMode (hf.resolve_right fun g => g hf') m hm
  tickPhase := by rw [hc]; exact h.tickPhase
  modeRdy := by rw [hp, hr]; exact h.modeRdy
  stallRdy := by rw [hr, ht]; exact h.stallRdy
  aecRequested hf' hm := by
    rw [hc] at hm
    rw [ht]
    exact h.aecRequested (hf.resolve_right fun g => g hf') hm
  irqLevel := by rw [hq, ht]; exact h.irqLevel
  memory := he
  hostInputs inp hm := h.hostInputs inp (hi inp hm)

theorem raise_inv {s : State} (f : FaultCode) (h : s.Inv) : (raise f s).Inv :=
  h.congr rfl rfl rfl rfl rfl (.inr (by simp)) h.memory fun _ g => g

theorem record_inv {s : State} (e : HistEntry) (h : s.Inv) (hf : s.fault = none) : (s.record e).Inv :=
  h.congr rfl rfl rfl rfl rfl (.inl hf) h.memory fun _ g => g

/-! ### The EventClock -/

/-- What a schedule needs to keep the invariant: for a tick, the mode and the phase; for the AEC release, a request. -/
theorem schedule_inv {i : EventId} {c : Nat} {ph : Phase} {s : State} (h : s.Inv) (hf : s.fault = none)
    (ht : ∀ m : Mode, i = m.tick → s.cpu.mode = m ∧ triggerTime s.clk.now c ph % 2 = 1)
    (ha : i = Config.aecId → s.rt.ba = false) : (schedule i c ph s).Inv := by
  rcases schedule_cases i c ph s with ⟨-, e⟩ | ⟨-, -, e⟩ | ⟨-, -, -, e⟩ | ⟨hi, hlt, -, e⟩ <;> rw [e]
  · exact raise_inv _ h
  · exact raise_inv _ h
  · exact raise_inv _ h
  · have hge := triggerTime_ge s.clk.now c ph
    have htn : (BitVec.ofNat 64 (triggerTime s.clk.now c ph)).toNat = triggerTime s.clk.now c ph := by
      rw [BitVec.toNat_ofNat]
      exact Nat.mod_eq_of_lt hlt
    have hold : ∀ j ∈ s.clk.pending, (s.clk.scheduled i (BitVec.ofNat 64 (triggerTime s.clk.now c ph))).time j =
        s.clk.time j := fun j hj => time_setTime_ne _ _ fun e => hi (e ▸ hj)
    have hnew : (s.clk.scheduled i (BitVec.ofNat 64 (triggerTime s.clk.now c ph))).time i =
        BitVec.ofNat 64 (triggerTime s.clk.now c ph) := time_setTime_same _ _ _
    have hpos : s.clk.insertPos (BitVec.ofNat 64 (triggerTime s.clk.now c ph)) =
        s.clk.pending.countP fun j => decide ((s.clk.scheduled i (BitVec.ofNat 64 (triggerTime s.clk.now c ph))).time j ≤
          (s.clk.scheduled i (BitVec.ofNat 64 (triggerTime s.clk.now c ph))).time i) := by
      rw [hnew]
      exact List.countP_congr fun j hj => by rw [hold j hj]
    have hmem : ∀ j, j ∈ (s.clk.scheduled i (BitVec.ofNat 64 (triggerTime s.clk.now c ph))).pending ↔
        j = i ∨ j ∈ s.clk.pending := fun j => mem_insert_iff _
    refine
      { distinct := nodup_insert _ h.distinct hi
        sorted := ?_
        future := ?_
        tickMode := ?_
        tickPhase := ?_
        modeRdy := h.modeRdy
        stallRdy := h.stallRdy
        aecRequested := ?_
        irqLevel := h.irqLevel
        memory := h.memory
        hostInputs := h.hostInputs }
    · show (s.clk.pending.take (s.clk.insertPos _) ++ [i] ++ s.clk.pending.drop (s.clk.insertPos _)).Pairwise _
      rw [hpos]
      refine sorted_insert (f := (s.clk.scheduled i (BitVec.ofNat 64 (triggerTime s.clk.now c ph))).time) ?_
      exact h.sorted.imp_of_mem fun {a b} ha' hb' hab => by rw [hold a ha', hold b hb']; exact hab
    · intro j hj
      rcases (hmem j).mp hj with rfl | hj
      · show s.clk.now ≤ (s.clk.scheduled j _).time j
        rw [hnew, BitVec.le_def, htn]
        omega
      · show s.clk.now ≤ (s.clk.scheduled i _).time j
        rw [hold j hj]
        exact h.future j hj
    · intro _ m hm
      rcases (hmem _).mp hm with hm | hm
      · exact (ht m hm.symm).1
      · exact h.tickMode hf m hm
    · intro m hm
      rcases (hmem _).mp hm with hm | hm
      · show ((s.clk.scheduled i _).time m.tick).toNat % 2 = 1
        rw [hm, hnew, htn]
        exact (ht m hm.symm).2
      · show ((s.clk.scheduled i _).time m.tick).toNat % 2 = 1
        rw [hold _ hm]
        exact h.tickPhase m hm
    · intro _ hm
      rcases (hmem _).mp hm with hm | hm
      · exact ha hm.symm
      · exact h.aecRequested hf hm

theorem unlink_inv {i : EventId} {s : State} (h : s.Inv) : State.Inv { s with clk := s.clk.unlink i } where
  distinct := h.distinct.erase i
  sorted := h.sorted.sublist List.erase_sublist
  future j hj := h.future j (List.mem_of_mem_erase hj)
  tickMode hf m hm := h.tickMode hf m (List.mem_of_mem_erase hm)
  tickPhase m hm := h.tickPhase m (List.mem_of_mem_erase hm)
  modeRdy := h.modeRdy
  stallRdy := h.stallRdy
  aecRequested hf hm := h.aecRequested hf (List.mem_of_mem_erase hm)
  irqLevel := h.irqLevel
  memory := h.memory
  hostInputs := h.hostInputs

theorem cancelEvent_inv {i : EventId} {s : State} (h : s.Inv) : (cancelEvent i s).Inv := by
  rcases cancelEvent_cases i s with ⟨-, e⟩ | ⟨-, -, e⟩ | ⟨-, -, e⟩ <;> rw [e]
  · exact h
  · exact raise_inv _ h
  · exact unlink_inv h

/-- Running the head: no event is left behind in the past. -/
theorem popHead_inv {i : EventId} {rest : List EventId} {s : State} (h : s.Inv) (hp : s.clk.pending = i :: rest) :
    (popHead i s).Inv := by
  have hu := unlink_inv (i := i) h
  have hs := h.sorted
  rw [hp] at hs
  have he : s.clk.pending.erase i = rest := by simp [hp]
  exact
    { distinct := hu.distinct
      sorted := hu.sorted
      future := fun j hj => (List.pairwise_cons.mp hs).1 j (by
        have hj' : j ∈ s.clk.pending.erase i := hj
        rwa [he] at hj')
      tickMode := hu.tickMode
      tickPhase := hu.tickPhase
      modeRdy := hu.modeRdy
      stallRdy := hu.stallRdy
      aecRequested := hu.aecRequested
      irqLevel := hu.irqLevel
      memory := hu.memory
      hostInputs := hu.hostInputs }

theorem owner_collaborator {i : EventId} (h : Config.owner i = .collaborator) :
    (∀ m : Mode, i ≠ m.tick) ∧ i ≠ Config.aecId := by
  refine ⟨fun m e => ?_, fun e => ?_⟩
  · subst e
    cases m <;> exact absurd h (by decide)
  · subst e
    exact absurd h (by decide)

theorem schedExternal_inv {i : EventId} {cyc : BitVec 16} {ph : Phase} {s : State} (h : s.Inv) (hf : s.fault = none) :
    (schedExternal i cyc ph s).Inv := by
  simp only [schedExternal]
  split
  · exact raise_inv _ h
  · rename_i ho
    obtain ⟨h1, h2⟩ := owner_collaborator ho
    exact schedule_inv h hf (fun m e => absurd e (h1 m)) fun e => absurd e h2

theorem cancelExternal_inv {i : EventId} {s : State} (h : s.Inv) : (cancelExternal i s).Inv := by
  simp only [cancelExternal]
  split
  · exact raise_inv _ h
  · exact cancelEvent_inv h

/-! ### The stall line -/

theorem tick_ne {m n : Mode} (h : m ≠ n) : m.tick ≠ n.tick := by
  cases m <;> cases n <;> first | exact absurd rfl h | decide

/-- The stall line, its copy and the strategy changed together, where no tick of another strategy is pending. -/
theorem withStall_inv {s : State} (level : Bool) (h : s.Inv)
    (ht : s.fault = none → ∀ m : Mode, m.tick ∈ s.clk.pending → modeOf level = m) :
    State.Inv { s with rt := { s.rt with stall := level }, cpu := { s.cpu with rdy := level, mode := modeOf level } } where
  distinct := h.distinct
  sorted := h.sorted
  future := h.future
  tickMode hf m hm := ht hf m hm
  tickPhase := h.tickPhase
  modeRdy := rfl
  stallRdy := rfl
  aecRequested := h.aecRequested
  irqLevel := h.irqLevel
  memory := h.memory
  hostInputs := h.hostInputs

/-- `SETRDY` after the line changed (42_signals.md R160). -/
theorem setRdy_inv {s : State} (level : Bool) (h : s.Inv) (hf : s.fault = none) :
    (setRdy level { s with rt := { s.rt with stall := level } }).Inv := by
  simp only [setRdy]
  split
  · rename_i hm
    have hm' : modeOf level = s.cpu.mode := hm
    have := withStall_inv level h fun hf m hp => hm'.trans (h.tickMode hf m hp)
    rwa [hm'] at this
  · rename_i hm
    have hm' : modeOf level ≠ s.cpu.mode := hm
    split
    · rename_i hp
      have hp' : s.cpu.mode.tick ∈ s.clk.pending := (isPending_iff _ _).mp hp
      have hnew : (modeOf level).tick ∉ s.clk.pending := fun hn => hm' (h.tickMode hf _ hn).symm
      rcases cancelEvent_cases s.cpu.mode.tick
        { s with
          rt := { s.rt with stall := level }
          cpu := { s.cpu with rdy := level, mode := modeOf level } } with ⟨hn, -⟩ | ⟨-, -, e⟩ | ⟨-, -, e⟩
      · exact absurd hp' hn
      · have hr := withStall_inv level (raise_inv .walkBound h) fun g => by simp at g
        change State.Inv (State.andThen (cancelEvent s.cpu.mode.tick { s with
          rt := { s.rt with stall := level }
          cpu := { s.cpu with rdy := level, mode := modeOf level } }) _)
        rw [e, andThen_faulted rfl]
        exact hr
      · have hu := withStall_inv level (unlink_inv (i := s.cpu.mode.tick) h) fun _ m hm => by
          have h1 : m.tick ∈ s.clk.pending := List.mem_of_mem_erase hm
          have h2 := h.tickMode hf m h1
          subst h2
          exact absurd hm h.distinct.not_mem_erase
        change State.Inv (State.andThen (cancelEvent s.cpu.mode.tick { s with
          rt := { s.rt with stall := level }
          cpu := { s.cpu with rdy := level, mode := modeOf level } }) _)
        rw [e, andThen_live]
        swap
        · exact hf
        refine schedule_inv hu hf (fun m hm => ?_) fun hm => ?_
        · refine ⟨?_, triggerTime_phi2_odd _ _⟩
          by_contra hne
          exact tick_ne hne hm
        · cases level <;> exact absurd hm (by decide)
    · rename_i hp
      have hp' : s.cpu.mode.tick ∉ s.clk.pending := fun g => hp ((isPending_iff _ _).mpr g)
      have hw := withStall_inv level h fun hf m hm => by
        have := h.tickMode hf m hm
        subst this
        exact absurd hm hp'
      exact hw

theorem followStall_inv {s : State} (level : Bool) (h : s.Inv) (hf : s.fault = none) : (followStall level s).Inv := by
  simp only [followStall]
  split
  · exact setRdy_inv _ h hf
  · exact h

/-! ### The bus request -/

/-- The state with the BA line rewritten. -/
def State.withBa (s : State) (b : Bool) : State := { s with rt := { s.rt with ba := b } }

theorem schedule_withBa (i : EventId) (c : Nat) (ph : Phase) (s : State) (b : Bool) :
    schedule i c ph (s.withBa b) = (schedule i c ph s).withBa b := by
  by_cases h1 : s.clk.isPending i = true
  · simp only [schedule, State.withBa, h1, if_true]
    rfl
  · by_cases h2 : Config.timeLimit ≤ triggerTime s.clk.now c ph
    · simp only [schedule, State.withBa, h1, h2, if_true]
      rfl
    · by_cases h3 : s.params.walkBound ≤ s.clk.insertPos (BitVec.ofNat 64 (triggerTime s.clk.now c ph))
      · simp only [schedule, State.withBa, h1, h2, h3, if_true, if_false]
        rfl
      · simp only [schedule, State.withBa, h1, h2, h3, if_false]
        rfl

theorem cancelEvent_withBa (i : EventId) (s : State) (b : Bool) :
    cancelEvent i (s.withBa b) = (cancelEvent i s).withBa b := by
  by_cases h1 : s.clk.isPending i = true
  · by_cases h2 : s.params.walkBound ≤ s.clk.pending.idxOf i
    · simp only [cancelEvent, State.withBa, h1, h2, if_true]
      rfl
    · simp only [cancelEvent, State.withBa, h1, h2, if_true, if_false]
  · simp only [cancelEvent, State.withBa, h1]
    rfl

theorem andThen_withBa {s : State} {f g : State → State} (b : Bool) (h : ∀ t, f (t.withBa b) = (g t).withBa b) :
    (s.withBa b).andThen f = (s.andThen g).withBa b := by
  simp only [State.andThen]
  cases hf : s.fault with
  | none =>
    have : (s.withBa b).fault = none := hf
    rw [this]
    exact h s
  | some c =>
    have : (s.withBa b).fault = some c := hf
    rw [this]

theorem setRdy_withBa (level : Bool) (s : State) (b : Bool) : setRdy level (s.withBa b) = (setRdy level s).withBa b := by
  by_cases h1 : modeOf level = s.cpu.mode
  · rw [setRdy_same h1, setRdy_same (s := s.withBa b) h1]
    rfl
  · by_cases h2 : s.cpu.mode.tick ∈ s.clk.pending
    · rw [setRdy_moves h1 h2, setRdy_moves (s := s.withBa b) h1 h2]
      have hc := cancelEvent_withBa s.cpu.mode.tick (s.mapCpu fun c => { c with rdy := level, mode := modeOf level }) b
      refine Eq.trans (congrArg (fun t => State.andThen t _) hc) (andThen_withBa b fun t => ?_)
      exact schedule_withBa _ _ _ _ _
    · rw [setRdy_switches h1 h2, setRdy_switches (s := s.withBa b) h1 h2]
      rfl

theorem followStall_withBa (level : Bool) (s : State) (b : Bool) :
    followStall level (s.withBa b) = (followStall level s).withBa b := by
  by_cases h : s.pla.dmaOverride = false ∧ s.rt.stall ≠ !level
  · have e : followStall level s = setRdy (!level) { s with rt := { s.rt with stall := !level } } := if_pos h
    have e' : followStall level (s.withBa b) =
        setRdy (!level) { s.withBa b with rt := { (s.withBa b).rt with stall := !level } } := if_pos h
    rw [e, e']
    exact setRdy_withBa _ { s with rt := { s.rt with stall := !level } } b
  · have e : followStall level s = s := if_neg h
    have e' : followStall level (s.withBa b) = s.withBa b := if_neg h
    rw [e, e']

/-- Dropping the BA line keeps the invariant. -/
theorem withBa_false_inv {s : State} (h : s.Inv) : (s.withBa false).Inv where
  distinct := h.distinct
  sorted := h.sorted
  future := h.future
  tickMode := h.tickMode
  tickPhase := h.tickPhase
  modeRdy := h.modeRdy
  stallRdy := h.stallRdy
  aecRequested _ _ := rfl
  irqLevel := h.irqLevel
  memory := h.memory
  hostInputs := h.hostInputs

/-- Raising the BA line keeps it where the AEC release is not pending, or a fault ended the command. -/
theorem withBa_true_inv {s : State} (h : s.Inv) (ha : s.fault ≠ none ∨ Config.aecId ∉ s.clk.pending) :
    (s.withBa true).Inv where
  distinct := h.distinct
  sorted := h.sorted
  future := h.future
  tickMode := h.tickMode
  tickPhase := h.tickPhase
  modeRdy := h.modeRdy
  stallRdy := h.stallRdy
  aecRequested hf hm := absurd hm (ha.resolve_left fun g => g hf)
  irqLevel := h.irqLevel
  memory := h.memory
  hostInputs := h.hostInputs

theorem withAec_inv {s : State} (b : Bool) (h : s.Inv) : State.Inv { s with rt := { s.rt with aec := b } } where
  distinct := h.distinct
  sorted := h.sorted
  future := h.future
  tickMode := h.tickMode
  tickPhase := h.tickPhase
  modeRdy := h.modeRdy
  stallRdy := h.stallRdy
  aecRequested := h.aecRequested
  irqLevel := h.irqLevel
  memory := h.memory
  hostInputs := h.hostInputs

theorem schedule_rt (i : EventId) (c : Nat) (ph : Phase) (s : State) : (schedule i c ph s).rt = s.rt := by
  rcases schedule_cases i c ph s with ⟨-, h⟩ | ⟨-, -, h⟩ | ⟨-, -, -, h⟩ | ⟨-, -, -, h⟩ <;> rw [h] <;> rfl

theorem cancelEvent_rt (i : EventId) (s : State) : (cancelEvent i s).rt = s.rt := by
  rcases cancelEvent_cases i s with ⟨-, h⟩ | ⟨-, -, h⟩ | ⟨-, -, h⟩ <;> rw [h]
  rfl

theorem setBa_inv {s : State} (level : Bool) (h : s.Inv) (hf : s.fault = none) : (setBa level s).Inv := by
  simp only [setBa]
  split
  · exact h
  · rename_i hne
    change State.Inv (State.andThen (followStall level (s.withBa level)) _)
    rw [followStall_withBa]
    have hs := followStall_inv level h hf
    cases level with
    | false =>
      have hb := withBa_false_inv hs
      refine andThen_keeps hb fun hf' _ => ?_
      refine schedule_inv hb hf' (fun m hm => ?_) fun _ => rfl
      cases m <;> exact absurd hm (by decide)
    | true =>
      rcases andThen_cases ((followStall true s).withBa true) fun s1 => if true = true then
        (cancelEvent Config.aecId s1).andThen fun s2 => { s2 with rt := { s2.rt with aec := true } }
        else schedule Config.aecId Config.aecDelay .any s1 with ⟨hf', e⟩ | ⟨hf', e⟩
      · refine (congrArg State.Inv e).mpr ?_
        simp only [if_true]
        rw [cancelEvent_withBa]
        have hfs : (followStall true s).fault = none := hf'
        have hc : ((cancelEvent Config.aecId (followStall true s)).withBa true).Inv := by
          refine withBa_true_inv (cancelEvent_inv hs) ?_
          rcases cancelEvent_cases Config.aecId (followStall true s) with ⟨hn, e'⟩ | ⟨-, -, e'⟩ | ⟨-, -, e'⟩ <;> rw [e']
          · exact .inr hn
          · exact .inl (by simp)
          · exact .inr hs.distinct.not_mem_erase
        exact andThen_keeps hc fun _ g => withAec_inv true g
      · refine (congrArg State.Inv e).mpr (withBa_true_inv hs (.inl hf'))

/-! ### Interrupt lines -/

theorem setIrq_inv {s : State} (level : Bool) (h : s.Inv) : (setIrq level s).Inv := by
  have key : ∀ (n : Nat) (c : Cpu), c.mode = s.cpu.mode → c.rdy = s.cpu.rdy → c.irqPin = decide (0 < n) →
      State.Inv { s with rt := { s.rt with irqCount := n }, cpu := c } := fun n c hm hr hq =>
    { distinct := h.distinct
      sorted := h.sorted
      future := h.future
      tickMode := fun hf m hp => hm.trans (h.tickMode hf m hp)
      tickPhase := h.tickPhase
      modeRdy := by show c.mode = modeOf c.rdy; rw [hm, hr]; exact h.modeRdy
      stallRdy := hr.trans h.stallRdy
      aecRequested := h.aecRequested
      irqLevel := hq
      memory := h.memory
      hostInputs := h.hostInputs }
  simp only [setIrq]
  split
  · split
    · rename_i hn
      obtain ⟨-, -, -, -, -, h6, h7, h8⟩ := calcTrigger_fields { s.cpu with irqPin := true }
      refine key _ _ h8 h7 (h6.trans ?_)
      exact (decide_eq_true (Nat.succ_pos _)).symm
    · rename_i hn
      refine key _ s.cpu rfl rfl ?_
      rw [h.irqLevel]
      have : s.rt.irqCount + 1 ≠ 1 := hn
      exact decide_eq_decide.mpr (by omega)
  · split
    · exact raise_inv _ h
    · rename_i hz
      split
      · rename_i hn
        have hn' : s.rt.irqCount - 1 = 0 := hn
        refine key _ { s.cpu with irqPin := false } rfl rfl ?_
        rw [hn']
        rfl
      · rename_i hn
        have hn' : s.rt.irqCount - 1 ≠ 0 := hn
        refine key _ s.cpu rfl rfl ?_
        rw [h.irqLevel]
        exact decide_eq_decide.mpr (by omega)

theorem setNmi_inv {s : State} (level : Bool) (h : s.Inv) : (setNmi level s).Inv := by
  have key : ∀ (n : Nat) (c : Cpu), c.mode = s.cpu.mode → c.rdy = s.cpu.rdy → c.irqPin = s.cpu.irqPin →
      State.Inv { s with rt := { s.rt with nmiCount := n }, cpu := c } := fun n c hm hr hq =>
    { distinct := h.distinct
      sorted := h.sorted
      future := h.future
      tickMode := fun hf m hp => hm.trans (h.tickMode hf m hp)
      tickPhase := h.tickPhase
      modeRdy := by show c.mode = modeOf c.rdy; rw [hm, hr]; exact h.modeRdy
      stallRdy := hr.trans h.stallRdy
      aecRequested := h.aecRequested
      irqLevel := hq.trans h.irqLevel
      memory := h.memory
      hostInputs := h.hostInputs }
  simp only [setNmi]
  split
  · split
    · obtain ⟨-, -, -, -, -, h6, h7, h8⟩ := calcTrigger_fields { s.cpu with nmiFlag := true }
      exact key _ _ h8 h7 h6
    · exact key _ s.cpu rfl rfl rfl
  · split
    · exact raise_inv _ h
    · split
      · exact key _ s.cpu rfl rfl rfl
      · exact key _ s.cpu rfl rfl rfl

/-! ### Handler calls and responses -/

theorem env_inv {s : State} {e : Env} (h : s.Inv) (he : e.wf = true) : State.Inv { s with env := e } where
  distinct := h.distinct
  sorted := h.sorted
  future := h.future
  tickMode := h.tickMode
  tickPhase := h.tickPhase
  modeRdy := h.modeRdy
  stallRdy := h.stallRdy
  aecRequested := h.aecRequested
  irqLevel := h.irqLevel
  memory := he
  hostInputs := h.hostInputs

theorem fields_inv {s : State} (p : Pla) (hist : List HistEntry) (ret : Option Byte) (h : s.Inv) :
    State.Inv { s with pla := p, hist := hist, ret := ret } where
  distinct := h.distinct
  sorted := h.sorted
  future := h.future
  tickMode := h.tickMode
  tickPhase := h.tickPhase
  modeRdy := h.modeRdy
  stallRdy := h.stallRdy
  aecRequested := h.aecRequested
  irqLevel := h.irqLevel
  memory := h.memory
  hostInputs := h.hostInputs

/-- The invariant is kept by every primitive change of external commands. -/
theorem inv_keeps : ExternalKeeps State.Inv where
  fail _ _ h := raise_inv _ h
  calls _ _ h := env_inv h h.memory
  store hd a d _ h := env_inv h (store_keeps_wf hd a d h.memory)
  record _ s h := fields_inv s.pla _ s.ret h
  returns _ s h := fields_inv s.pla s.hist _ h
  sched _ _ _ _ hf h := schedExternal_inv h hf
  cancel _ _ _ h := cancelExternal_inv h
  port _ _ _ s h := fields_inv _ s.hist s.ret h
  gameExrom _ _ _ _ s h := fields_inv _ s.hist s.ret h
  vicBase _ s h := fields_inv _ s.hist s.ret h
  dmaOverride _ s h := fields_inv _ s.hist s.ret h
  ba _ _ hf h := setBa_inv _ h hf
  irq _ _ _ h := setIrq_inv _ h
  nmi _ _ _ h := setNmi_inv _ h

/-! ### Ticks -/

theorem noTick_schedule {i c ph s} (h : ∀ m : Mode, m.tick ∉ s.clk.pending) (hi : ∀ m : Mode, i ≠ m.tick) :
   ∀ m : Mode, m.tick ∉ (schedule i c ph s).clk.pending := by
  rcases schedule_cases i c ph s with ⟨-, e⟩ | ⟨-, -, e⟩ | ⟨-, -, -, e⟩ | ⟨-, -, -, e⟩ <;> rw [e]
  · exact h
  · exact h
  · exact h
  · intro m hm
    rcases (mem_insert_iff _).mp hm with hm | hm
    · exact hi m hm.symm
    · exact h m hm
theorem noTick_cancel {i s} (h : ∀ m : Mode, m.tick ∉ s.clk.pending) :
   ∀ m : Mode, m.tick ∉ (cancelEvent i s).clk.pending := by
  rcases cancelEvent_cases i s with ⟨-, e⟩ | ⟨-, -, e⟩ | ⟨-, -, e⟩ <;> rw [e]
  · exact h
  · exact h
  · exact fun m hm => h m (List.mem_of_mem_erase hm)
theorem noTick_setRdy {b s} (h : ∀ m : Mode, m.tick ∉ s.clk.pending) : (setRdy b s).clk = s.clk := by
  by_cases h1 : modeOf b = s.cpu.mode
  · rw [setRdy_same h1]; rfl
  · rw [setRdy_switches h1 (h _)]; rfl
theorem noTick_setBa {b s} (h : ∀ m : Mode, m.tick ∉ s.clk.pending) : ∀ m : Mode, m.tick ∉ (setBa b s).clk.pending := by
  simp only [setBa]
  split
  · exact h
  · have hs : (followStall b { s with rt := { s.rt with ba := b } }).clk = s.clk := by
      simp only [followStall]; split
      · exact noTick_setRdy (s := {s with rt := {irqCount := s.rt.irqCount, nmiCount := s.rt.nmiCount, ba := b, aec := s.rt.aec, stall := !b}}) h
      · rfl
    refine andThen_keeps (P := fun t => ∀ m : Mode, m.tick ∉ t.clk.pending) (by rw [hs]; exact h) fun _ g => ?_
    split
    · exact andThen_keeps (P := fun t => ∀ m : Mode, m.tick ∉ t.clk.pending) (noTick_cancel g) fun _ g => g
    · exact noTick_schedule g (by intro m; cases m <;> decide)
/-- With no tick pending, no external command makes one pending (70_reset_and_hazards.md R272). -/
theorem noTick_keeps : ExternalKeeps fun s => ∀ m : Mode, m.tick ∉ s.clk.pending where
  fail _ _ h := h
  calls _ _ h := h
  store _ _ _ _ h := h
  record _ _ h := h
  returns _ _ h := h
  sched _ _ _ s _ h := by
    simp only [schedExternal]; split
    · exact h
    · rename_i ho; exact noTick_schedule h (owner_collaborator ho).1
  cancel _ _ _ h := by
    simp only [cancelExternal]; split
    · exact h
    · exact noTick_cancel h
  port _ _ _ _ h := h
  gameExrom _ _ _ _ _ h := h
  vicBase _ _ h := h
  dmaOverride _ _ h := h
  ba _ _ _ h := noTick_setBa h
  irq b s _ h := by
    simp only [setIrq]
    repeat' split
    all_goals exact h
  nmi b s _ h := by
    simp only [setNmi]
    repeat' split
    all_goals exact h
/-- No external command changes the time (10_state.md R21). -/
theorem now_keeps (n : Time) : ExternalKeeps fun s => s.clk.now = n where
  fail _ _ h := h
  calls _ _ h := h
  store _ _ _ _ h := h
  record _ _ h := h
  returns _ _ h := h
  sched i c ph s hf h := ((externalFrame_keeps s).sched i c ph s hf (.refl s)).now.trans h
  cancel i s hf h := ((externalFrame_keeps s).cancel i s hf (.refl s)).now.trans h
  port _ _ _ _ h := h
  gameExrom _ _ _ _ _ h := h
  vicBase _ _ h := h
  dmaOverride _ _ h := h
  ba b s _ h := (setBa_frame b s).now.trans h
  irq b s _ h := (setIrq_frame b s).now.trans h
  nmi b s _ h := (setNmi_frame b s).now.trans h

/-- A change of the CPU off the pins and the strategy keeps the invariant. -/
theorem cpu_inv {s : State} (c : Cpu) (h : s.Inv) (hr : c.rdy = s.cpu.rdy) (hm : c.mode = s.cpu.mode) (hi : c.irqPin = s.cpu.irqPin) : State.Inv { s with cpu := c } where
  distinct := h.distinct
  sorted := h.sorted
  future := h.future
  tickMode hf m hp := hm.trans (h.tickMode hf m hp)
  tickPhase := h.tickPhase
  modeRdy := by show c.mode = modeOf c.rdy; rw [hm, hr]; exact h.modeRdy
  stallRdy := hr.trans h.stallRdy
  aecRequested := h.aecRequested
  irqLevel := hi.trans h.irqLevel
  memory := h.memory
  hostInputs := h.hostInputs

end Sys2Proof.Machine
end

