-- ==== Sys2Proof/Laws/PerInstr.lean ====
section
/-! SUPPORT. The per-instruction family EncodedFormat: an instruction is encoded in the space of its class. -/

namespace Sys2Proof.Laws.EncodedFormat

/-- The encoding space of an instruction is the one of its class (30_encoding.md R96, R100, R101): commands are words,
callbacks event ids, opcodes bytes. -/
def Statement (i : Instr) : Prop :=
  match encode i with
  | .command _ => i.cmdClass = .host ∨ i.cmdClass = .external ∨ i.cmdClass = .internal
  | .event _ => i.cmdClass = .callback
  | .opcode _ => i.cmdClass = .opcode

theorem sched (ev : EventId) (cyc : BitVec 16) (ph : Phase) : Statement (.sched ev cyc ph) := .inr (.inl rfl)

theorem cancel (ev : EventId) : Statement (.cancel ev) := .inr (.inl rfl)

theorem runnext : Statement .runnext := .inl rfl

theorem step : Statement .step := .inl rfl

theorem clkreset : Statement .clkreset := .inl rfl

theorem mreset : Statement .mreset := .inl rfl

theorem cpurd (a : Addr) : Statement (.cpurd a) := .inr (.inl rfl)

theorem cpuwr (a : Addr) (d : Byte) : Statement (.cpuwr a d) := .inr (.inl rfl)

theorem vicrd1 (v : VicAddr) : Statement (.vicrd1 v) := .inr (.inl rfl)

theorem vicrd2 (v : VicAddr) : Statement (.vicrd2 v) := .inr (.inl rfl)

theorem setport (l h c : Bool) : Statement (.setport l h c) := .inr (.inl rfl)

theorem setge (g1 e1 g2 e2 : Bool) : Statement (.setge g1 e1 g2 e2) := .inr (.inl rfl)

theorem setvicbase (n : BitVec 2) : Statement (.setvicbase n) := .inr (.inl rfl)

theorem setdmaovr (on : Bool) : Statement (.setdmaovr on) := .inr (.inl rfl)

theorem setba (b : Bool) : Statement (.setba b) := .inr (.inl rfl)

theorem setirq (b : Bool) : Statement (.setirq b) := .inr (.inl rfl)

theorem setnmi (b : Bool) : Statement (.setnmi b) := .inr (.inl rfl)

theorem trigirq : Statement .trigirq := .inr (.inr rfl)

theorem clrirq : Statement .clrirq := .inr (.inr rfl)

theorem trignmi : Statement .trignmi := .inr (.inr rfl)

theorem clrnmi : Statement .clrnmi := .inr (.inr rfl)

theorem trigrst : Statement .trigrst := .inl rfl

theorem setrdy (b : Bool) : Statement (.setrdy b) := .inr (.inr rfl)

theorem build : Statement .build := .inl rfl

theorem tickNs : Statement .tickNs := rfl

theorem tickSt : Statement .tickSt := rfl

theorem aecRelease : Statement .aecRelease := rfl

theorem extEvent (id : EventId) : Statement (.extEvent id) := rfl

theorem ldaImm : Statement .ldaImm := rfl

theorem brk : Statement .brk := rfl

theorem jsrAbs : Statement .jsrAbs := rfl

theorem rts : Statement .rts := rfl

theorem nop : Statement .nop := rfl

theorem bpl : Statement .bpl := rfl

theorem bmi : Statement .bmi := rfl

theorem bvc : Statement .bvc := rfl

theorem bvs : Statement .bvs := rfl

theorem bcc : Statement .bcc := rfl

theorem bcs : Statement .bcs := rfl

theorem bne : Statement .bne := rfl

theorem beq : Statement .beq := rfl

theorem rti : Statement .rti := rfl

end Sys2Proof.Laws.EncodedFormat
end

