-- ==== Sys2Proof/Laws/Plans.lean ====
section
/-! SUPPORT. What every micro-op of the table leaves alone of the CPU, and so what a tick's slot keeps. -/

namespace Sys2Proof.Machine

/-- The pins, the strategy and the place in the table are the same: no micro-op writes them. -/
structure PinsSame (c c' : Cpu) : Prop where
  rdy : c'.rdy = c.rdy
  mode : c'.mode = c.mode
  irqPin : c'.irqPin = c.irqPin
  cc : c'.cc = c.cc

theorem PinsSame.refl (c : Cpu) : PinsSame c c := ⟨rfl, rfl, rfl, rfl⟩

theorem PinsSame.trans {a b c : Cpu} (h : PinsSame a b) (g : PinsSame b c) : PinsSame a c :=
  ⟨g.rdy.trans h.rdy, g.mode.trans h.mode, g.irqPin.trans h.irqPin, g.cc.trans h.cc⟩

/-- A micro-op relates the CPU before its access to the CPU it found, and the CPU after it to the CPU the access left. -/
def MicroPlan.Keeps (R : Cpu → Cpu → Prop) (c0 : Cpu) : MicroPlan → Prop
  | .done c _ => R c0 c
  | .read c _ k => R c0 c ∧ ∀ c' d, R c' (k c' d).1
  | .write c _ _ k => R c0 c ∧ ∀ c', R c' (k c').1

theorem mapRegs_pins (c : Cpu) (f : Regs → Regs) : PinsSame c (c.mapRegs f) := ⟨rfl, rfl, rfl, rfl⟩

theorem unmodelledOp_pins (p : Params) (c : Cpu) : (unmodelledOp p c).Keeps PinsSame c := .refl c

theorem dummyRead_pins (c : Cpu) (a : Addr) (f : Regs → Regs) : (dummyRead c a f).Keeps PinsSame c :=
  ⟨.refl c, fun c' _ => mapRegs_pins c' f⟩

theorem operandByte_pins (c : Cpu) (f : Byte → Regs → Regs) : (operandByte c f).Keeps PinsSame c :=
  ⟨.refl c, fun _ _ => ⟨rfl, rfl, rfl, rfl⟩⟩

theorem push_pins (c : Cpu) (v : Byte) : (push c v).Keeps PinsSame c := ⟨.refl c, fun _ => ⟨rfl, rfl, rfl, rfl⟩⟩

theorem pull_pins (c : Cpu) (f : Byte → Regs → Regs) : (pull c f).Keeps PinsSame c :=
  ⟨mapRegs_pins c _, fun c' d => mapRegs_pins c' (f d)⟩

theorem reevaluated_pins (c : Cpu) : PinsSame c c.reevaluated := by
  simp only [Cpu.reevaluated]
  split <;> (try split) <;> exact ⟨rfl, rfl, rfl, rfl⟩

theorem finish_pins (p : Params) (c c0 : Cpu) (h : PinsSame c0 c) : (finish p c).Keeps PinsSame c0 := by
  simp only [finish, finish_reevaluates]
  have hr := h.trans (reevaluated_pins c)
  split
  · exact ⟨hr.rdy, hr.mode, hr.irqPin, hr.cc⟩
  · exact ⟨hr, fun c' _ => ⟨rfl, rfl, rfl, rfl⟩⟩

theorem brCond_pins (p : Params) (c : Cpu) : (brCond p c).Keeps PinsSame c := by
  simp only [brCond]
  split
  · exact ⟨mapRegs_pins c _, fun _ _ => ⟨rfl, rfl, rfl, rfl⟩⟩
  · exact finish_pins p c c (.refl c)

theorem deferQuirk_pins (c : Cpu) : PinsSame c c.deferQuirk := by
  simp only [Cpu.deferQuirk]
  split <;> (try split) <;> exact ⟨rfl, rfl, rfl, rfl⟩

theorem deferQuirkSamePage_pins (p : Params) (c : Cpu) : PinsSame c (c.deferQuirkSamePage p) := by
  simp only [Cpu.deferQuirkSamePage]
  split <;> exact ⟨rfl, rfl, rfl, rfl⟩

theorem brFix_pins (p : Params) (c : Cpu) : (brFix p c).Keeps PinsSame c := by
  simp only [brFix]
  split
  · split
    · exact finish_pins p c c (.refl c)
    · exact finish_pins p _ c (deferQuirkSamePage_pins p c)
  · split
    · exact ⟨deferQuirk_pins c, fun _ _ => ⟨rfl, rfl, rfl, rfl⟩⟩
    · exact ⟨.refl c, fun _ _ => ⟨rfl, rfl, rfl, rfl⟩⟩

theorem selectSource_pins (c : Cpu) : PinsSame c (selectSource c).2 := by
  simp only [selectSource]
  repeat' split
  all_goals exact ⟨rfl, rfl, rfl, rfl⟩

theorem int4_pins (p : Params) (c : Cpu) : (int4 p c).Keeps PinsSame c := by
  simp only [int4]
  exact ⟨(selectSource_pins c).trans (mapRegs_pins _ _), fun _ _ => ⟨rfl, rfl, rfl, rfl⟩⟩

theorem endDelivery_pins (c : Cpu) : PinsSame c c.endDelivery := by
  simp only [Cpu.endDelivery]
  split <;> exact ⟨rfl, rfl, rfl, rfl⟩

theorem int5_pins (p : Params) (c : Cpu) : (int5 p c).Keeps PinsSame c :=
  ⟨.refl c, fun c' _ => (mapRegs_pins c' _).trans (endDelivery_pins _)⟩

theorem bodyPlan_pins (o : Byte) (op : Option Config.ArithOp) (c : Cpu) (b : Config.BodyPlan) :
    (bodyPlan o op c b).Keeps PinsSame c := by
  cases b
  · exact ⟨rfl, rfl, rfl, rfl⟩
  · exact ⟨⟨rfl, rfl, rfl, rfl⟩, fun _ _ => ⟨rfl, rfl, rfl, rfl⟩⟩
  · exact ⟨⟨rfl, rfl, rfl, rfl⟩, fun _ => ⟨rfl, rfl, rfl, rfl⟩⟩

/-- A micro-op that writes none of the pins, the strategy, or `cpu.cc`, and leaves what `R` relates. -/
def MicroOp.Keeps (R : Cpu → Cpu → Prop) (op : MicroOp) : Prop := ∀ p c, (op p c).Keeps R c

theorem ldaSlots_pins (k : BitVec 3) : (ldaSlots k).Keeps PinsSame := by
  simp only [ldaSlots]
  split
  · exact fun _ c => operandByte_pins c _
  · exact fun p c => finish_pins p c c (.refl c)
  · exact unmodelledOp_pins

theorem brkSlots_pins (k : BitVec 3) : (brkSlots k).Keeps PinsSame := by
  simp only [brkSlots]
  split
  · exact fun _ c => dummyRead_pins c _ _
  · exact fun _ c => push_pins c _
  · exact fun _ c => push_pins c _
  · exact fun _ c => push_pins c _
  · exact int4_pins
  · exact int5_pins
  · exact fun p c => finish_pins p c c (.refl c)
  · exact unmodelledOp_pins

theorem jsrSlots_pins (k : BitVec 3) : (jsrSlots k).Keeps PinsSame := by
  simp only [jsrSlots]
  split
  · exact fun _ c => operandByte_pins c _
  · exact fun _ c => dummyRead_pins c _ _
  · exact fun _ c => push_pins c _
  · exact fun _ c => push_pins c _
  · exact fun _ c => ⟨.refl c, fun _ _ => ⟨rfl, rfl, rfl, rfl⟩⟩
  · exact fun p c => finish_pins p c c (.refl c)
  · exact unmodelledOp_pins

theorem rtsSlots_pins (k : BitVec 3) : (rtsSlots k).Keeps PinsSame := by
  simp only [rtsSlots]
  split
  · exact fun _ c => dummyRead_pins c _ _
  · exact fun _ c => dummyRead_pins c _ _
  · exact fun _ c => pull_pins c _
  · exact fun _ c => pull_pins c _
  · exact fun _ c => dummyRead_pins c _ _
  · exact fun p c => finish_pins p c c (.refl c)
  · exact unmodelledOp_pins

theorem nopSlots_pins (k : BitVec 3) : (nopSlots k).Keeps PinsSame := by
  simp only [nopSlots]
  split
  · exact fun _ c => dummyRead_pins c _ _
  · exact fun p c => finish_pins p c c (.refl c)
  · exact unmodelledOp_pins

theorem rtiSlots_pins (k : BitVec 3) : (rtiSlots k).Keeps PinsSame := by
  simp only [rtiSlots]
  split
  · exact fun _ c => dummyRead_pins c _ _
  · exact fun _ c => dummyRead_pins c _ _
  · exact fun _ c => pull_pins c _
  · exact fun _ c => pull_pins c _
  · exact fun _ c => pull_pins c _
  · exact fun p c => finish_pins p c c (.refl c)
  · exact unmodelledOp_pins

theorem branchSlots_pins (k : BitVec 3) : (branchSlots k).Keeps PinsSame := by
  simp only [branchSlots]
  split
  · exact fun _ c => operandByte_pins c _
  · exact brCond_pins
  · exact brFix_pins
  · exact fun p c => finish_pins p c c (.refl c)
  · exact unmodelledOp_pins

theorem openSlots_pins (o : Byte) (k : BitVec 3) : (openSlots o k).Keeps PinsSame := by
  intro p c
  simp only [openSlots]
  split
  · exact bodyPlan_pins _ _ _ _
  · split
    · exact finish_pins p c c (.refl c)
    · exact unmodelledOp_pins p c

/-- No micro-op of the table writes the pins, the strategy or `cpu.cc`. -/
theorem slotOp_pins (p : Params) (cc : Slot) : (slotOp p cc).Keeps PinsSame := by
  simp only [slotOp]
  split
  · exact ldaSlots_pins _
  · exact brkSlots_pins _
  · exact jsrSlots_pins _
  · exact rtsSlots_pins _
  · exact nopSlots_pins _
  · exact rtiSlots_pins _
  · exact branchSlots_pins _
  · split
    · exact unmodelledOp_pins
    · exact openSlots_pins _ _

/-- A property kept by external commands and by changes of the CPU off the pins and the strategy is kept by a micro-op at
work. -/
theorem runPlan_keeps {P : State → Prop} (k : ExternalKeeps P)
    (hc : ∀ (s : State) (c : Cpu), P s → c.rdy = s.cpu.rdy → c.mode = s.cpu.mode → c.irqPin = s.cpu.irqPin →
      P { s with cpu := c })
    {plan : MicroPlan} {s : State} (hp : plan.Keeps PinsSame s.cpu) (hs : P s) : P (runPlan plan s) := by
  have hset : ∀ (r : MicroResult) (t : State), P t → P (settle r t) := by
    intro r t ht
    cases r with
    | next =>
      simp only [settle]
      split
      · exact k.fail _ _ ht
      · exact hc t _ ht rfl rfl rfl
    | jump n => exact hc t _ ht rfl rfl rfl
    | unmodelled => exact k.fail _ _ ht
  cases plan with
  | done c r => exact hset _ _ (hc s c hs hp.rdy hp.mode hp.irqPin)
  | read c a kk =>
    obtain ⟨h1, h2⟩ := hp
    refine andThen_keeps (cpuRead_keeps k (responder_keeps k s) a _ (hc s c hs h1.rdy h1.mode h1.irqPin))
      fun _ ht => hset _ _ ?_
    have g := h2 (cpuRead s.responder a { s with cpu := c }).cpu (cpuReadByte a { s with cpu := c })
    exact hc _ _ ht g.rdy g.mode g.irqPin
  | write c a d kk =>
    obtain ⟨h1, h2⟩ := hp
    refine andThen_keeps (cpuWrite_keeps k (responder_keeps k s) a d _ (hc s c hs h1.rdy h1.mode h1.irqPin))
      fun _ ht => hset _ _ ?_
    have g := h2 (cpuWrite s.responder a d { s with cpu := c }).cpu
    exact hc _ _ ht g.rdy g.mode g.irqPin

/-- The same of `ExecSlot`. -/
theorem execSlot_keeps {P : State → Prop} (k : ExternalKeeps P)
    (hc : ∀ (s : State) (c : Cpu), P s → c.rdy = s.cpu.rdy → c.mode = s.cpu.mode → c.irqPin = s.cpu.irqPin →
      P { s with cpu := c }) {s : State} (hs : P s) : P (execSlot s) :=
  runPlan_keeps k hc (slotOp_pins _ _ _ _) hs

end Sys2Proof.Machine
end

