-- ==== Sys2Proof/Tests/Slice0.lean ====
section
/-! SUPPORT. The model's own tests: well-formedness, words written out from the spec's encodings, one or two single steps per instruction with results from the spec's examples, and a witness for the hypotheses of each obligation. -/

namespace Sys2Proof.Tests

open Sys2Proof
open Sys2Proof.Machine

/-! ## Small states -/

/-- Whether an outcome is a next state with a property. -/
def after (o : Host.Outcome State Fault Refusal) (p : State → Bool) : Bool :=
  match o with
  | .next t => p t
  | .fault _ => false
  | .refused _ => false

/-- The start state `S0` of spec/95_test_vectors.md with its simulator oracle: RAM all `$00`, other handlers `$EA`. -/
def s0 : State :=
  { State.reset with
    clk := { State.reset.clk with pending := [] }
    env := { State.reset.env with ramFill := some 0x00, otherFill := some 0xEA } }

/-- `S0` at time `n`. -/
def s0At (n : Time) : State := { s0 with clk := { s0.clk with now := n } }

/-- The CPU between instructions, at a slot, with bytes listed in RAM. -/
def cpuAt (o : Byte) (k : BitVec 3) (r : Regs) (ram : Memory) : State :=
  { s0 with
    cpu := { s0.cpu with
      regs := r, cc := slotOf o k, intCycle := .none, rstFlag := false, deliver := false }
    env := { s0.env with cells := ram } }

/-- Registers with a PC. -/
def regsAt (pc : Addr) : Regs := { Regs.zero with pc := pc }

/-- One record pending. -/
def onePending (i : EventId) (t : Time) : State :=
  { s0 with clk := { s0.clk.setTime i t with pending := [i] } }

/-- A host command first in line. -/
def hostLine (s : State) (w : CommandWord) : State := { s with inputs := [{ issuer := .host, word := w }] }

/-! ## Well-formedness -/

theorem test_wf_block_event_refused :
    (Instr.extEvent 0).wf = false ∧ (Instr.extEvent 1).wf = false ∧ (Instr.extEvent 2).wf = false := by decide

theorem test_wf_external_event_accepted : (Instr.extEvent 3).wf = true ∧ (Instr.extEvent 255).wf = true := by decide

/-! ## Decoding: words written out from 30_encoding.md R96, R100, R101 -/

theorem test_decode_clock_words :
    decodeCommand 0b000001_11111111_10_1111111111111111 = .ok (.sched 255 0xFFFF .phi2) ∧
    decodeCommand 0b000001_00000011_00_0000000000000001 = .ok (.sched 3 1 .any) ∧
    decodeCommand 0b000010_10000001_000000000000000000 = .ok (.cancel 0x81) ∧
    decodeCommand 0b000011_00000000000000000000000000 = .ok .runnext ∧
    decodeCommand 0b000100_00000000000000000000000000 = .ok .step ∧
    decodeCommand 0b000101_00000000000000000000000000 = .ok .clkreset ∧
    decodeCommand 0b000110_00000000000000000000000000 = .ok .mreset := by decide

theorem test_decode_pla_words :
    decodeCommand 0b001000_0000000000_1101000000100001 = .ok (.cpurd 0xD021) ∧
    decodeCommand 0b001001_00_00010010_1110000000000000 = .ok (.cpuwr 0xE000 0x12) ∧
    decodeCommand 0b001010_000000000000_01000000000001 = .ok (.vicrd1 0x1001) ∧
    decodeCommand 0b001011_000000000000_11000000000000 = .ok (.vicrd2 0x3000) ∧
    decodeCommand 0b001100_00000000000000000000000_0_1_1 = .ok (.setport true true false) ∧
    decodeCommand 0b001101_0000000000000000000000_1_0_1_1 = .ok (.setge true true false true) ∧
    decodeCommand 0b001110_000000000000000000000000_10 = .ok (.setvicbase 2) ∧
    decodeCommand 0b001111_0000000000000000000000000_1 = .ok (.setdmaovr true) := by decide

theorem test_decode_router_and_seq_words :
    decodeCommand 0b010000_0000000000000000000000000_0 = .ok (.setba false) ∧
    decodeCommand 0b010001_0000000000000000000000000_1 = .ok (.setirq true) ∧
    decodeCommand 0b010010_0000000000000000000000000_1 = .ok (.setnmi true) ∧
    decodeCommand 0b011000_00000000000000000000000000 = .ok .trigirq ∧
    decodeCommand 0b011001_00000000000000000000000000 = .ok .clrirq ∧
    decodeCommand 0b011010_00000000000000000000000000 = .ok .trignmi ∧
    decodeCommand 0b011011_00000000000000000000000000 = .ok .clrnmi ∧
    decodeCommand 0b011100_00000000000000000000000000 = .ok .trigrst ∧
    decodeCommand 0b011101_0000000000000000000000000_1 = .ok (.setrdy true) ∧
    decodeCommand 0b011110_00000000000000000000000000 = .ok .build := by decide

theorem test_decode_callbacks :
    decode (.event 0) = .ok .tickNs ∧ decode (.event 1) = .ok .tickSt ∧ decode (.event 2) = .ok .aecRelease ∧
    decode (.event 3) = .ok (.extEvent 3) := by decide

theorem test_decode_opcodes :
    [0xA9, 0x00, 0x20, 0x60, 0xEA, 0x10, 0x30, 0x50, 0x70, 0x90, 0xB0, 0xD0, 0xF0, 0x40].map decodeOpcode =
      [.ok .ldaImm, .ok .brk, .ok .jsrAbs, .ok .rts, .ok .nop, .ok .bpl, .ok .bmi, .ok .bvc, .ok .bvs, .ok .bcc,
        .ok .bcs, .ok .bne, .ok .beq, .ok .rti] := by decide

theorem test_decode_illegal_words :
    decodeCommand 0x00000000 = .error .unassignedOp ∧ decodeCommand 0x7C000000 = .error .unassignedOp ∧
    decodeCommand 0xFFFFFFFF = .error .unassignedOp ∧ decodeCommand 0x20010000 = .error .reservedBits ∧
    decodeCommand 0x40000002 = .error .reservedBits ∧ decodeCommand 0x04170005 = .error .reservedPhase := by decide

theorem test_table_words : decodeTableWord 32 0x04150005 = some (.sched 5 5 .phi1) ∧
    decodeTableWord 8 0xA9 = some .ldaImm ∧ decodeTableWord 8 1 = some .tickSt ∧
    decodeTableWord 8 0xFF = some (.extEvent 255) ∧ decodeTableWord 8 0 = some .brk := by decide

/-! ## A placed instruction is the next step (log 14) -/

theorem test_fetch_sched : after (step (State.reset.withFetchWord 32 0x04150005)) (fun t =>
    decide (t.clk.pending = [0, 5] ∧ t.clk.time 5 = 10)) = true := by decide

theorem test_fetch_nop : after (step (State.reset.withFetchWord 8 0xEA)) (fun t =>
    decide (t.cpu.cc = 0x751 ∧ t.clk.pending = [0] ∧ t.fault = none)) = true := by decide

theorem test_fetch_internal_class : after (step (State.reset.withFetchWord 32 0x60000000)) (fun t =>
    decide (t.cpu.irqPin = true ∧ t.fault = none)) = true := by decide

theorem test_reset_step_is_idle : step State.reset = .next State.reset := rfl

/-! ## EventClock (40_clock.md; 95_test_vectors.md V-M1, V-M2) -/

theorem test_sched_phi1 : after (exec (.sched 5 5 .phi1) s0) (fun t =>
    decide (t.clk.time 5 = 10 ∧ t.clk.pending = [5])) = true := by decide

theorem test_sched_adjusts_up : after (exec (.sched 5 0 .phi2) (s0At 4)) (fun t =>
    decide (t.clk.time 5 = 5 ∧ t.clk.now = 4)) = true := by decide

theorem test_sched_fifo : after (exec (.sched 11 2 .any) (onePending 10 4)) (fun t =>
    decide (t.clk.pending = [10, 11])) = true := by decide

theorem test_cancel : after (exec (.cancel 7) (onePending 7 2)) (fun t =>
    decide (t.clk.pending = [] ∧ t.fault = none)) = true := by decide

theorem test_cancel_foreign : after (exec (.cancel 2) (onePending 2 2)) (fun t =>
    decide (t.fault = some .foreignEvent ∧ t.clk.pending = [2])) = true := by decide

theorem test_runnext : after (exec .runnext (onePending 5 10)) (fun t =>
    decide (t.clk.now = 10 ∧ t.hist = [.fire 5 10] ∧ t.clk.pending = [])) = true := by decide

theorem test_step_queue_empty : after (exec .step s0) (fun t => decide (t.fault = some .queueEmpty)) = true := by decide

theorem test_step_keeps_on : after (exec .step
    { onePending 10 4 with clk := { ((onePending 10 4).clk.setTime 11 4) with pending := [10, 11] } }) (fun t =>
    decide (t.stepping = some 4 ∧ t.hist = [.fire 10 4] ∧ t.clk.pending = [11])) = true := by decide

theorem test_clkreset : after (exec .clkreset (onePending 5 10)) (fun t =>
    decide (t.clk.now = 0 ∧ t.clk.pending = [])) = true := by decide

theorem test_ext_event : after (exec (.extEvent 9)
    { s0At 6 with env := { s0.env with events := [{ id := 9, words := [0x44000001], standing := false }] } }) (fun t =>
    decide (t.hist = [.fire 9 6] ∧ t.rt.irqCount = 1 ∧ t.env.events = [])) = true := by decide

theorem test_response_of_host_class_faults : after (exec (.extEvent 9)
    { s0At 6 with env := { s0.env with events := [{ id := 9, words := [0x10000000, 0x44000001], standing := true }] } })
    (fun t => decide (t.fault = some .reentrant ∧ t.rt.irqCount = 0)) = true := by decide

/-! ## Reset (70_reset_and_hazards.md R260) -/

theorem test_mreset : after (exec .mreset (onePending 5 10)) (fun t =>
    decide (t.clk.pending = [0] ∧ t.clk.time 0 = 1 ∧ t.clk.now = 0 ∧ t.cpu.rstFlag = true)) = true := by decide

theorem test_mreset_of_a_faulted_machine :
    exec .mreset (raise .queueEmpty s0) = .next (raise .queueEmpty s0) := rfl

/-! ## PLA (41_pla.md examples) -/

theorem test_cpurd_basic : after (exec (.cpurd 0xA000) s0) (fun t =>
    decide (t.hist = [.read .basic 0xA000 0xEA] ∧ t.ret = some 0xEA)) = true := by decide

theorem test_cpuwr_under_kernal : after (exec (.cpuwr 0xE000 0x12) s0) (fun t =>
    decide (t.hist = [.write .ram 0xE000 0x12] ∧ t.env.peek .ram 0xE000 = some 0x12)) = true := by decide

theorem test_cpuwr_fill_is_not_listed : after (exec (.cpuwr 0x1000 0x00)
    (cpuAt 0xEA 0 (regsAt 0) [(0x1000, 0x55)])) (fun t => decide (t.env.cells = [])) = true := by decide

theorem test_vicrd1_char : after (exec (.vicrd1 0x1000) s0) (fun t =>
    decide (t.hist = [.read .char 0x1000 0xEA])) = true := by decide

theorem test_vicrd1_window : after (exec (.vicrd1 0x1000) { s0 with pla := { s0.pla with vicBase := 2 } }) (fun t =>
    decide (t.hist = [.read .char 0x9000 0xEA])) = true := by decide

theorem test_vicrd2_contention : after (exec (.vicrd2 0x0400) s0) (fun t =>
    decide (t.ret = some 0xFF ∧ t.hist = [])) = true := by decide

theorem test_setport_mode30 : after (exec (.setport false true true) s0) (fun t =>
    decide (t.pla.mode = 30 ∧ t.pla.readHandler 0xA000 = .ram ∧ t.pla.readHandler 0xE000 = .kernal)) = true := by decide

theorem test_setge_ultimax : after (exec (.setge true true false true) s0) (fun t =>
    decide (t.pla.readHandler 0x1000 = .openBus ∧ t.pla.readHandler 0xC000 = .openBus ∧
      t.pla.readHandler 0x8000 = .roml ∧ t.pla.vicUltimax = false)) = true := by decide

theorem test_setvicbase : after (exec (.setvicbase 3) s0) (fun t => decide (t.pla.vicAbs 0x0001 = 0xC001)) = true := by
  decide

theorem test_setdmaovr : after (exec (.setdmaovr true) s0) (fun t =>
    after (exec (.setba false) t) fun u =>
      decide (u.rt.stall = false ∧ u.rt.ba = false ∧ u.clk.pending = [2] ∧ u.clk.time 2 = 6)) = true := by decide

/-! ## ROUTER (42_signals.md examples) -/

theorem test_setba_request : after (exec (.setba false) (s0At 20)) (fun t =>
    decide (t.rt.stall = true ∧ t.cpu.rdy = true ∧ t.clk.pending = [2] ∧ t.clk.time 2 = 26 ∧ t.rt.aec = true)) = true := by
  decide

theorem test_aec_release : after (exec .aecRelease (s0At 26)) (fun t => decide (t.rt.aec = false)) = true := by decide

theorem test_setirq_counts : after (exec (.setirq false) { s0 with rt := { s0.rt with irqCount := 2 } }) (fun t =>
    decide (t.rt.irqCount = 1 ∧ t.fault = none)) = true := by decide

theorem test_setirq_underflow : after (exec (.setirq false) s0) (fun t =>
    decide (t.fault = some .irqUnderflow)) = true := by decide

theorem test_setnmi_latch_stays : after (exec (.setnmi false)
    { s0 with rt := { s0.rt with nmiCount := 1 }, cpu := { s0.cpu with nmiFlag := true } }) (fun t =>
    decide (t.rt.nmiCount = 0 ∧ t.cpu.nmiFlag = true)) = true := by decide

/-! ## SEQ (43_sequencer.md examples) -/

theorem test_trigirq : after (exec .trigirq (cpuAt 0xA9 1 (regsAt 0) [])) (fun t =>
    decide (t.cpu.irqPin = true ∧ t.cpu.intCycle = .pendingAt 0x549)) = true := by decide

theorem test_clrirq : after (exec .clrirq { s0 with cpu := { s0.cpu with irqPin := true } }) (fun t =>
    decide (t.cpu.irqPin = false ∧ t.cpu.intCycle = .inProgress)) = true := by decide

theorem test_trignmi_while_delivering : after (exec .trignmi s0) (fun t =>
    decide (t.cpu.nmiFlag = true ∧ t.cpu.intCycle = .inProgress)) = true := by decide

theorem test_clrnmi : after (exec .clrnmi { s0 with cpu := { s0.cpu with nmiFlag := true } }) (fun t =>
    decide (t.cpu.nmiFlag = true)) = true := by decide

theorem test_trigrst : after (exec .trigrst (cpuAt 0xEA 1 (regsAt 0) [])) (fun t =>
    decide (t.cpu.rstFlag = true ∧ t.cpu.intCycle = .pendingAt 0x751)) = true := by decide

theorem test_setrdy_moves_tick : after (exec (.setrdy true)
    { onePending 0 21 with clk := { (onePending 0 21).clk with now := 20 } }) (fun t =>
    decide (t.clk.pending = [1] ∧ t.clk.time 1 = 21 ∧ t.cpu.mode = .stealing)) = true := by decide

theorem test_build : exec .build s0 = .next s0 := rfl

theorem test_tick_ns : after (exec .tickNs { cpuAt 0xEA 0 (regsAt 0xC000) [] with clk := { s0.clk with now := 1 } })
    (fun t => decide (t.cpu.cc = 0x751 ∧ t.clk.pending = [0] ∧ t.clk.time 0 = 3)) = true := by decide

theorem test_tick_st_pauses : after (exec .tickSt
    { s0At 1 with cpu := { s0.cpu with rdy := true, mode := .stealing, cc := slotOf 0x20 1 } }) (fun t =>
    decide (t.cpu.cc = slotOf 0x20 1 ∧ t.hist = [] ∧ t.clk.pending = [1] ∧ t.clk.time 1 = 3)) = true := by decide

theorem test_tick_st_completes_a_write : after (exec .tickSt
    { s0At 1 with cpu := { s0.cpu with rdy := true, mode := .stealing, cc := slotOf 0x20 2 } }) (fun t =>
    decide (t.cpu.cc = slotOf 0x20 3 ∧ t.hist = [.write .ram 0x0100 0])) = true := by decide

/-! ## Opcodes (43_sequencer.md R204 to R209) -/

theorem test_lda_negative : after (exec .ldaImm (cpuAt 0xA9 0 (regsAt 0xC001) [(0xC001, 0x80)])) (fun t =>
    decide (t.cpu.regs.a = 0x80 ∧ t.cpu.regs.flags.n = true ∧ t.cpu.regs.flags.z = false ∧ t.cpu.regs.pc = 0xC002)) =
    true := by decide

theorem test_lda_finish : after (exec .ldaImm (cpuAt 0xA9 1 (regsAt 0xC002) [(0xC002, 0xEA)])) (fun t =>
    decide (t.cpu.cc = 0x750 ∧ t.cpu.regs.pc = 0xC003)) = true := by decide

theorem test_brk_pushes_status : after (exec .brk (cpuAt 0x00 3 { regsAt 0xC002 with sp := 0xFD } [])) (fun t =>
    decide (t.hist = [.write .ram 0x01FD 0x30] ∧ t.cpu.regs.sp = 0xFC)) = true := by decide

theorem test_interrupt_takes_nmi_before_irq : after (exec .brk
    { cpuAt 0x00 4 (regsAt 0) [] with
      cpu := { (cpuAt 0x00 4 (regsAt 0) []).cpu with deliver := true, nmiFlag := true, irqPin := true } }) (fun t =>
    decide (t.hist = [.read .kernal 0xFFFA 0xEA] ∧ t.cpu.nmiFlag = false ∧ t.cpu.regs.flags.i = true)) = true := by decide

theorem test_jsr_pushes_high : after (exec .jsrAbs
    (cpuAt 0x20 2 { regsAt 0xC002 with sp := 0xFF } [])) (fun t =>
    decide (t.hist = [.write .ram 0x01FF 0xC0] ∧ t.cpu.regs.sp = 0xFE)) = true := by decide

theorem test_jsr_jumps : after (exec .jsrAbs
    (cpuAt 0x20 4 { regsAt 0xC002 with tmp := 0x00 } [(0xC002, 0xD0)])) (fun t =>
    decide (t.cpu.regs.pc = 0xD000)) = true := by decide

theorem test_rts_pulls : after (exec .rts
    (cpuAt 0x60 3 { regsAt 0xD000 with sp := 0xFE, tmp := 0x02 } [(0x01FF, 0xC0)])) (fun t =>
    decide (t.cpu.regs.pc = 0xC002 ∧ t.cpu.regs.sp = 0xFF)) = true := by decide

theorem test_nop : after (exec .nop (cpuAt 0xEA 0 (regsAt 0xC001) [])) (fun t =>
    decide (t.cpu.regs = regsAt 0xC001 ∧ t.hist = [.read .ram 0xC001 0])) = true := by decide

/-- Slot 1 of a branch with its condition true, then false: the next slot, or the next opcode's slot 0. -/
def branchTest (i : Instr) (o : Byte) (yes no : Flags) : Bool :=
  after (exec i (cpuAt o 1 { regsAt 0xC0F2 with tmp := 0x10, flags := yes } [])) (fun t =>
    decide (t.cpu.cc = slotOf o 2 ∧ t.cpu.regs.ea = 0xC102 ∧ t.cpu.regs.pc = 0xC002)) &&
  after (exec i (cpuAt o 1 { regsAt 0xC0F2 with tmp := 0x10, flags := no } [])) (fun t =>
    decide (t.cpu.cc = 0 ∧ t.cpu.regs.pc = 0xC0F3))

theorem test_bpl : branchTest .bpl 0x10 Flags.zero { Flags.zero with n := true } = true := by decide
theorem test_bmi : branchTest .bmi 0x30 { Flags.zero with n := true } Flags.zero = true := by decide
theorem test_bvc : branchTest .bvc 0x50 Flags.zero { Flags.zero with v := true } = true := by decide
theorem test_bvs : branchTest .bvs 0x70 { Flags.zero with v := true } Flags.zero = true := by decide
theorem test_bcc : branchTest .bcc 0x90 Flags.zero { Flags.zero with c := true } = true := by decide
theorem test_bcs : branchTest .bcs 0xB0 { Flags.zero with c := true } Flags.zero = true := by decide
theorem test_bne : branchTest .bne 0xD0 Flags.zero { Flags.zero with z := true } = true := by decide
theorem test_beq : branchTest .beq 0xF0 { Flags.zero with z := true } Flags.zero = true := by decide

theorem test_branch_page_fix : after (exec .bcc
    (cpuAt 0x90 2 { regsAt 0xC002 with ea := 0xC102 } [])) (fun t =>
    decide (t.cpu.cc = slotOf 0x90 3 ∧ t.cpu.regs.pc = 0xC102)) = true := by decide

theorem test_rti_pulls_status : after (exec .rti
    (cpuAt 0x40 2 { regsAt 0xD000 with sp := 0xFC } [(0x01FD, 0x84)])) (fun t =>
    decide (t.cpu.regs.flags.n = true ∧ t.cpu.regs.flags.i = true ∧ t.cpu.regs.flags.c = false ∧
      t.cpu.regs.sp = 0xFD)) = true := by decide

theorem test_unmodelled_opcode : after (exec .tickNs
    { cpuAt 0x02 0 (regsAt 0) [] with params := { s0.params with unmodelled := [0x02] } }) (fun t =>
    decide (t.fault = some .microOpUnmodelled)) = true := by decide

/-! ## Witnesses: the hypotheses of each obligation, clause by clause, met together -/

/-- The records of `S0` with five times set. -/
def evWith (t0 t1 t2 t10 t11 : Time) : Vector Time 256 :=
  ((((s0.clk.ev.set 0 t0).set 1 t1).set 2 t2).set 10 t10).set 11 t11

/-- The bus requested at 20, the CPU stalled, an IRQ source up: tick at 21, AEC release at 26, an event at 26. -/
def busy : State :=
  { s0 with
    clk := { now := 20, ev := evWith 0 21 26 26 0, pending := [1, 2, 10] }
    rt := { s0.rt with ba := false, stall := true, irqCount := 1 }
    cpu := { s0.cpu with rdy := true, mode := .stealing, irqPin := true }
    env := { s0.env with cells := [(0x1000, 0x55)] }
    inputs := [{ issuer := .host, word := 0x10000000 }] }

theorem busy_inv : busy.Inv where
  distinct := by decide
  sorted := by decide
  future := by decide
  tickMode := fun _ m => by cases m <;> decide
  tickPhase := fun m => by cases m <;> decide
  modeRdy := by decide
  stallRdy := by decide
  aecRequested := fun _ _ => by decide
  irqLevel := by decide
  memory := by decide
  hostInputs := by decide

/-- The bus at the CPU at the last time an AEC release fits, one place below the walk bound left. -/
def late : State :=
  { s0 with
    clk := { now := 0xFFFFFFFFFFFFFFF9, ev := evWith 0xFFFFFFFFFFFFFFFB 0 0 0xFFFFFFFFFFFFFFFB 0, pending := [0, 10] }
    params := { s0.params with walkBound := 3 } }

theorem late_inv : late.Inv where
  distinct := by decide
  sorted := by decide
  future := by decide
  tickMode := fun _ m => by cases m <;> decide
  tickPhase := fun m => by cases m <;> decide
  modeRdy := by decide
  stallRdy := by decide
  aecRequested := fun _ h => absurd h (by decide)
  irqLevel := by decide
  memory := by decide
  hostInputs := by decide

/-- The CPU alone at slot 0 of an opcode, its tick at time 1, `n` `STEP`s in line. -/
def alone (o : Byte) (n : Nat) (r : Regs) : State :=
  { cpuAt o 0 r [] with
    clk := { now := 0, ev := evWith 1 0 0 0 0, pending := [0] }
    params := { s0.params with walkBound := 1 }
    inputs := stepInputs n }

theorem alone_is_alone (o : Byte) (n : Nat) (r : Regs) : (alone o n r).cpuAlone where
  live := rfl
  idle := rfl
  quiet := ⟨rfl, rfl⟩
  onlyTick := rfl
  mode := rfl
  bound := Nat.one_pos
  noRst := rfl
  noNmi := rfl
  noIrq := rfl
  noPoint := rfl

/-- `S0` with a walk bound and records pending for time 4, two of them, and 6. -/
def three (bound : Nat) : State :=
  { s0 with
    clk := { now := 0, ev := evWith 0 0 6 4 4, pending := [10, 11, 2] }
    params := { s0.params with walkBound := bound } }

theorem witness_DecodeInvertsEncode :
    (Instr.sched 255 0xFFFF .phi2).wf = true ∧ (Instr.extEvent 3).wf = true ∧ Instr.beq.wf = true := by decide

theorem witness_EncodeInvertsDecode :
    decode (.command 0x07FEFFFF) = .ok (.sched 255 0xFFFF .phi2) ∧ decode (.event 3) = .ok (.extEvent 3) ∧
    decode (.opcode 0xF0) = .ok .beq := by decide

theorem witness_DecoderIsMaskAndMatch :
    (∃ row ∈ commandTable, (0x07FEFFFF : CommandWord) &&& row.1 = row.2) ∧
    (∃ row ∈ commandTable, (0x07FFFFFF : CommandWord) &&& row.1 = row.2) := by decide

theorem witness_StepRunsHostCommand : (hostLine s0 0x10000000).fault = none ∧
    (hostLine s0 0x10000000).stepping = none ∧
    (hostLine s0 0x10000000).inputs = { issuer := .host, word := 0x10000000 } :: [] ∧
    decodeCommand 0x10000000 = .ok .step ∧ classFault .host Instr.step.cmdClass = none := by decide

theorem witness_RefusedWordsFault : (hostLine s0 0).fault = none ∧ (hostLine s0 0).stepping = none ∧
    decodeCommand 0 = .error .unassignedOp ∧
    decodeCommand 0x60000000 = .ok .trigirq ∧ Instr.trigirq.cmdClass = .internal ∧ Issuer.host ≠ .block ∧
    decodeCommand 0x10000000 = .ok .step ∧ Instr.step.cmdClass = .host := by decide

theorem witness_FaultIsTerminal : (raise .queueEmpty s0).fault = some .queueEmpty := rfl

theorem witness_StepKeepsInv : busy.Inv ∧ ∃ t, step busy = .next t := ⟨busy_inv, _, rfl⟩

theorem witness_MresetGivesResetValues : decodeCommand 0x18000000 = .ok .mreset ∧
    { s0 with params := { s0.params with walkBound := 1 } }.fault = none ∧
    0 < { s0 with params := { s0.params with walkBound := 1 } }.params.walkBound := by decide

theorem witness_ParametersNeverChange : (∃ t, exec (.setba true) busy = .next t) ∧ ∃ t, step busy = .next t :=
  ⟨⟨_, rfl⟩, _, rfl⟩

theorem witness_TimeIsMonotonic_commands :
    busy.Inv ∧ Instr.step ≠ .clkreset ∧ Instr.step ≠ .mreset ∧ ∃ t, exec .step busy = .next t :=
  ⟨busy_inv, by decide, by decide, _, rfl⟩

theorem witness_TimeIsMonotonic_runnext :
    busy.Inv ∧ busy.fault = none ∧ busy.clk.pending = 1 :: [2, 10] ∧ ∃ t, exec .runnext busy = .next t :=
  ⟨busy_inv, rfl, rfl, _, rfl⟩

theorem witness_TimeIsMonotonic_overflow : (10 : EventId) ∉ (s0At 0xFFFFFFFFFFFFFFFE).clk.pending ∧
    2 ^ 64 ≤ triggerTime (s0At 0xFFFFFFFFFFFFFFFE).clk.now 1 .any := by decide

theorem witness_TriggerTimeFormula : (s0At 0xFFFFFFFFFFFFFFFF).clk.now = 0xFFFFFFFFFFFFFFFF ∧
    5 ∉ (s0At 0xFFFFFFFFFFFFFFFF).clk.pending ∧ 2 ^ 64 ≤ triggerTime 0xFFFFFFFFFFFFFFFF 0 .phi1 := by decide

theorem witness_SchedCommand_external : s0.fault = none ∧ (2 : EventId).toNat < 3 ∧ 3 ≤ (3 : EventId).toNat ∧
    3 ∉ (three 4).clk.pending ∧ (0x7 : Time).toNat = triggerTime (three 4).clk.now (3 : BitVec 16).toNat .phi2 ∧
    (three 4).clk.pending.length < (three 4).params.walkBound := by decide

theorem witness_SchedCommand_internal : 11 ∈ (three 2).clk.pending ∧ 12 ∉ (three 2).clk.pending ∧
    2 ^ 64 ≤ triggerTime (s0At 0xFFFFFFFFFFFFFFFF).clk.now 0 .phi1 ∧
    (4 : Time).toNat = triggerTime (three 2).clk.now 2 .any ∧ (3 : Time).toNat = triggerTime (three 2).clk.now 1 .phi2 ∧
    (three 2).clk.pending.countP (fun j => decide ((three 2).clk.time j ≤ 4)) = 2 ∧ (three 2).params.walkBound ≤ 2 ∧
    (three 2).clk.pending.countP (fun j => decide ((three 2).clk.time j ≤ 3)) = 0 ∧ 0 < (three 2).params.walkBound := by
  decide

theorem witness_SchedPlacesFifo : busy.Inv ∧ busy.fault = none ∧
    ∃ t, exec (.sched 11 3 .any) busy = .next t ∧ t.fault = none := ⟨busy_inv, rfl, _, rfl, rfl⟩

theorem witness_CancelCommand : (three 3).fault = none ∧ (2 : EventId).toNat < 3 ∧ 3 ≤ (10 : EventId).toNat ∧
    10 ∈ (three 3).clk.pending ∧ (three 3).clk.pending.length ≤ (three 3).params.walkBound ∧
    12 ∉ (three 3).clk.pending ∧ 2 ∈ (three 2).clk.pending ∧
    (three 2).params.walkBound ≤ (three 2).clk.pending.idxOf 2 ∧
    (three 3).clk.pending.idxOf 2 < (three 3).params.walkBound := by decide

theorem witness_CancelUndoesSched : s0.fault = none ∧ ∃ t, exec (.sched 3 0 .any) s0 = .next t ∧ t.fault = none :=
  ⟨rfl, _, rfl, rfl⟩

theorem witness_RunnextRunsHeadCallback : s0.fault = none ∧ s0.clk.pending = [] ∧
    (onePending 3 4).fault = none ∧ (onePending 3 4).clk.pending = 3 :: [] ∧ 3 ≤ (3 : EventId).toNat ∧
    (onePending 3 4).env.events = [] := by decide

theorem witness_StepCommandLoops_first : (onePending 3 4).fault = none ∧ (∃ t, exec .runnext (onePending 3 4) = .next t) ∧
    (onePending 3 4).clk.pending = 3 :: [] ∧ 3 ≤ (3 : EventId).toNat ∧ (onePending 3 4).env.events = [] ∧
    s0.fault = none ∧ s0.clk.pending = [] :=
  ⟨rfl, ⟨_, rfl⟩, rfl, by decide, rfl, rfl, rfl⟩

theorem witness_StepCommandLoops_end : { three 3 with stepping := some 3 }.fault = none ∧
    { three 3 with stepping := some 3 }.stepping = some 3 ∧
    ∀ i ∈ { three 3 with stepping := some 3 }.clk.pending.head?, { three 3 with stepping := some 3 }.clk.time i ≠ 3 := by
  decide

theorem witness_StepCommandLoops_more : { three 3 with stepping := some 4 }.fault = none ∧
    { three 3 with stepping := some 4 }.clk.pending.head? = some 10 ∧
    { three 3 with stepping := some 4 }.clk.time 10 = 4 ∧
    ∃ t, exec .runnext { three 3 with stepping := none } = .next t ∧ t.fault = none :=
  ⟨rfl, rfl, by decide, _, rfl, rfl⟩

theorem witness_StepFiresAllOfOneTime : (hostLine (three 3) 0x10000000).fault = none ∧
    (hostLine (three 3) 0x10000000).stepping = none ∧ (hostLine (three 3) 0x10000000).env.events = [] ∧
    ([10, 11] : List EventId) ≠ [] ∧
    (∀ i ∈ ([10, 11] : List EventId), 3 ≤ i.toNat ∧ (hostLine (three 3) 0x10000000).clk.time i = 4) ∧
    (∀ j ∈ ([2] : List EventId).head?, (hostLine (three 3) 0x10000000).clk.time j ≠ 4) ∧
    (hostLine (three 3) 0x10000000).clk.pending = [10, 11] ++ [2] ∧
    (hostLine (three 3) 0x10000000).inputs = { issuer := .host, word := 0x10000000 } :: [] := by decide

/-- An event that schedules itself for the present time at every firing. -/
def zeno : State :=
  { hostLine (onePending 3 4) 0x10000000 with
    env := { s0.env with events := [{ id := 3, words := [0x040C0000], standing := true }] }
    params := { s0.params with walkBound := 1 } }

theorem witness_StepMayNotReturn : zeno.fault = none ∧ zeno.stepping = none ∧ 3 ≤ (3 : EventId).toNat ∧
    zeno.clk.pending = [3] ∧ 0 < zeno.params.walkBound ∧ decodeCommand 0x040C0000 = .ok (.sched 3 0 .any) ∧
    zeno.env.events = [{ id := 3, words := [0x040C0000], standing := true }] ∧
    zeno.inputs = { issuer := .host, word := 0x10000000 } :: [] := by decide

theorem witness_ClkresetCommand : decodeCommand 0x14000000 = .ok .clkreset ∧ busy.fault = none := by decide

theorem witness_OnlyMresetRestartsTheCpu : (∀ m : Mode, m.tick ∉ (hostLine (onePending 3 4) 0x10000000).clk.pending) ∧
    (∃ t, step (hostLine (onePending 3 4) 0x10000000) = .next t) ∧
    ∀ inp ∈ (hostLine (onePending 3 4) 0x10000000).inputs.head?, decodeCommand inp.word ≠ .ok .mreset :=
  ⟨fun m => by cases m <;> decide, ⟨_, rfl⟩, by decide⟩

theorem witness_ExternalEventCallback : s0.fault = none ∧ eventReply 3 s0.env.events = none := by decide

theorem witness_ResponseIsASequenceOfCommands : s0.fault = none ∧
    decodeCommand 0x44000001 = .ok (.setirq true) ∧ (Instr.setirq true).cmdClass = .external ∧
    (∃ t, exec (.setirq true) s0 = .next t) ∧ decodeCommand 0 = .error .unassignedOp ∧
    decodeCommand 0x10000000 = .ok .step ∧ Instr.step.cmdClass = .host ∧
    decodeCommand 0x60000000 = .ok .trigirq ∧ Instr.trigirq.cmdClass = .internal :=
  ⟨rfl, by decide, by decide, ⟨_, rfl⟩, by decide, by decide, by decide, by decide, by decide⟩

theorem witness_CpuReadCommand : s0.fault = none ∧ cpuReadMap s0.pla.mode ((0xFFFF : Addr).extractLsb' 12 4) = .kernal ∧
    s0.env.calls = [] := by decide

theorem witness_CpuWriteCommand : s0.fault = none ∧ cpuWriteMap s0.pla.mode ((0xFFFF : Addr).extractLsb' 12 4) = .ram ∧
    s0.env.calls = [] := by decide

theorem witness_RamStoreThenLoad : s0.fault = none ∧ s0.env.calls = [] ∧ s0.pla.writeHandler 0xFFFF = .ram ∧
    s0.pla.writeHandler 0 = .ram ∧ s0.pla.readHandler 0 = .ram := by decide

theorem witness_VicReads : s0.fault = none ∧ (3 : BitVec 2) ++ (0x3FFF : VicAddr) = 0xFFFF ∧ s0.rt.aec = true ∧
    { s0 with rt := { s0.rt with aec := false } }.rt.aec = false := by decide

theorem witness_BankLineCommands : busy.fault = none := rfl

theorem witness_BankMaps :
    { s0.pla with game2 := false }.exrom2 = true ∧ { s0.pla with game2 := false }.game2 = false ∧
    (1 ≤ (1 : BitVec 4).toNat ∧ (1 : BitVec 4).toNat ≤ 7) ∧ (10 ≤ (12 : BitVec 4).toNat ∧ (12 : BitVec 4).toNat ≤ 12) ∧
    ({ s0.pla with game1 := false }.exrom1 = true ∧ { s0.pla with game1 := false }.game1 = false) ∧
    ¬(s0.pla.exrom1 = true ∧ s0.pla.game1 = false) := by decide

/-- A handler that answers a write of `$0001` by banking the ROMs out. -/
def remapping : State :=
  { s0 with env := { s0.env with calls := [{ key := .write .ram 0x0001, byte := none, words := [0x30000000] }] } }

theorem witness_RemappingActsAtTheNextAccess : remapping.fault = none ∧
    decodeCommand 0x30000000 = .ok (.setport false false false) ∧
    remapping.env.calls =
      { key := .write (remapping.pla.writeHandler 0x0001) 0x0001, byte := none, words := [0x30000000] } :: [] := by decide

theorem witness_SetbaRequestsTheBus : busy.fault = none ∧ busy.rt.ba = false ∧ late.fault = none ∧ late.Inv ∧
    late.rt.ba = true ∧ late.clk.now.toNat + 6 < 2 ^ 64 ∧ late.clk.pending.length < late.params.walkBound :=
  ⟨rfl, rfl, rfl, late_inv, rfl, by decide, by decide⟩

theorem witness_SetbaHandsTheBusBack : late.fault = none ∧ late.rt.ba = true ∧ busy.fault = none ∧ busy.Inv ∧
    busy.rt.ba = false ∧ busy.clk.pending.length < busy.params.walkBound :=
  ⟨rfl, rfl, rfl, busy_inv, rfl, by decide⟩

theorem witness_AecReleaseCallback : busy.fault = none := rfl

theorem witness_SetirqCounts : s0.fault = none ∧ s0.rt.irqCount = 0 ∧ busy.fault = none ∧ busy.rt.irqCount = 0 + 1 ∧
    { s0 with rt := { s0.rt with irqCount := 2 } }.rt.irqCount = 0 + 2 := by decide

theorem witness_SetnmiCounts : s0.fault = none ∧ s0.rt.nmiCount = 0 ∧
    { s0 with rt := { s0.rt with nmiCount := 1 } }.rt.nmiCount = 0 + 1 := by decide

theorem witness_SeqEntryPoints : s0.fault = none ∧ decodeCommand 0x78000000 = .ok .build ∧
    decodeCommand 0x70000000 = .ok .trigrst ∧ (cpuAt 0xEA 1 Regs.zero []).cpu.intCycle = .none ∧
    s0.cpu.intCycle ≠ .none := by decide

theorem witness_SetrdyMovesTheTick : busy.fault = none ∧ modeOf true = busy.cpu.mode ∧
    s0.fault = none ∧ modeOf true ≠ s0.cpu.mode ∧ s0.cpu.mode.tick ∉ s0.clk.pending ∧ busy.Inv ∧
    modeOf false ≠ busy.cpu.mode ∧ busy.cpu.mode.tick ∈ busy.clk.pending ∧
    busy.clk.pending.length ≤ busy.params.walkBound :=
  ⟨rfl, by decide, rfl, by decide, by decide, busy_inv, by decide, by decide, by decide⟩

theorem witness_TickRunsOpcodeSlot : (cpuAt 0xEA 0 Regs.zero []).fault = none ∧
    decodeOpcode (slotOpcode (cpuAt 0xEA 0 Regs.zero []).cpu.cc) = .ok .nop ∧
    (∃ u, exec .nop (cpuAt 0xEA 0 Regs.zero []) = .next u) ∧
    decodeOpcode (slotOpcode (cpuAt 0x02 0 Regs.zero []).cpu.cc) = .error .unnamedOpcode ∧
    slotOpcode (cpuAt 0x02 0 Regs.zero []).cpu.cc ∈ ([0x02] : List Byte) ∧ (s0At 1).clk.now.toNat % 2 = 1 :=
  ⟨rfl, by decide, ⟨_, rfl⟩, by decide, by decide, by decide⟩

/-- A stalled CPU at a slot, at the last odd time from which a tick still fits. -/
def stalled (o : Byte) (k : BitVec 3) : State :=
  { s0At 0xFFFFFFFFFFFFFFFD with cpu := { s0.cpu with rdy := true, mode := .stealing, cc := slotOf o k } }

theorem witness_StalledTickPauses : s0.fault = none ∧ s0.cpu.rdy = false ∧ noSteal (stalled 0x00 1).cpu.cc = true ∧
    (stalled 0x20 1).fault = none ∧ (stalled 0x20 1).cpu.rdy = true ∧ noSteal (stalled 0x20 1).cpu.cc = false ∧
    (stalled 0x20 1).cpu.mode = .stealing ∧ Config.tickStId ∉ (stalled 0x20 1).clk.pending ∧
    (stalled 0x20 1).clk.now.toNat % 2 = 1 ∧ (stalled 0x20 1).clk.now.toNat + 2 < 2 ^ 64 ∧
    (stalled 0x20 1).clk.pending.length < (stalled 0x20 1).params.walkBound := by decide

theorem witness_NoStealSlots : decodeOpcode 0x20 = .ok .jsrAbs ∧ Instr.jsrAbs ≠ .rti ∧
    decodeOpcode 0xFF = .error .unnamedOpcode := by decide

theorem witness_OpcodeRunsItsOwnSlots : decodeOpcode 0xA9 = .ok .ldaImm ∧
    (Instr.ldaImm, (0xA9 : Byte), (1 : BitVec 3)) ∈ finishSlots ∧ (1 : BitVec 3) < 2 ∧
    (Instr.brk, (0x00 : Byte), (6 : BitVec 3)) ∈ finishSlots ∧ (6 : BitVec 3) < 7 ∧
    (cpuAt 0x00 7 Regs.zero []).fault = none ∧ (cpuAt 0x00 7 Regs.zero []).cpu.cc = slotOf 0x00 7 := by decide

theorem witness_OpcodeRunsItsOwnSlots_open : decodeOpcode 0xFF = .error .unnamedOpcode ∧
    0xFF ∉ (cpuAt 0xFF 6 Regs.zero []).params.unmodelled ∧ (cpuAt 0xFF 6 Regs.zero []).cpu.cc = slotOf 0xFF 6 ∧
    (6 : BitVec 3) ≠ 7 := by decide

/-- RTS at its finish slot with an NMI latched and a delivery point. -/
def finishing (n : Slot) (early : Bool) (carry : Config.InterruptCarry) : State :=
  { cpuAt 0x60 5 Regs.zero [] with
    cpu := { (cpuAt 0x60 5 Regs.zero []).cpu with nmiFlag := true, intCycle := .pendingAt n, intEarlier := early }
    params := { s0.params with interruptCarry := carry } }

theorem rts_at_finish (n : Slot) (early : Bool) (carry : Config.InterruptCarry) :
    (finishing n early carry).atFinish .rts := .inl ⟨0x60, 5, by decide, rfl⟩

theorem witness_FinishFetchesTheNextOpcode :
    (finishing (slotOf 0x60 3) true .literal).fault = none ∧ (finishing (slotOf 0x60 3) true .literal).atFinish .rts ∧
    ∀ n, (finishing (slotOf 0x60 3) true .literal).cpu.reevaluated.intCycle = .pendingAt n →
      (finishing (slotOf 0x60 3) true .literal).cpu.cc.toNat ≤ n.toNat + 2 ∧
      ¬((finishing (slotOf 0x60 3) true .literal).cpu.reevaluated.intEarlier = true ∧
        (finishing (slotOf 0x60 3) true .literal).params.interruptCarry = .elapsed) :=
  ⟨rfl, rts_at_finish _ _ _, by
    intro n h
    have h : IntCycle.pendingAt (slotOf 0x60 3) = .pendingAt n := h
    cases h
    decide⟩

/-- An opcode of the open table at its finish slot, whichever that is, with an NMI latched as said and a point or none. -/
def openFinishing (nmi : Bool) (p : IntCycle) : State :=
  { s0 with
    cpu := { s0.cpu with
      cc := slotOf 0xFF (Config.microOps 0xFF).finishSlot, rstFlag := false, deliver := false, nmiFlag := nmi,
      intCycle := p } }

theorem open_at_finish (nmi : Bool) (p : IntCycle) : (openFinishing nmi p).atOpenFinish :=
  ⟨0xFF, .unnamedOpcode, by decide, List.not_mem_nil, rfl⟩

theorem witness_FinishFetchesTheNextOpcode_open :
    (openFinishing false .none).fault = none ∧ (openFinishing false .none).atOpenFinish ∧
    ∀ n, (openFinishing false .none).cpu.reevaluated.intCycle ≠ .pendingAt n :=
  ⟨rfl, open_at_finish _ _, by intro n h; cases h⟩

theorem witness_FinishTakesADueInterrupt_open :
    (openFinishing true (.pendingAt 0)).fault = none ∧ (openFinishing true (.pendingAt 0)).atOpenFinish ∧
    (openFinishing true (.pendingAt 0)).cpu.intCycle = .pendingAt 0 ∧
    (openFinishing true (.pendingAt 0)).cpu.nmiFlag = true ∧
    (0 : Slot).toNat + 2 < (openFinishing true (.pendingAt 0)).cpu.cc.toNat :=
  ⟨rfl, open_at_finish _ _, rfl, rfl, by
    have each : ∀ k : BitVec 3, (0 : Slot).toNat + 2 < (slotOf 0xFF k).toNat := by decide
    exact each _⟩

theorem witness_atFinish_branches :
    (cpuAt 0x10 1 { Regs.zero with flags := { Flags.zero with n := true } } []).atFinish .bpl ∧
    (cpuAt 0xF0 2 Regs.zero []).atFinish .beq :=
  ⟨.inr (.inl ⟨0x10, by decide, rfl, rfl⟩), .inr (.inr ⟨0xF0, by decide, rfl, rfl, rfl⟩)⟩

theorem witness_FinishTakesADueInterrupt :
    (finishing (slotOf 0x60 2) false .literal).fault = none ∧ (finishing (slotOf 0x60 2) false .literal).atFinish .rts ∧
    (finishing (slotOf 0x60 2) false .literal).cpu.intCycle = .pendingAt (slotOf 0x60 2) ∧
    (finishing (slotOf 0x60 2) false .literal).cpu.nmiFlag = true ∧
    (slotOf 0x60 2).toNat + 2 < (finishing (slotOf 0x60 2) false .literal).cpu.cc.toNat ∧
    (finishing 0x7FF true .elapsed).params.interruptCarry = .elapsed ∧
    (finishing 0x7FF true .elapsed).cpu.intEarlier = true :=
  ⟨rfl, rts_at_finish _ _ _, rfl, rfl, by decide, rfl, rfl⟩

/-- Slot by slot, a CPU at the named slot in a machine without a fault. -/
def reaches (o : Byte) (n : Nat) : Bool :=
  (List.range n).all fun k =>
    decide ((cpuAt o (BitVec.ofNat 3 k) Regs.zero []).fault = none ∧
      (cpuAt o (BitVec.ofNat 3 k) Regs.zero []).cpu.cc = slotOf o (BitVec.ofNat 3 k))

theorem witness_BrkAndInterruptSlots : reaches 0x00 6 = true := by decide
theorem witness_RtiSlots : reaches 0x40 5 = true := by decide
theorem witness_LdaAndNopSlots : reaches 0xA9 1 = true ∧ reaches 0xEA 1 = true := by decide
theorem witness_JsrAndRtsSlots : reaches 0x20 5 = true ∧ reaches 0x60 5 = true := by decide

theorem witness_BranchSlots : (Instr.beq, (0xF0 : Byte)) ∈ branchBytes ∧ reaches 0xF0 3 = true ∧
    branchCond 0xF0 { Flags.zero with z := true } = true ∧
    (0x00FF : Addr).extractLsb' 8 8 ≠ (0x0100 : Addr).extractLsb' 8 8 ∧
    { s0 with params := { s0.params with branchDeferCase := .noPageCross } }.params.branchDeferCase = .noPageCross ∧
    (cpuAt 0xF0 2 Regs.zero []).cpu.regs.ea.extractLsb' 8 8 = (cpuAt 0xF0 2 Regs.zero []).cpu.regs.pc.extractLsb' 8 8 := by
  decide

theorem witness_AddWithCarry : (0x7F : Byte) ^^^ 0xFF = 0x80 ∧ Regs.zero.flags.d = false ∧
    { Flags.zero with d := true }.d = true ∧ (cpuAt 0x69 6 Regs.zero []).cpu.cc = slotOf 0x69 6 ∧ (6 : BitVec 3) ≠ 7 ∧
    0 = cpuReadByte 0x1000 (cpuAt 0x69 6 Regs.zero []) := by decide

theorem witness_StraightLineCycleCounts :
    ((0x00 : Byte), 7) ∈ [((0xA9 : Byte), 2), (0xEA, 2), (0x20, 6), (0x60, 6), (0x40, 6), (0x00, 7)] ∧
    (alone 0x00 7 Regs.zero).cpuAlone ∧ (alone 0x00 7 Regs.zero).cpu.cc = slotOf 0x00 0 ∧
    (alone 0x00 7 Regs.zero).cpu.deliver = false ∧ (alone 0x00 7 Regs.zero).inputs = stepInputs 7 ++ [] ∧
    (alone 0x00 7 Regs.zero).tickTime % 2 = 1 ∧ (alone 0x00 7 Regs.zero).tickTime + 2 * 7 < 2 ^ 64 :=
  ⟨by decide, alone_is_alone _ _ _, rfl, rfl, rfl, by decide, by decide⟩

/-- BEQ not taken. -/
theorem witness_BranchCycleCounts_not_taken :
    (Instr.beq, (0xF0 : Byte)) ∈ branchBytes ∧ (alone 0xF0 2 Regs.zero).cpuAlone ∧
    (alone 0xF0 2 Regs.zero).cpu.cc = slotOf 0xF0 0 ∧ (alone 0xF0 2 Regs.zero).cpu.deliver = false ∧
    (alone 0xF0 2 Regs.zero).inputs = stepInputs 2 ++ [] ∧ (alone 0xF0 2 Regs.zero).tickTime % 2 = 1 ∧
    (alone 0xF0 2 Regs.zero).tickTime + 2 * 2 < 2 ^ 64 ∧
    (0 : Byte) = cpuReadByte (alone 0xF0 2 Regs.zero).cpu.regs.pc (alone 0xF0 2 Regs.zero) ∧
    ((1 : Addr), 2) = (if branchCond 0xF0 (alone 0xF0 2 Regs.zero).cpu.regs.flags = false then (1, 2)
      else if (1 : Addr).extractLsb' 8 8 = (1 : Addr).extractLsb' 8 8 then (1, 3) else (1, 4)) :=
  ⟨by decide, alone_is_alone _ _ _, rfl, rfl, rfl, by decide, by decide, by decide, by decide⟩

/-- BNE taken to the next instruction itself. -/
theorem witness_BranchCycleCounts_same_page :
    (Instr.bne, (0xD0 : Byte)) ∈ branchBytes ∧ (alone 0xD0 3 Regs.zero).cpuAlone ∧
    (alone 0xD0 3 Regs.zero).inputs = stepInputs 3 ++ [] ∧
    (alone 0xD0 3 Regs.zero).tickTime + 2 * 3 < 2 ^ 64 ∧
    (0 : Byte) = cpuReadByte (alone 0xD0 3 Regs.zero).cpu.regs.pc (alone 0xD0 3 Regs.zero) ∧
    ((1 : Addr), 3) = (if branchCond 0xD0 (alone 0xD0 3 Regs.zero).cpu.regs.flags = false then (1, 2)
      else if (1 : Addr).extractLsb' 8 8 = (1 : Addr).extractLsb' 8 8 then (1, 3) else (1, 4)) :=
  ⟨by decide, alone_is_alone _ _ _, rfl, by decide, by decide, by decide⟩

/-- BNE at `$00FD` with offset 1, taken to the first byte of the next page. -/
def crossing : State :=
  { alone 0xD0 4 (regsAt 0x00FE) with env := { s0.env with cells := [(0x00FE, 0x01)] } }

theorem witness_BranchCycleCounts_page_cross :
    crossing.cpuAlone ∧ crossing.cpu.cc = slotOf 0xD0 0 ∧ crossing.inputs = stepInputs 4 ++ [] ∧
    crossing.tickTime + 2 * 4 < 2 ^ 64 ∧ (1 : Byte) = cpuReadByte crossing.cpu.regs.pc crossing ∧
    crossing.cpu.regs.pc + 1 = 0x00FF ∧ (0x00FF : Addr) + (1 : Byte).signExtend 16 = 0x0100 ∧
    ((0x0100 : Addr), 4) = (if branchCond 0xD0 crossing.cpu.regs.flags = false then (0x00FF, 2)
      else if (0x0100 : Addr).extractLsb' 8 8 = (0x00FF : Addr).extractLsb' 8 8 then (0x0100, 3) else (0x0100, 4)) :=
  ⟨{ alone_is_alone 0xD0 4 (regsAt 0x00FE) with quiet := ⟨rfl, rfl⟩ }, rfl, rfl, by decide, by decide, by decide,
    by decide, by decide⟩

/-- The host's line of a power-on: `MRESET`, then seven `STEP`s. -/
def powerOn : State := { s0 with inputs := { issuer := .host, word := 0x18000000 } :: (stepInputs 7 ++ []) }

theorem witness_PowerOnSequence : powerOn.fault = none ∧ powerOn.stepping = none ∧ powerOn.quiet ∧
    0 < powerOn.params.walkBound ∧
    powerOn.inputs = { issuer := .host, word := 0x18000000 } :: (stepInputs 7 ++ []) ∧
    ∃ p, p = nextDraw powerOn.env := ⟨rfl, rfl, ⟨rfl, rfl⟩, by decide, rfl, _, rfl⟩

theorem witness_ExternalCommandsKeepTheCpu : (Instr.setba true).cmdClass = .external ∧
    ∃ t, exec (.setba true) busy = .next t := ⟨rfl, _, rfl⟩

theorem witness_HistoryOnlyGrows : Instr.step ≠ .mreset ∧ ∃ t, exec .step busy = .next t := ⟨by decide, _, rfl⟩

/-- Slot 4 of an NMI's sequence, its tick first in line and a `STEP` asked for. -/
def vectoring : State :=
  { alone 0x00 1 Regs.zero with
    cpu := { (alone 0x00 1 Regs.zero).cpu with
      cc := slotOf 0x00 4, deliver := true, intCycle := .inProgress, nmiFlag := true } }

theorem witness_NmiLatchedUntilServiced : vectoring.cpu.nmiFlag = true ∧
    after (step vectoring) (fun t => decide (t.cpu.nmiFlag = false)) = true := by decide

/-- A finish slot with an NMI due, its tick first in line and a `STEP` asked for. -/
def redirecting : State :=
  { alone 0x60 1 Regs.zero with
    cpu := { (alone 0x60 1 Regs.zero).cpu with
      cc := slotOf 0x60 5, intCycle := .pendingAt (slotOf 0x60 2), nmiFlag := true } }

theorem witness_InterruptsBeginBetweenInstructions : redirecting.cpu.deliver = false ∧
    after (step redirecting) (fun t => decide (t.cpu.deliver = true)) = true := by decide

theorem witness_MemoryChangesOnlyByRecordedWrites : after (step (hostLine s0 0x24121000)) (fun t =>
      decide (t.fault = none ∧ HistEntry.write .ram 0x1000 0x12 ∈ t.hist ∧ HistEntry.write .ram 0x1001 0x12 ∉ t.hist)) =
      true := by decide

theorem witness_CpuAloneKeepsTheLines : s0.env.calls = [] ∧ Instr.nop.cmdClass = .opcode ∧
    (∃ t, exec .tickNs (cpuAt 0x00 1 Regs.zero []) = .next t) ∧ ∃ t, exec .nop (cpuAt 0xEA 0 Regs.zero []) = .next t :=
  ⟨rfl, rfl, ⟨_, rfl⟩, _, rfl⟩

end Sys2Proof.Tests
end

section
/-! The step of a live machine by what its first input comes to (00_scope.md R14, 30_encoding.md R97). -/

namespace Sys2Proof.Machine

/-- An input passes the check just when its word decodes and its issuer may issue the class (30_encoding.md R97). -/
theorem checkInput_eq_ok_iff {inp : Input} {i : Instr} :
    checkInput inp = .ok i ↔ decodeCommand inp.word = .ok i ∧ classFault inp.issuer i.cmdClass = none := by
  unfold checkInput
  cases decodeCommand inp.word with
  | error r => simp
  | ok j =>
    simp only [Except.ok.injEq]
    cases hclass : classFault inp.issuer j.cmdClass with
    | some f =>
      simp only [reduceCtorEq, false_iff, not_and]
      rintro rfl
      simp [hclass]
    | none =>
      simp only [Except.ok.injEq, iff_self_and]
      rintro rfl
      exact hclass

/-- A live machine with no `STEP` running runs the first input that passes the check, the input consumed. -/
theorem step_of_checkInput_eq_ok {s : State} {inp : Input} {rest : List Input} {i : Instr} (hfault : s.fault = none)
    (hstepping : s.stepping = none) (hinputs : s.inputs = inp :: rest) (hcheck : checkInput inp = .ok i) :
    step s = exec i { s with inputs := rest } := by
  simp only [step, hfault, hstepping, hinputs, hcheck]

/-- Settles O5: an input that decodes to an instruction its issuer may issue passes the check, and the step runs it. -/
theorem stepRunsHostCommand : Obligations.StepRunsHostCommand := by
  intro s inp rest i hfault hstepping hinputs hdecode hclass
  exact step_of_checkInput_eq_ok hfault hstepping hinputs (checkInput_eq_ok_iff.mpr ⟨hdecode, hclass⟩)

end Sys2Proof.Machine
end

section
/-! What an instruction does to a live machine, and what a step can be (00_scope.md R14; 60_exceptions.md R220). -/

namespace Sys2Proof.Machine

/-- The change an instruction makes to a live machine: an external command's is `externalOp`, run with the responses of
the state. -/
def effect (i : Instr) (s : State) : State :=
  match i with
  | .runnext => runNext s
  | .step => stepFirst s
  | .clkreset => clkReset s
  | .mreset => machineReset s
  | .trigrst => trigRst s
  | .build => s
  | .trigirq => trigIrq s
  | .clrirq => clrIrq s
  | .trignmi => trigNmi s
  | .clrnmi => clrNmi s
  | .setrdy b => setRdy b s
  | .tickNs => tickNs s
  | .tickSt => tickSt s
  | .aecRelease => aecRelease s
  | .extEvent id => fireExternal id s
  | .ldaImm => opcodeSlot 0xA9 s
  | .brk => opcodeSlot 0x00 s
  | .jsrAbs => opcodeSlot 0x20 s
  | .rts => opcodeSlot 0x60 s
  | .nop => opcodeSlot 0xEA s
  | .bpl => opcodeSlot 0x10 s
  | .bmi => opcodeSlot 0x30 s
  | .bvc => opcodeSlot 0x50 s
  | .bvs => opcodeSlot 0x70 s
  | .bcc => opcodeSlot 0x90 s
  | .bcs => opcodeSlot 0xB0 s
  | .bne => opcodeSlot 0xD0 s
  | .beq => opcodeSlot 0xF0 s
  | .rti => opcodeSlot 0x40 s
  | i => externalOp s.responder i s

/-- Every instruction is its effect, which a faulted machine does not have (60_exceptions.md R220). -/
theorem exec_eq_effect (i : Instr) (s : State) : exec i s = .next (s.andThen (effect i)) := by
  cases i <;> rfl

theorem exec_live (i : Instr) {s : State} (h : s.fault = none) : exec i s = .next (effect i s) := by
  rw [exec_eq_effect, andThen_live h]

/-- What an instruction can do: nothing in a faulted machine, its effect in a live one. -/
theorem exec_cases {i : Instr} {s t : State} (h : exec i s = .next t) :
    (s.fault ≠ none ∧ t = s) ∨ (s.fault = none ∧ t = effect i s) := by
  rw [exec_eq_effect] at h
  cases h
  exact (andThen_cases s (effect i)).symm

theorem effect_external {i : Instr} (h : i.cmdClass = .external) (s : State) :
    effect i s = externalOp s.responder i s := by
  cases i <;> cases h <;> rfl

theorem effect_opcode {i : Instr} (h : i.cmdClass = .opcode) : ∃ o, ∀ s, effect i s = opcodeSlot o s := by
  cases i <;> cases h <;> exact ⟨_, fun _ => rfl⟩

/-- Who may issue which class at top level (30_encoding.md R97). -/
theorem classFault_eq_none {issuer : Issuer} {c : CmdClass} (h : classFault issuer c = none) :
    c = .external ∨ c = .host ∨ (c = .internal ∧ issuer = .block) := by
  cases c <;> simp_all [classFault]

/-- What a step can be. -/
inductive StepCase (s : State) : State → Prop where
  /-- A faulted machine, or one with nothing to do. -/
  | idle : StepCase s s
  /-- A running `STEP` goes on. -/
  | more (hf : s.fault = none) (x : Time) (hx : s.stepping = some x) : StepCase s (stepMore x s)
  /-- The first input is refused. -/
  | refused (rest : List Input) (f : FaultCode) (inp : Input) (hin : s.inputs = inp :: rest) :
      StepCase s (raise f { s with inputs := rest })
  /-- The first input runs. -/
  | runs (hf : s.fault = none) (rest : List Input) (inp : Input) (i : Instr) (hin : s.inputs = inp :: rest)
      (hd : decodeCommand inp.word = .ok i) (hc : classFault inp.issuer i.cmdClass = none) :
      StepCase s (effect i { s with inputs := rest })

theorem step_faulted {s : State} {f : FaultCode} (h : s.fault = some f) : step s = .next s := by
  simp only [step, h]

theorem step_stepping {s : State} {x : Time} (hf : s.fault = none) (hx : s.stepping = some x) :
    step s = .next (stepMore x s) := by
  simp only [step, hf, hx]

theorem step_of_checkInput_eq_error {s : State} {inp : Input} {rest : List Input} {f : FaultCode}
    (hfault : s.fault = none) (hstepping : s.stepping = none) (hinputs : s.inputs = inp :: rest)
    (hcheck : checkInput inp = .error f) : step s = .next (raise f { s with inputs := rest }) := by
  simp only [step, hfault, hstepping, hinputs, hcheck]

theorem step_cases {s t : State} (h : step s = .next t) : StepCase s t := by
  cases hf : s.fault with
  | some f =>
    rw [step_faulted hf] at h
    cases h
    exact .idle
  | none =>
    cases hx : s.stepping with
    | some x =>
      rw [step_stepping hf hx] at h
      cases h
      exact .more hf x hx
    | none =>
      cases hin : s.inputs with
      | nil =>
        simp only [step, hf, hx, hin, Host.Outcome.next.injEq] at h
        exact h ▸ .idle
      | cons inp rest =>
        cases hc : checkInput inp with
        | error f =>
          rw [step_of_checkInput_eq_error hf hx hin hc] at h
          cases h
          exact .refused rest f inp hin
        | ok i =>
          obtain ⟨hd, hcl⟩ := checkInput_eq_ok_iff.mp hc
          rw [step_of_checkInput_eq_ok hf hx hin hc, exec_live i (s := { s with inputs := rest }) hf] at h
          cases h
          exact .runs hf rest inp i hin hd hcl

/-- Settles O7: neither an instruction's effect nor a step's command runs in a faulted machine. -/
theorem faultIsTerminal : Obligations.FaultIsTerminal := by
  refine ⟨rfl, fun s f h => ⟨fun i => ?_, step_faulted h⟩⟩
  rw [exec_eq_effect, andThen_faulted h]

end Sys2Proof.Machine
end

section
/-! Running the head event: its callback, `RUNNEXT` and the loop of `STEP` (40_clock.md R124, R125, R128). -/

namespace Sys2Proof.Machine

/-- The callback of an id that is not the block's (30_encoding.md R98, R100). -/
theorem decodeEvent_external {i : EventId} (h : 3 ≤ i.toNat) : decodeEvent i = .extEvent i := by
  unfold decodeEvent
  split
  · omega
  · omega
  · omega
  · rfl

/-- Running a callback is the meaning of its instruction. -/
theorem effect_decodeEvent (i : EventId) (s : State) : effect (decodeEvent i) s = callback i s := by
  unfold callback
  by_cases h : 3 ≤ i.toNat
  · rw [decodeEvent_external h]
    rfl
  · have : i = 0 ∨ i = 1 ∨ i = 2 := by bv_omega
    obtain rfl | rfl | rfl := this <;> rfl

theorem callback_external {i : EventId} (h : 3 ≤ i.toNat) (s : State) : callback i s = fireExternal i s := by
  rw [← effect_decodeEvent, decodeEvent_external h]
  rfl

/-- A firing without a reply leaves its record only (log 4). -/
theorem fireExternal_noReply {i : EventId} {s : State} (h : eventReply i s.env.events = none) :
    fireExternal i s = s.record (.fire i s.clk.now) := by
  simp [fireExternal, eventRepliesLeft, eventWords, h, State.responder, State.record]

/-- Settles O24: the callback is `fireExternal`, which records and then responds. -/
theorem externalEventCallback : Obligations.ExternalEventCallback := by
  rintro i s t hf rfl
  refine ⟨exec_live (.extEvent i) hf, fun hr => ?_⟩
  rw [exec_live _ hf]
  exact congrArg _ (fireExternal_noReply hr)

theorem popHead_of_pending {i : EventId} {rest : List EventId} {s : State} (h : s.clk.pending = i :: rest) :
    popHead i s = { s with clk := { now := s.clk.time i, ev := s.clk.ev, pending := rest } } := by
  simp [popHead, Clk.unlink, h]

theorem runNext_nil {s : State} (h : s.clk.pending = []) : runNext s = raise .queueEmpty s := by
  simp only [runNext, h]

theorem runNext_cons {i : EventId} {rest : List EventId} {s : State} (h : s.clk.pending = i :: rest) :
    runNext s = callback i { s with clk := { now := s.clk.time i, ev := s.clk.ev, pending := rest } } := by
  rw [← popHead_of_pending h]
  simp only [runNext, h]

/-- `RUNNEXT` of an external event without a reply leaves one `Fire` entry (log 4). -/
theorem runNext_external {i : EventId} {rest : List EventId} {s : State} (h : s.clk.pending = i :: rest)
    (hi : 3 ≤ i.toNat) (he : s.env.events = []) :
    runNext s = { s with
      clk := { now := s.clk.time i, ev := s.clk.ev, pending := rest }
      hist := s.hist ++ [.fire i (s.clk.time i)] } := by
  rw [runNext_cons h, callback_external hi, fireExternal_noReply (by simp [he, eventReply])]
  rfl

/-- Settles O18: `RUNNEXT` is the head's callback in the popped state. -/
theorem runnextRunsHeadCallback : Obligations.RunnextRunsHeadCallback := by
  intro s hf
  have hr : exec .runnext s = .next (runNext s) := exec_live .runnext hf
  refine ⟨fun h => by rw [hr, runNext_nil h], fun i rest h => ⟨?_, fun hi he => ?_⟩⟩
  · rw [hr, runNext_cons h, exec_live _ (by exact hf), effect_decodeEvent]
  · rw [hr, runNext_external h hi he]

theorem moreAt_iff (c : Clk) (x : Time) : c.moreAt x = true ↔ ∃ i ∈ c.pending.head?, c.time i = x := by
  unfold Clk.moreAt
  cases c.pending <;> simp

theorem loopAt_more {x : Time} {s : State} (h : ∃ i ∈ s.clk.pending.head?, s.clk.time i = x) :
    loopAt x s = { s with stepping := some x } := by
  simp only [loopAt, (moreAt_iff s.clk x).mpr h, if_true]

theorem loopAt_ends {x : Time} {s : State} (h : ¬∃ i ∈ s.clk.pending.head?, s.clk.time i = x) :
    loopAt x s = { s with stepping := none } := by
  simp [loopAt, mt (moreAt_iff s.clk x).mp h]

theorem stepFirst_faulted {s : State} (h : (runNext s).fault ≠ none) : stepFirst s = runNext s := by
  obtain ⟨f, h⟩ := Option.ne_none_iff_exists'.mp h
  exact andThen_faulted h _

theorem stepFirst_live {s : State} (h : (runNext s).fault = none) :
    stepFirst s = loopAt (runNext s).clk.now (runNext s) :=
  andThen_live h _

/-- A running `STEP` with nothing more at its time ends (40_clock.md R125). -/
theorem stepMore_ends {x : Time} {s : State} (h : ¬∃ i ∈ s.clk.pending.head?, s.clk.time i = x) :
    stepMore x s = { s with stepping := none } :=
  if_neg (mt (moreAt_iff s.clk x).mp h)

/-- A running `STEP` with an event at its time runs it (40_clock.md R125). -/
theorem stepMore_goesOn {x : Time} {s : State} (h : ∃ i ∈ s.clk.pending.head?, s.clk.time i = x) :
    stepMore x s = (runNext { s with stepping := none }).andThen (loopAt x) :=
  if_pos ((moreAt_iff s.clk x).mpr h)

/-- Settles O19: `STEP` and each step of its loop are a `RUNNEXT` followed by `loopAt`. -/
theorem stepCommandLoops : Obligations.StepCommandLoops := by
  have hstep : ∀ s : State, s.fault = none → exec .step s = .next (stepFirst s) := fun s hf => exec_live .step hf
  have hrun : ∀ s t : State, s.fault = none → exec .runnext s = .next t → runNext s = t := fun s t hf h => by
    rw [exec_live .runnext hf] at h
    exact Host.Outcome.next.inj h
  refine ⟨?first, ?external, ?empty, ?ends, ?goesOn⟩
  case first =>
    intro s t hf h
    obtain rfl := hrun s t hf h
    rw [hstep s hf]
    by_cases hl : (runNext s).fault = none
    · by_cases hm : ∃ i ∈ (runNext s).clk.pending.head?, (runNext s).clk.time i = (runNext s).clk.now
      · rw [stepFirst_live hl, loopAt_more hm, if_pos ⟨hl, hm⟩]
      · rw [stepFirst_live hl, loopAt_ends hm, if_neg fun h => hm h.2, if_pos hl]
    · rw [stepFirst_faulted hl, if_neg fun h => hl h.1, if_neg hl]
  case external =>
    intro s i rest hf hp hi he
    have hr := runNext_external hp hi he
    rw [hstep s hf, stepFirst_live (by rw [hr]; exact hf), hr]
    by_cases hm : ∃ j ∈ rest.head?, s.clk.time j = s.clk.time i
    · rw [loopAt_more (by exact hm), if_pos hm]
    · rw [loopAt_ends (by exact hm), if_neg hm]
  case empty =>
    intro s hf hp
    rw [hstep s hf, stepFirst_faulted (by simp [runNext_nil hp]), runNext_nil hp]
  case ends =>
    intro s x hf hx hp
    rw [step_stepping hf hx, stepMore_ends]
    rintro ⟨i, hi, ht⟩
    exact hp i hi ht
  case goesOn =>
    intro s t x i hf hx hp hi h hl
    rw [step_stepping hf hx, stepMore_goesOn ⟨i, hp, hi⟩, hrun { s with stepping := none } t hf h, andThen_live hl]
    by_cases hm : ∃ j ∈ t.clk.pending.head?, t.clk.time j = x
    · rw [loopAt_more hm, if_pos hm]
    · rw [loopAt_ends hm, if_neg hm]

end Sys2Proof.Machine
end

section
/-! The reset (10_state.md R48; 70_reset_and_hazards.md R260 to R262). -/

namespace Sys2Proof.Machine

/-- A response ends at a fault (60_exceptions.md R220). -/
theorem respond_faulted (n : Nat) (ws : List CommandWord) {s : State} {f : FaultCode} (h : s.fault = some f) :
    respond n ws s = s := by
  induction ws with
  | nil => exact respond_nil n s
  | cons w ws ih => rw [respond_cons, andThen_faulted h, ih]

/-- No host-class command runs in a response (30_encoding.md R97). -/
theorem reentrantInResponse_of_host {i : Instr} (hi : i.cmdClass = .host) : ReentrantInResponse i := by
  intro w ws s hd hf
  have hw : s.andThen (collaboratorWord (innerResponder s.env.calls.length) w) = raise .reentrant s := by
    rw [andThen_live hf]
    simp [collaboratorWord, hd, hi, classFault]
  rw [State.responder, respond_cons, hw, respond_faulted _ _ rfl]

/-- `MRESET` before its last statement, the scheduling of the tick (70_reset_and_hazards.md R260). -/
def State.cleared (s : State) : State :=
  { s with
    clk := { s.clk with now := 0, pending := [] }
    pla := Pla.reset
    rt := Router.reset
    cpu := Cpu.reset (nextDraw s.env)
    hist := []
    env := s.env.afterDraw }

theorem machineReset_eq (s : State) : machineReset s = schedule Config.tickNsId 0 .phi2 s.cleared := rfl

/-- With room for one event the tick is scheduled for half-cycle 1. -/
theorem machineReset_scheduled {s : State} (h : 0 < s.params.walkBound) :
    machineReset s = { s.cleared with clk := s.cleared.clk.link Config.tickNsId 1 0 } := by
  rw [machineReset_eq]
  simp [schedule, State.cleared, Clk.isPending, Clk.insertPos, triggerTime, phaseAdjust, Config.timeLimit,
    Nat.ne_of_gt h]

/-- The reset values by the parts of the state (10_state.md R48). -/
theorem resetValues_of_parts {s : State} {r : Regs} (hnow : s.clk.now = 0)
    (hpending : s.clk.pending = [Config.tickNsId]) (htime : s.clk.time Config.tickNsId = 1) (hpla : s.pla = Pla.reset)
    (hrt : s.rt = Router.reset) (hcpu : s.cpu = Cpu.reset r) (hfault : s.fault = none) (hhist : s.hist = []) :
    s.ResetValues := by
  constructor
  case cpuMap => rw [hpla]; decide
  case vicMap => rw [hpla]; decide
  all_goals simp [hnow, hpending, htime, hpla, hrt, hcpu, hfault, hhist, Pla.reset, Router.reset, Cpu.reset]

theorem reset_resetValues : State.reset.ResetValues :=
  resetValues_of_parts (r := Regs.zero) rfl rfl (by decide) rfl rfl rfl rfl rfl

theorem machineReset_resetValues {s : State} (hf : s.fault = none) (h : 0 < s.params.walkBound) :
    (machineReset s).ResetValues := by
  rw [machineReset_scheduled h]
  exact resetValues_of_parts rfl rfl (time_setTime_same _ _ _) rfl rfl rfl hf rfl

/-- Settles O10: `MRESET` clears the state and schedules the tick for half-cycle 1. -/
theorem mresetGivesResetValues : Obligations.MresetGivesResetValues := by
  refine ⟨reset_resetValues, reentrantInResponse_of_host rfl, fun s hf hb => ?_⟩
  refine ⟨machineReset s, exec_live .mreset hf, machineReset_resetValues hf hb, ?_⟩
  rw [machineReset_scheduled hb]
  exact ⟨rfl, rfl, rfl, rfl, rfl, rfl⟩

/-- A state with the reset values, canonical memory and no input of the block meets the invariant: its one event is the
live tick. -/
theorem State.ResetValues.inv {s : State} (h : s.ResetValues) (hmem : s.env.wf = true)
    (hin : ∀ inp ∈ s.inputs, inp.issuer ≠ .block) : s.Inv where
  distinct := by simp [h.pending]
  sorted := by simp [h.pending]
  future := by simp [h.pending, h.now, h.tickTime]
  tickMode _ m hm := by
    rw [h.pending, List.mem_singleton] at hm
    rw [h.mode]
    cases m
    · rfl
    · exact absurd hm (by decide)
  tickPhase m hm := by
    rw [h.pending, List.mem_singleton] at hm
    rw [hm, h.tickTime]
    rfl
  modeRdy := by rw [h.mode, h.rdy]; rfl
  stallRdy := h.rdy.trans h.stall.symm
  aecRequested _ hm := by
    rw [h.pending, List.mem_singleton] at hm
    exact absurd hm (by decide)
  irqLevel := by rw [h.irqPin, h.irqCount]; rfl
  memory := hmem
  hostInputs := hin

/-- Settles O9: the reset values meet the invariant. -/
theorem resetMeetsInv : Obligations.ResetMeetsInv :=
  reset_resetValues.inv reset_memory_wf fun _ h => absurd h List.not_mem_nil

end Sys2Proof.Machine
end

section
/-! What the host's commands and the callbacks of events keep, from what a slot, a response and the clock keep. -/

namespace Sys2Proof.Machine

/-- What leads from `P` before a command of the host, or before an event is run, to `Q` after it. -/
structure HostLeads (P Q : State → Prop) : Prop where
  idle : ∀ s, P s → Q s
  fail : ∀ f s, P s → Q (raise f s)
  halted : ∀ s, P s → P { s with stepping := none }
  pop : ∀ i rest s, s.clk.pending = i :: rest → P s → P (popHead i s)
  slot : ∀ s, P s → Q (execSlot s)
  resched : ∀ s, s.fault = none → Q s → Q (reschedule s)
  release : ∀ s, P s → Q (aecRelease s)
  fire : ∀ i s, P s → Q (fireExternal i s)
  loop : ∀ x s, Q s → Q { s with stepping := x }
  clear : ∀ s, P s → Q (clkReset s)
  rst : ∀ s, P s → Q (trigRst s)

namespace HostLeads

variable {P Q : State → Prop} {s : State}

theorem tickNs (k : HostLeads P Q) (hs : P s) : Q (tickNs s) :=
  andThen_keeps (k.slot s hs) (k.resched _)

theorem tickSt (k : HostLeads P Q) (hf : s.fault = none) (hs : P s) : Q (tickSt s) := by
  unfold Machine.tickSt
  split
  · exact k.resched s hf (k.idle s hs)
  · exact k.tickNs hs

theorem callback (k : HostLeads P Q) (i : EventId) (hf : s.fault = none) (hs : P s) : Q (callback i s) := by
  unfold Machine.callback
  split
  · exact k.tickNs hs
  · exact k.tickSt hf hs
  · exact k.release s hs
  · exact k.fire i s hs

theorem runNext (k : HostLeads P Q) (hf : s.fault = none) (hs : P s) : Q (runNext s) := by
  unfold Machine.runNext
  split
  · exact k.fail _ s hs
  · next i rest hp => exact k.callback i hf (k.pop i rest s hp hs)

theorem loopAt (k : HostLeads P Q) (x : Time) (hs : Q s) : Q (loopAt x s) := k.loop _ s hs

theorem stepFirst (k : HostLeads P Q) (hf : s.fault = none) (hs : P s) : Q (stepFirst s) :=
  andThen_keeps (k.runNext hf hs) fun _ => k.loopAt _

theorem stepMore (k : HostLeads P Q) (x : Time) (hf : s.fault = none) (hs : P s) : Q (stepMore x s) := by
  unfold Machine.stepMore
  split
  · exact andThen_keeps (k.runNext hf (k.halted s hs)) fun _ => k.loopAt x
  · exact k.loop _ s (k.idle s hs)

/-- A host-class command but `MRESET`. -/
theorem host (k : HostLeads P Q) {i : Instr} (hi : i.cmdClass = .host) (hm : i ≠ .mreset) (hf : s.fault = none)
    (hs : P s) : Q (effect i s) := by
  cases i with
  | runnext => exact k.runNext hf hs
  | step => exact k.stepFirst hf hs
  | clkreset => exact k.clear s hs
  | trigrst => exact k.rst s hs
  | build => exact k.idle s hs
  | mreset => exact absurd rfl hm
  | _ => cases hi

/-- The instruction of a callback. -/
theorem callbackEffect (k : HostLeads P Q) {i : Instr} (hi : i.cmdClass = .callback) (hf : s.fault = none)
    (hs : P s) : Q (effect i s) := by
  cases i with
  | tickNs => exact k.tickNs hs
  | tickSt => exact k.tickSt hf hs
  | aecRelease => exact k.release s hs
  | extEvent id => exact k.fire id s hs
  | _ => cases hi

end HostLeads

end Sys2Proof.Machine
end

section
/-! Every step keeps the machine's invariant. -/

namespace Sys2Proof.Machine

/-- With nothing pending only the lines, the memory and the inputs are left of the invariant. -/
theorem inv_of_noPending {s : State} (hp : s.clk.pending = []) (modeRdy : s.cpu.mode = modeOf s.cpu.rdy)
    (stallRdy : s.cpu.rdy = s.rt.stall) (irqLevel : s.cpu.irqPin = decide (0 < s.rt.irqCount))
    (memory : s.env.wf = true) (hostInputs : ∀ inp ∈ s.inputs, inp.issuer ≠ .block) : s.Inv where
  distinct := by simp [hp]
  sorted := by simp [hp]
  future := by simp [hp]
  tickMode := by simp [hp]
  tickPhase := by simp [hp]
  modeRdy := modeRdy
  stallRdy := stallRdy
  aecRequested := by simp [hp]
  irqLevel := irqLevel
  memory := memory
  hostInputs := hostInputs

theorem stepping_inv {s : State} (x : Option Time) (h : s.Inv) : State.Inv { s with stepping := x } := { h with }

theorem inputs_inv {s : State} {l : List Input} (h : s.Inv) (hl : ∀ inp ∈ l, inp ∈ s.inputs) :
    State.Inv { s with inputs := l } :=
  { h with hostInputs := fun inp hm => h.hostInputs inp (hl inp hm) }

/-- The next tick is the live one of the mode, on PHI2 (43_sequencer.md R187). -/
theorem reschedule_inv {s : State} (hf : s.fault = none) (h : s.Inv) : (reschedule s).Inv := by
  refine schedule_inv h hf (fun m hm => ⟨?_, triggerTime_phi2_odd _ _⟩) fun ha => ?_
  · by_contra hne
    exact tick_ne hne hm
  · cases hm : s.cpu.mode <;> rw [hm] at ha <;> exact absurd ha (by decide)

theorem execSlot_inv {s : State} (h : s.Inv) : (execSlot s).Inv :=
  execSlot_keeps inv_keeps (fun _ c hs hr hm hi => cpu_inv c hs hr hm hi) h

theorem fireExternal_inv (i : EventId) {s : State} (h : s.Inv) : (fireExternal i s).Inv :=
  responder_keeps inv_keeps _ _ _ (env_inv (inv_keeps.record (.fire i s.clk.now) s h) h.memory)

theorem trigRst_inv {s : State} (h : s.Inv) : (trigRst s).Inv := by
  obtain ⟨-, -, -, -, -, hirq, hrdy, hmode⟩ := calcTrigger_fields { s.cpu with rstFlag := true }
  exact cpu_inv _ h hrdy hmode hirq

theorem clkReset_inv {s : State} (h : s.Inv) : (clkReset s).Inv :=
  inv_of_noPending rfl h.modeRdy h.stallRdy h.irqLevel h.memory h.hostInputs

/-- The reset of the machine keeps the invariant whatever the walk bound. -/
theorem machineReset_inv {s : State} (hf : s.fault = none) (h : s.Inv) : (machineReset s).Inv := by
  have hc : s.cleared.Inv := inv_of_noPending rfl rfl rfl rfl h.memory h.hostInputs
  refine schedule_inv hc hf (fun m hm => ⟨?_, triggerTime_phi2_odd _ _⟩) fun ha => absurd ha (by decide)
  cases m
  · rfl
  · exact absurd hm (by decide)

theorem inv_leads : HostLeads State.Inv State.Inv where
  idle _ h := h
  fail f _ h := raise_inv f h
  halted _ h := stepping_inv none h
  pop _ _ _ hp h := popHead_inv h hp
  slot _ h := execSlot_inv h
  resched _ hf h := reschedule_inv hf h
  release _ h := withAec_inv false h
  fire i _ h := fireExternal_inv i h
  loop x _ h := stepping_inv x h
  clear _ h := clkReset_inv h
  rst _ h := trigRst_inv h

/-- What the host or a collaborator may issue keeps the invariant. -/
theorem effect_inv {i : Instr} {s : State} (hi : i.cmdClass = .external ∨ i.cmdClass = .host) (hf : s.fault = none)
    (h : s.Inv) : (effect i s).Inv := by
  rcases hi with hi | hi
  · rw [effect_external hi]
    exact externalOp_keeps inv_keeps (responder_keeps inv_keeps s) i s hf h
  · by_cases hm : i = .mreset
    · subst hm
      exact machineReset_inv hf h
    · exact inv_leads.host hi hm hf h

/-- Settles O8, by the cases of a step; no input is the block's, so none is of the internal class. -/
theorem stepKeepsInv : Obligations.StepKeepsInv := by
  intro s t h hst
  cases step_cases hst with
  | idle => exact h
  | more hf x hx => exact inv_leads.stepMore x hf h
  | refused rest f inp hin => exact raise_inv f (inputs_inv h (by simp +contextual [hin]))
  | runs hf rest inp i hin hd hc =>
    have hrest : State.Inv { s with inputs := rest } := inputs_inv h (by simp +contextual [hin])
    rcases classFault_eq_none hc with hi | hi | ⟨-, hb⟩
    · exact effect_inv (.inl hi) hf hrest
    · exact effect_inv (.inr hi) hf hrest
    · exact absurd hb (h.hostInputs inp (by simp [hin]))

end Sys2Proof.Machine
end

section
/-! No instruction changes a parameter, and none but `MRESET` takes back the history (10_state.md R47, R49). -/

namespace Sys2Proof.Machine

/-- What every instruction but `MRESET` leaves alone. -/
structure RunFrame (s t : State) : Prop where
  params : t.params = s.params
  history : s.hist <+: t.hist

theorem RunFrame.refl (s : State) : RunFrame s s := ⟨rfl, List.prefix_rfl⟩

theorem RunFrame.trans {s t u : State} (h : RunFrame s t) (g : RunFrame t u) : RunFrame s u :=
  ⟨g.params.trans h.params, h.history.trans g.history⟩

theorem ExternalFrame.runFrame {s t : State} (h : ExternalFrame s t) : RunFrame s t := ⟨h.params, h.history⟩

/-- What the frame of external commands keeps, they keep. -/
theorem externalKeeps_of_frame {P : State → Prop} (h : ∀ s t, ExternalFrame s t → P s → P t) : ExternalKeeps P where
  fail f s := h _ _ ((externalFrame_keeps s).fail f s (.refl s))
  calls key s := h _ _ ((externalFrame_keeps s).calls key s (.refl s))
  store hd a d s := h _ _ ((externalFrame_keeps s).store hd a d s (.refl s))
  record e s := h _ _ ((externalFrame_keeps s).record e s (.refl s))
  returns d s := h _ _ ((externalFrame_keeps s).returns d s (.refl s))
  sched i c ph s hf := h _ _ ((externalFrame_keeps s).sched i c ph s hf (.refl s))
  cancel i s hf := h _ _ ((externalFrame_keeps s).cancel i s hf (.refl s))
  port l hi c s := h _ _ ((externalFrame_keeps s).port l hi c s (.refl s))
  gameExrom g1 e1 g2 e2 s := h _ _ ((externalFrame_keeps s).gameExrom g1 e1 g2 e2 s (.refl s))
  vicBase n s := h _ _ ((externalFrame_keeps s).vicBase n s (.refl s))
  dmaOverride on s := h _ _ ((externalFrame_keeps s).dmaOverride on s (.refl s))
  ba b s _ := h _ _ (setBa_frame b s)
  irq b s _ := h _ _ (setIrq_frame b s)
  nmi b s _ := h _ _ (setNmi_frame b s)

theorem execSlot_runFrame (s : State) : RunFrame s (execSlot s) :=
  execSlot_keeps (externalKeeps_of_frame fun _ _ g h => h.trans g.runFrame) (fun _ _ h _ _ _ => ⟨h.params, h.history⟩)
    (.refl s)

/-- Recording a firing, and what its response does after it. -/
theorem fireExternal_runFrame (i : EventId) (s : State) : RunFrame s (fireExternal i s) :=
  RunFrame.trans (t := { s.record (.fire i s.clk.now) with
      env := { s.env with events := eventRepliesLeft i s.env.events } })
    ⟨rfl, List.prefix_append _ _⟩ (responder_frame _ _ _).runFrame

theorem runFrame_leads (s : State) : HostLeads (RunFrame s) (RunFrame s) where
  idle _ h := h
  fail _ _ h := ⟨h.params, h.history⟩
  halted _ h := ⟨h.params, h.history⟩
  pop _ _ _ _ h := ⟨h.params, h.history⟩
  slot t h := h.trans (execSlot_runFrame t)
  resched t _ h := h.trans (schedule_frame _ _ _ t).runFrame
  release _ h := ⟨h.params, h.history⟩
  fire i t h := h.trans (fireExternal_runFrame i t)
  loop _ _ h := ⟨h.params, h.history⟩
  clear _ h := ⟨h.params, h.history⟩
  rst _ h := ⟨h.params, h.history⟩

/-- The block's own commands stay within the frame of the external ones. -/
theorem effect_internal_frame {i : Instr} (hi : i.cmdClass = .internal) (s : State) : ExternalFrame s (effect i s) := by
  cases i with
  | trigirq => exact trigIrq_frame s
  | clrirq => exact .of_eq ⟨rfl, rfl, rfl, rfl, id⟩ rfl rfl rfl rfl rfl rfl
  | trignmi => exact trigNmi_frame s
  | clrnmi => exact .refl s
  | setrdy b => exact setRdy_frame b s
  | _ => cases hi

theorem effect_external_frame {i : Instr} (hi : i.cmdClass = .external) {s : State} (hf : s.fault = none) :
    ExternalFrame s (effect i s) := by
  rw [effect_external hi]
  exact externalOp_frame _ i s hf

theorem effect_runFrame {i : Instr} (hm : i ≠ .mreset) {s : State} (hf : s.fault = none) : RunFrame s (effect i s) := by
  cases hi : i.cmdClass with
  | host => exact (runFrame_leads s).host hi hm hf (.refl s)
  | external => exact (effect_external_frame hi hf).runFrame
  | internal => exact (effect_internal_frame hi s).runFrame
  | callback => exact (runFrame_leads s).callbackEffect hi hf (.refl s)
  | opcode =>
    obtain ⟨o, ho⟩ := effect_opcode hi
    rw [ho]
    exact RunFrame.trans (t := s.mapCpu fun c => { c with cc := slotOf o (slotSub c.cc) }) ⟨rfl, List.prefix_rfl⟩
      (execSlot_runFrame _)

theorem effect_params (i : Instr) {s : State} (hf : s.fault = none) : (effect i s).params = s.params := by
  by_cases hm : i = .mreset
  · subst hm
    exact (schedule_frame Config.tickNsId 0 .phi2 s.cleared).params
  · exact (effect_runFrame hm hf).params

/-- Settles O56, from the frame of every instruction but `MRESET`. -/
theorem historyOnlyGrows : Obligations.HistoryOnlyGrows := by
  intro i s t hm h
  obtain ⟨-, rfl⟩ | ⟨hf, rfl⟩ := exec_cases h
  · exact List.prefix_rfl
  · exact (effect_runFrame hm hf).history

/-- Settles O11, by the cases of an instruction and of a step. -/
theorem parametersNeverChange : Obligations.ParametersNeverChange := by
  refine ⟨fun i s t h => ?_, fun s t h => ?_⟩
  · obtain ⟨-, rfl⟩ | ⟨hf, rfl⟩ := exec_cases h
    · rfl
    · exact effect_params i hf
  · cases step_cases h with
    | idle => rfl
    | more hf x hx => exact ((runFrame_leads s).stepMore x hf (.refl s)).params
    | refused rest f inp hin => rfl
    | runs hf rest inp i hin hd hc => exact effect_params i (s := { s with inputs := rest }) hf

end Sys2Proof.Machine
end

section
/-! What a slot of the table can be (43_sequencer.md R182, R184), said once. -/

namespace Sys2Proof.Machine

/-- Only the registers may differ. -/
def RegsOnly (c c' : Cpu) : Prop := c' = { c with regs := c'.regs }

theorem MicroPlan.Keeps.mono {R S : Cpu → Cpu → Prop} (h : ∀ c c', R c c' → S c c') {c : Cpu} {plan : MicroPlan}
    (hp : plan.Keeps R c) : plan.Keeps S c := by
  cases plan with
  | done c1 r => exact h _ _ hp
  | read c1 a k => exact ⟨h _ _ hp.1, fun c' d => h _ _ (hp.2 c' d)⟩
  | write c1 a d k => exact ⟨h _ _ hp.1, fun c' => h _ _ (hp.2 c')⟩

/-- What the micro-op of slot `cc` can be: all but the finish, two of the branch's and two of the interrupt sequence's
write the registers only. -/
inductive SlotShape (cc : Slot) : MicroOp → Prop where
  | regs {op : MicroOp} (h : op.Keeps RegsOnly) : SlotShape cc op
  | finish : SlotShape cc finish
  | brCond : SlotShape cc brCond
  | brFix : SlotShape cc brFix
  | int4 (h : cc = slotOf 0x00 4) : SlotShape cc int4
  | int5 (h : cc = slotOf 0x00 5) : SlotShape cc int5

/-- The one opcode byte of `BRK` (30_encoding.md R101). -/
theorem decodeOpcode_eq_brk {b : Byte} (h : decodeOpcode b = .ok .brk) : b = 0x00 := by
  revert b
  decide

section Tables

variable (cc : Slot)

theorem SlotShape.unmodelled : SlotShape cc unmodelledOp := .regs fun _ _ => rfl

theorem ldaSlots_shape (k : BitVec 3) : SlotShape cc (ldaSlots k) := by
  unfold ldaSlots
  split
  · exact .regs fun _ _ => ⟨rfl, fun _ _ => rfl⟩
  · exact .finish
  · exact .unmodelled cc

theorem brkSlots_shape (k : BitVec 3) : SlotShape (slotOf 0x00 k) (brkSlots k) := by
  unfold brkSlots
  split
  · exact .regs fun _ _ => ⟨rfl, fun _ _ => rfl⟩
  · exact .regs fun _ _ => ⟨rfl, fun _ => rfl⟩
  · exact .regs fun _ _ => ⟨rfl, fun _ => rfl⟩
  · exact .regs fun _ _ => ⟨rfl, fun _ => rfl⟩
  · next h => exact .int4 (congrArg _ (BitVec.eq_of_toNat_eq h))
  · next h => exact .int5 (congrArg _ (BitVec.eq_of_toNat_eq h))
  · exact .finish
  · exact .unmodelled _

theorem jsrSlots_shape (k : BitVec 3) : SlotShape cc (jsrSlots k) := by
  unfold jsrSlots
  split
  · exact .regs fun _ _ => ⟨rfl, fun _ _ => rfl⟩
  · exact .regs fun _ _ => ⟨rfl, fun _ _ => rfl⟩
  · exact .regs fun _ _ => ⟨rfl, fun _ => rfl⟩
  · exact .regs fun _ _ => ⟨rfl, fun _ => rfl⟩
  · exact .regs fun _ _ => ⟨rfl, fun _ _ => rfl⟩
  · exact .finish
  · exact .unmodelled cc

theorem rtsSlots_shape (k : BitVec 3) : SlotShape cc (rtsSlots k) := by
  unfold rtsSlots
  split
  iterate 5 exact .regs fun _ _ => ⟨rfl, fun _ _ => rfl⟩
  · exact .finish
  · exact .unmodelled cc

theorem rtiSlots_shape (k : BitVec 3) : SlotShape cc (rtiSlots k) := by
  unfold rtiSlots
  split
  iterate 5 exact .regs fun _ _ => ⟨rfl, fun _ _ => rfl⟩
  · exact .finish
  · exact .unmodelled cc

theorem nopSlots_shape (k : BitVec 3) : SlotShape cc (nopSlots k) := by
  unfold nopSlots
  split
  · exact .regs fun _ _ => ⟨rfl, fun _ _ => rfl⟩
  · exact .finish
  · exact .unmodelled cc

theorem branchSlots_shape (k : BitVec 3) : SlotShape cc (branchSlots k) := by
  unfold branchSlots
  split
  · exact .regs fun _ _ => ⟨rfl, fun _ _ => rfl⟩
  · exact .brCond
  · exact .brFix
  · exact .finish
  · exact .unmodelled cc

theorem bodyPlan_regsOnly (o : Byte) (op : Option Config.ArithOp) (c : Cpu) (b : Config.BodyPlan) :
    (bodyPlan o op c b).Keeps RegsOnly c := by
  cases b with
  | done r res => exact rfl
  | read r a k => exact ⟨rfl, fun _ _ => rfl⟩
  | write r a d k => exact ⟨rfl, fun _ => rfl⟩

theorem openSlots_shape (o : Byte) (k : BitVec 3) : SlotShape cc (openSlots o k) := by
  unfold openSlots
  by_cases hbody : k.toNat < (Config.microOps o).finishSlot.toNat
  · simp only [hbody, if_true]
    exact .regs fun _ c => bodyPlan_regsOnly o _ c _
  · by_cases hfinish : k = (Config.microOps o).finishSlot
    · simp only [hbody, if_pos hfinish, if_false]
      exact .finish
    · simp only [hbody, if_neg hfinish, if_false]
      exact .unmodelled cc

/-- Every slot of the table has one of the shapes. -/
theorem slotOp_shape (p : Params) : SlotShape cc (slotOp p cc) := by
  simp only [slotOp]
  split
  · exact ldaSlots_shape cc _
  · next h =>
    have hcc : slotOf 0x00 (slotSub cc) = cc := by rw [← decodeOpcode_eq_brk h, slotOf_parts]
    have hbrk := brkSlots_shape (slotSub cc)
    rwa [hcc] at hbrk
  · exact jsrSlots_shape cc _
  · exact rtsSlots_shape cc _
  · exact nopSlots_shape cc _
  · exact rtiSlots_shape cc _
  · exact branchSlots_shape cc _
  · split
    · exact .unmodelled cc
    · exact openSlots_shape cc _ _

end Tables

end Sys2Proof.Machine
end

section
/-! A latched NMI is lost only by `MRESET` or at slot 4 of an interrupt sequence (10_state.md R40; 60_exceptions.md R231). -/

namespace Sys2Proof.Machine

/-- Slot 4 of an interrupt sequence without an RST runs next: it takes a latched NMI (60_exceptions.md R231). -/
def Cpu.takesNmi (c : Cpu) : Prop := c.cc = slotOf 0x00 4 ∧ c.deliver = true ∧ c.rstFlag = false

/-- The NMI latch is the same. -/
def NmiSame (c c' : Cpu) : Prop := c'.nmiFlag = c.nmiFlag

theorem RegsOnly.nmiSame {c c' : Cpu} (h : RegsOnly c c') : NmiSame c c' :=
  (congrArg Cpu.nmiFlag (show c' = { c with regs := c'.regs } from h)).trans rfl

theorem reevaluated_nmi (c : Cpu) : NmiSame c c.reevaluated := by
  unfold Cpu.reevaluated NmiSame
  split
  · split <;> rfl
  · split <;> rfl
  · rfl

theorem deferQuirk_nmi (c : Cpu) : NmiSame c c.deferQuirk := by
  unfold Cpu.deferQuirk NmiSame
  split
  · split <;> rfl
  · rfl
  · rfl

theorem deferQuirkSamePage_nmi (p : Params) (c : Cpu) : NmiSame c (c.deferQuirkSamePage p) := by
  unfold Cpu.deferQuirkSamePage NmiSame
  split <;> rfl

theorem endDelivery_nmi (c : Cpu) : NmiSame c c.endDelivery := by
  unfold Cpu.endDelivery NmiSame
  split <;> rfl

theorem finish_nmi (p : Params) {c c0 : Cpu} (h : NmiSame c0 c) : (finish p c).Keeps NmiSame c0 := by
  simp only [finish, finish_reevaluates]
  have hr : NmiSame c0 c.reevaluated := (reevaluated_nmi c).trans h
  split
  · exact hr
  · exact ⟨hr, fun _ _ => rfl⟩

theorem brCond_nmi (p : Params) (c : Cpu) : (brCond p c).Keeps NmiSame c := by
  simp only [brCond]
  split
  · exact ⟨rfl, fun _ _ => rfl⟩
  · exact finish_nmi p rfl

theorem brFix_nmi (p : Params) (c : Cpu) : (brFix p c).Keeps NmiSame c := by
  simp only [brFix]
  split
  · split
    · exact finish_nmi p rfl
    · exact finish_nmi p (deferQuirkSamePage_nmi p c)
  · split
    · exact ⟨deferQuirk_nmi c, fun _ _ => rfl⟩
    · exact ⟨rfl, fun _ _ => rfl⟩

/-- Slot 4 clears the latch of the source it selects: the NMI's only in an interrupt without an RST. -/
theorem selectSource_nmi {c : Cpu} (h : ¬(c.deliver = true ∧ c.rstFlag = false)) : NmiSame c (selectSource c).2 := by
  unfold selectSource NmiSame
  split
  · rfl
  · next hdeliver =>
    split
    · rfl
    · next hrst => exact absurd ⟨by simpa using hdeliver, by simpa using hrst⟩ h

theorem int4_nmi (p : Params) {c : Cpu} (h : ¬(c.deliver = true ∧ c.rstFlag = false)) : (int4 p c).Keeps NmiSame c :=
  ⟨selectSource_nmi h, fun _ _ => rfl⟩

theorem int5_nmi (p : Params) (c : Cpu) : (int5 p c).Keeps NmiSame c := ⟨rfl, fun _ _ => endDelivery_nmi _⟩

/-- The slot `cpu.cc` names leaves the NMI latch, unless it takes the NMI. -/
theorem slotOp_nmi (p : Params) {c : Cpu} (h : ¬c.takesNmi) : (slotOp p c.cc p c).Keeps NmiSame c := by
  have hshape := slotOp_shape c.cc p
  generalize slotOp p c.cc = op at hshape ⊢
  cases hshape with
  | regs hr => exact (hr p c).mono fun _ _ => RegsOnly.nmiSame
  | finish => exact finish_nmi p rfl
  | brCond => exact brCond_nmi p c
  | brFix => exact brFix_nmi p c
  | int4 hcc => exact int4_nmi p fun hd => h ⟨hcc, hd⟩
  | int5 => exact int5_nmi p c

theorem settle_nmi (r : MicroResult) (s : State) : NmiSame s.cpu (settle r s).cpu := by
  unfold settle
  split
  · split <;> rfl
  · rfl
  · rfl

/-- A micro-op that leaves the latch, at work: its bus access may set the latch, not clear it. -/
theorem runPlan_nmi {plan : MicroPlan} {s : State} (hp : plan.Keeps NmiSame s.cpu) (hs : s.cpu.nmiFlag = true) :
    (runPlan plan s).cpu.nmiFlag = true := by
  cases plan with
  | done c r => exact (settle_nmi r _).trans (hp.trans hs)
  | read c a k =>
    obtain ⟨hbefore, hafter⟩ := hp
    exact andThen_keeps (P := fun t => t.cpu.nmiFlag = true) ((cpuRead_frame _ a _).nmiLatch (hbefore.trans hs))
      fun _ ht => (settle_nmi _ _).trans ((hafter _ _).trans ht)
  | write c a d k =>
    obtain ⟨hbefore, hafter⟩ := hp
    exact andThen_keeps (P := fun t => t.cpu.nmiFlag = true) ((cpuWrite_frame _ a d _).nmiLatch (hbefore.trans hs))
      fun _ ht => (settle_nmi _ _).trans ((hafter _).trans ht)

theorem fireExternal_nmi (i : EventId) {s : State} (hs : s.cpu.nmiFlag = true) :
    (fireExternal i s).cpu.nmiFlag = true :=
  (responder_frame _ _ _).nmiLatch hs

theorem trigRst_nmi (s : State) : NmiSame s.cpu (trigRst s).cpu := by
  obtain ⟨-, -, -, -, hnmi, -⟩ := calcTrigger_fields { s.cpu with rstFlag := true }
  exact hnmi

/-- A latched NMI that is not taken next stays latched. -/
theorem nmi_leads : HostLeads (fun s => s.cpu.nmiFlag = true ∧ ¬s.cpu.takesNmi) (fun s => s.cpu.nmiFlag = true) where
  idle _ h := h.1
  fail _ _ h := h.1
  halted _ h := h
  pop _ _ _ _ h := h
  slot _ h := runPlan_nmi (slotOp_nmi _ h.2) h.1
  resched s _ h := (schedule_frame _ _ _ s).nmiLatch h
  release _ h := h.1
  fire i _ h := fireExternal_nmi i h.1
  loop _ _ h := h
  clear _ h := h.1
  rst s h := (trigRst_nmi s).trans h.1

/-- The effect of an input that passes its check, but for `MRESET`. -/
theorem effect_nmi {i : Instr} {issuer : Issuer} {s : State} (hc : classFault issuer i.cmdClass = none)
    (hm : i ≠ .mreset) (hf : s.fault = none) (hs : s.cpu.nmiFlag = true) (ht : ¬s.cpu.takesNmi) :
    (effect i s).cpu.nmiFlag = true := by
  obtain hi | hi | ⟨hi, -⟩ := classFault_eq_none hc
  · exact (effect_external_frame hi hf).nmiLatch hs
  · exact nmi_leads.host hi hm hf ⟨hs, ht⟩
  · exact (effect_internal_frame hi s).nmiLatch hs

/-- Settles O57: a step that neither runs `MRESET` nor takes the NMI leaves it latched. -/
theorem nmiLatchedUntilServiced : Obligations.NmiLatchedUntilServiced := by
  intro s t hst hs hlost
  by_contra hno
  obtain ⟨hnomreset, htakes⟩ := not_or.mp hno
  have hkept : t.cpu.nmiFlag = true := by
    cases step_cases hst with
    | idle => exact hs
    | more hf x hx => exact nmi_leads.stepMore x hf ⟨hs, htakes⟩
    | refused rest f inp hin => exact hs
    | runs hf rest inp i hin hd hc =>
      have hm : i ≠ .mreset := by
        rintro rfl
        exact hnomreset ⟨inp, by simp [hin], hd⟩
      exact effect_nmi (s := { s with inputs := rest }) hc hm hf hs htakes
  simp [hkept] at hlost

end Sys2Proof.Machine
end

section
/-! The bank maps by the lines that number the modes (20_memory.md R63 to R67). -/

namespace Sys2Proof.Machine

/-- The row of the Ultimax modes (20_memory.md R66). -/
def ultimaxRow : BankRow := ⟨.ram, .openBus, .roml, .openBus, .openBus, .io, .romh⟩

/-- The row of the read map by EXROM, GAME, CHAREN, HIRAM and LORAM, column by column (20_memory.md R64). -/
def rowOfLines (e g c h l : Bool) : BankRow :=
  if e = true ∧ g = false then ultimaxRow
  else
    { b0 := .ram
      b1 := .ram
      b8 := if e = false ∧ h = true ∧ l = true then .roml else .ram
      b10 :=
        if e = false ∧ g = false ∧ h = true then .romh else if h = true ∧ l = true then .basic else .ram
      b12 := .ram
      b13 :=
        if (h = false ∧ l = false) ∨ (e = false ∧ g = false ∧ c = false ∧ h = false) then .ram
        else if c = true then .io else .char
      b14 := if h = true then .kernal else .ram }

/-- The table of the 32 modes is the one the lines give. -/
theorem cpuRow_lines : ∀ e g c h l : Bool,
    cpuRow (bitOf e ++ bitOf g ++ bitOf c ++ bitOf h ++ bitOf l) = rowOfLines e g c h l := by
  decide

theorem ultimaxMode_lines : ∀ e g c h l : Bool,
    ultimaxMode (bitOf e ++ bitOf g ++ bitOf c ++ bitOf h ++ bitOf l) = (e && !g) := by
  decide

/-- The columns of the read map's table (20_memory.md R64). -/
theorem bankRow_at_eq (r : BankRow) (b : BitVec 4) :
    r.at b =
      if b = 0 then r.b0 else if b = 8 ∨ b = 9 then r.b8 else if b = 10 ∨ b = 11 then r.b10
      else if b = 12 then r.b12 else if b = 13 then r.b13 else if b = 14 ∨ b = 15 then r.b14 else r.b1 := by
  obtain ⟨k⟩ := b
  fin_cases k <;> rfl

/-- The write map from the read map (20_memory.md R65). -/
theorem cpuWriteMap_eq (m : BitVec 5) (b : BitVec 4) :
    cpuWriteMap m b =
      if cpuReadMap m b = .io then .io
      else if cpuReadMap m b = .openBus then .openBus
      else if (16 ≤ m.toNat ∧ m.toNat ≤ 23) ∧ (b = 8 ∨ b = 9) then .roml
      else if (16 ≤ m.toNat ∧ m.toNat ≤ 23) ∧ (b = 14 ∨ b = 15) then .romh
      else .ram := by
  unfold cpuWriteMap ultimaxMode
  cases cpuReadMap m b <;> simp

/-- The write map looks at the mode only through the read map and the Ultimax test. -/
theorem cpuWriteMap_congr {m n : BitVec 5} {b : BitVec 4} (hr : cpuReadMap m b = cpuReadMap n b)
    (hu : ultimaxMode m = ultimaxMode n) : cpuWriteMap m b = cpuWriteMap n b := by
  simp only [cpuWriteMap, hr, hu]

theorem mode_ultimax {p : Pla} (he : p.exrom2 = true) (hg : p.game2 = false) :
    cpuRow p.mode = ultimaxRow ∧ ultimaxMode p.mode = true := by
  rw [Pla.mode, cpuRow_lines, ultimaxMode_lines, he, hg]
  exact ⟨rfl, rfl⟩

/-- In the Ultimax modes banks 1 to 7 and 10 to 12 are disconnected (20_memory.md R66). -/
theorem ultimaxRow_at {b : BitVec 4} (h : (1 ≤ b.toNat ∧ b.toNat ≤ 7) ∨ (10 ≤ b.toNat ∧ b.toNat ≤ 12)) :
    ultimaxRow.at b = .openBus := by
  revert b
  decide

theorem vicUltimax_iff (p : Pla) : p.vicUltimax = true ↔ p.exrom1 = true ∧ p.game1 = false := by
  simp [Pla.vicUltimax]

/-- Settles O31: the row of each mode, the columns of a row, and the write map from the read map. -/
theorem bankMaps : Obligations.BankMaps := by
  refine ⟨cpuWriteMap_eq, ?ultimax, ?vic, ?read⟩
  case ultimax =>
    intro p l h c b he hg
    obtain ⟨hrow, hmode⟩ := mode_ultimax he hg
    obtain ⟨hrow', hmode'⟩ := mode_ultimax (p := { p with loram := l, hiram := h, charen := c }) he hg
    have hread : cpuReadMap { p with loram := l, hiram := h, charen := c }.mode b = cpuReadMap p.mode b := by
      rw [cpuReadMap, cpuReadMap, hrow, hrow']
    refine ⟨hread, cpuWriteMap_congr hread (hmode'.trans hmode.symm), fun hb => ?_⟩
    rw [cpuReadMap, hrow, ultimaxRow_at hb]
  case vic =>
    intro p b
    refine ⟨fun hu => ?_, fun hu => ?_⟩
    · rw [(vicUltimax_iff p).mpr hu]
      rfl
    · rw [Bool.eq_false_iff.mpr (mt (vicUltimax_iff p).mp hu)]
      rfl
  case read =>
    intro e g c h l b
    rw [cpuReadMap, cpuRow_lines, bankRow_at_eq, rowOfLines]
    by_cases hu : e = true ∧ g = false
    · rw [if_pos hu, if_pos hu]
      by_cases hb : b = 10 ∨ b = 11 ∨ b = 12
      · obtain rfl | rfl | rfl := hb <;> rfl
      · obtain ⟨h10, h11, h12⟩ : b ≠ 10 ∧ b ≠ 11 ∧ b ≠ 12 := by simpa using hb
        simp only [h10, h11, h12, or_self, if_false, ultimaxRow]
    · rw [if_neg hu, if_neg hu]
      by_cases hb : b = 0 ∨ b = 12
      · obtain rfl | rfl := hb <;> rfl
      · obtain ⟨h0, h12⟩ : b ≠ 0 ∧ b ≠ 12 := by simpa using hb
        simp only [h0, h12, if_false]

end Sys2Proof.Machine
end

section
/-! Handler calls as commands: a call, its response and its record (20_memory.md R72, R82; 41_pla.md R140 to R143). -/

namespace Sys2Proof.Machine

theorem exec_cpurd (a : Addr) {s : State} (h : s.fault = none) :
    exec (.cpurd a) s = .next (cpurd s.responder a s) := exec_live (.cpurd a) h

theorem exec_cpuwr (a : Addr) (d : Byte) {s : State} (h : s.fault = none) :
    exec (.cpuwr a d) s = .next (cpuWrite s.responder a d s) := exec_live (.cpuwr a d) h

theorem exec_vicrd1 (v : VicAddr) {s : State} (h : s.fault = none) :
    exec (.vicrd1 v) s = .next (vicrd1 s.responder v s) := exec_live (.vicrd1 v) h

theorem exec_vicrd2 (v : VicAddr) {s : State} (h : s.fault = none) :
    exec (.vicrd2 v) s = .next (vicrd2 s.responder v s) := exec_live (.vicrd2 v) h

/-- A response runs as deep as its own state's script asks, whatever deeper bound it is given. -/
theorem respond_eq_responder {n : Nat} {s : State} (h : s.env.calls.length ≤ n) (ws : List CommandWord) :
    respond n ws s = s.responder ws s :=
  respond_depth s.env.calls.length n _ h le_rfl ws s le_rfl

/-- A read: the reply is taken, the response runs in the state of the call, the record is last. -/
theorem handlerRead_responder (h : Handler) (a : Addr) {s s1 : State}
    (hs1 : s1 = s.withCalls (takeReply (.read h a) s.env.calls).2) :
    handlerRead s.responder h a s =
      (s1.responder (replyWords (takeReply (.read h a) s.env.calls).1) s1).andThen
        fun t => t.record (.read h a (readAnswer h a s)) := by
  subst hs1
  rw [← respond_eq_responder (n := s.env.calls.length) (takeReply_le _ s.env.calls)]
  rfl

/-- A write: the store, then the response in the state of the call, then the record. -/
theorem handlerWrite_responder (h : Handler) (a : Addr) (d : Byte) {s s1 : State}
    (hs1 : s1 = { s with env := { s.env.store h a d with calls := (takeReply (.write h a) s.env.calls).2 } }) :
    handlerWrite s.responder h a d s =
      (s1.responder (replyWords (takeReply (.write h a) s.env.calls).1) s1).andThen
        fun t => t.record (.write h a d) := by
  subst hs1
  rw [← respond_eq_responder (n := s.env.calls.length) (takeReply_le _ s.env.calls)]
  rfl

/-- With no scripted reply, a write only stores and appends its record. -/
theorem cpuWrite_quiet (n : Nat) (a : Addr) (d : Byte) {s : State} (hf : s.fault = none) (hc : s.env.calls = []) :
    cpuWrite (respond n) a d s =
      { s with
        env := s.env.store (s.pla.writeHandler a) a d
        hist := s.hist ++ [.write (s.pla.writeHandler a) a d] } := by
  have hw := handlerWrite_silent n (s.pla.writeHandler a) a d s hf (by rw [hc]; rfl)
  have hcalls : (takeReply (.write (s.pla.writeHandler a) a) s.env.calls).2 =
      (s.env.store (s.pla.writeHandler a) a d).calls := by rw [store_calls, hc]; rfl
  rw [hcalls] at hw
  exact hw

/-- Settles O26: `CPURD` is the call of its handler, and a quiet one leaves its record. -/
theorem cpuReadCommand : Obligations.CpuReadCommand := by
  rintro a s s1 h d hf rfl rfl rfl
  refine ⟨rfl, handlerRead_responder _ a rfl, exec_cpurd a hf, fun hc => ?_⟩
  have hread : cpuRead s.responder a s = s.record (.read (s.pla.readHandler a) a (cpuReadByte a s)) :=
    cpuRead_quiet _ a s hf hc
  rw [exec_cpurd a hf, cpurd, hread, andThen_live (by exact hf)]
  rfl

/-- Settles O27: `CPUWR` is the call of its handler, and a quiet one stores and leaves its record. -/
theorem cpuWriteCommand : Obligations.CpuWriteCommand := by
  rintro a d s s1 h hf rfl rfl
  refine ⟨handlerWrite_responder _ a d rfl, exec_cpuwr a d hf, fun hc => ?_⟩
  rw [exec_cpuwr a d hf]
  exact congrArg _ (cpuWrite_quiet _ a d hf hc)

/-- With no scripted reply, a read through a handler whose byte the simulator oracle has answers that byte. -/
theorem readAnswer_of_peek {h : Handler} {a : Addr} {d : Byte} {s : State} (hc : s.env.calls = [])
    (hp : s.env.peek h a = some d) : readAnswer h a s = d := by
  simp [readAnswer, hc, takeReply, replyByte, oracle, hp]

/-- Settles O28: the write stores one byte, by `peek_store`, and the read answers what the oracle then has. -/
theorem ramStoreThenLoad : Obligations.RamStoreThenLoad := by
  intro a d s hf hc hram
  have hpeek : ∀ h' a', (s.env.store (s.pla.writeHandler a) a d).peek h' a' =
      if h' = .ram ∧ a' = a then some d else s.env.peek h' a' := fun h' a' => by
    rw [peek_store, hram]
    simp
  obtain ⟨-, -, hwrite⟩ := cpuWriteCommand a d s _ _ hf rfl rfl
  refine ⟨_, hwrite hc, hf, hpeek, fun hread => ?_⟩
  have hcalls : (s.env.store (s.pla.writeHandler a) a d).calls = [] := (store_calls _ _ _ _).trans hc
  obtain ⟨-, -, -, hquiet⟩ := cpuReadCommand a { s with
    env := s.env.store (s.pla.writeHandler a) a d
    hist := s.hist ++ [.write (s.pla.writeHandler a) a d] } _ _ _ hf hread.symm rfl rfl
  exact ⟨_, hquiet hcalls, congrArg some (readAnswer_of_peek hcalls ((hpeek .ram a).trans (if_pos ⟨rfl, rfl⟩)))⟩

/-- A record raises no fault, so what follows it runs where it does. -/
theorem andThen_record_andThen (s : State) (e : HistEntry) (f : State → State) :
    (s.andThen fun t => t.record e).andThen f = s.andThen fun t => f (t.record e) := by
  cases h : s.fault with
  | none => rw [andThen_live h, andThen_live h, andThen_live (by exact h)]
  | some c => rw [andThen_faulted h, andThen_faulted h, andThen_faulted h]

/-- Settles O29: `VICRD1` is a handler's read at the absolute address, `VICRD2` is it unless AEC is asserted. -/
theorem vicReads : Obligations.VicReads := by
  rintro v s s1 h abs d hf rfl rfl rfl rfl
  refine ⟨?_, fun haec => ?_, fun haec => ?_⟩
  · rw [exec_vicrd1 v hf, vicrd1, handlerRead_responder _ _ rfl, andThen_record_andThen]
    rfl
  · rw [exec_vicrd2 v hf]
    exact congrArg _ (if_pos haec)
  · rw [exec_vicrd2 v hf, exec_vicrd1 v hf]
    exact congrArg _ (if_neg (by simp [haec]))

/-- A response of one `SETPORT`. -/
theorem responder_setport {w : CommandWord} {l h c : Bool} {s : State} (hf : s.fault = none)
    (hd : decodeCommand w = .ok (.setport l h c)) : s.responder [w] s = setPort l h c s := by
  rw [State.responder, respond_cons, respond_nil, andThen_live hf]
  simp [collaboratorWord, hd, Instr.cmdClass, classFault, externalOp]

/-- Settles O32: the call is made through the old map before its response writes the lines. -/
theorem remappingActsAtTheNextAccess : Obligations.RemappingActsAtTheNextAccess := by
  intro a d l h c s w rs hf hd hc
  have htake : takeReply (.write (s.pla.writeHandler a) a) s.env.calls =
      (some { key := .write (s.pla.writeHandler a) a, byte := none, words := [w] }, rs) := by
    simp [hc, takeReply]
  have hwords : replyWords (takeReply (.write (s.pla.writeHandler a) a) s.env.calls).1 = [w] := by
    rw [htake]
    rfl
  rw [exec_cpuwr a d hf, cpuWrite, handlerWrite_responder _ a d rfl, hwords, responder_setport (by exact hf) hd,
    andThen_live (by exact hf), htake]
  rfl

end Sys2Proof.Machine
end

section
/-! A byte of the simulator oracle changes only where a write of it is recorded (20_memory.md R75, R77; 41_pla.md R141).
A call stores before it responds and records after (log 10), so the primitive changes do not keep this one by one: it is
said of whole calls, between the state before and the state after. -/

namespace Sys2Proof.Machine

/-- From `s` to `t` the history grows, a fault stays, and without one every changed byte is of `RAM`, with a write of its
address among the new entries. -/
structure WritesRecorded (s t : State) : Prop where
  history : s.hist <+: t.hist
  live : t.fault = none → s.fault = none
  bytes : t.fault = none → ∀ h a, t.env.peek h a ≠ s.env.peek h a →
    h = .ram ∧ ∃ d, HistEntry.write .ram a d ∈ t.hist.drop s.hist.length

namespace WritesRecorded

/-- A change that leaves every byte. -/
theorem of_peek {s t : State} (hh : s.hist <+: t.hist) (hl : t.fault = none → s.fault = none)
    (he : ∀ h a, t.env.peek h a = s.env.peek h a) : WritesRecorded s t :=
  ⟨hh, hl, fun _ h a hne => absurd (he h a) hne⟩

theorem refl (s : State) : WritesRecorded s s := of_peek List.prefix_rfl id fun _ _ => rfl

theorem of_faulted {s t : State} (hh : s.hist <+: t.hist) (hf : t.fault ≠ none) : WritesRecorded s t :=
  ⟨hh, fun h => absurd h hf, fun h => absurd h hf⟩

theorem of_frame {s t : State} (hf : s.fault = none) (h : ExternalFrame s t) (he : t.env = s.env) :
    WritesRecorded s t :=
  of_peek h.history (fun _ => hf) fun _ _ => by rw [he]

theorem trans {s t u : State} (h : WritesRecorded s t) (g : WritesRecorded t u) : WritesRecorded s u where
  history := h.history.trans g.history
  live hf := h.live (g.live hf)
  bytes hf hd a hne := by
    by_cases hsame : t.env.peek hd a = s.env.peek hd a
    · obtain ⟨hram, d, hd⟩ := g.bytes hf hd a (hsame ▸ hne)
      exact ⟨hram, d, List.drop_subset_drop_left _ h.history.length_le hd⟩
    · obtain ⟨hram, d, hd⟩ := h.bytes (g.live hf) hd a hsame
      exact ⟨hram, d, (g.history.drop _).subset hd⟩

theorem andThen {s t : State} {f : State → State} (h : WritesRecorded s t)
    (g : t.fault = none → WritesRecorded t (f t)) : WritesRecorded s (t.andThen f) :=
  andThen_keeps h fun hf _ => h.trans (g hf)

theorem record (e : HistEntry) (s : State) : WritesRecorded s (s.record e) :=
  of_peek (List.prefix_append _ _) id fun _ _ => rfl

end WritesRecorded

/-! ### Calls and responses -/

/-- A responder that records what it writes. -/
def ResponderRecords (resp : Responder) : Prop := ∀ ws s, WritesRecorded s (resp ws s)

theorem handlerRead_records {resp : Responder} (hr : ResponderRecords resp) (h : Handler) (a : Addr) (s : State) :
    WritesRecorded s (handlerRead resp h a s) := by
  have hcalls : WritesRecorded s (s.withCalls (takeReply (.read h a) s.env.calls).2) :=
    .of_peek List.prefix_rfl id fun _ _ => rfl
  exact (hcalls.trans (hr _ _)).andThen (f := fun t => t.record (.read h a (readAnswer h a s))) fun _ => .record _ _

/-- The call's own store is recorded by its own record, what its response stores by the response. -/
theorem handlerWrite_records {resp : Responder} (hr : ResponderRecords resp) (h : Handler) (a : Addr) (d : Byte)
    (s : State) : WritesRecorded s (handlerWrite resp h a d s) := by
  simp only [handlerWrite]
  set s1 : State := { s with env := { s.env.store h a d with calls := (takeReply (.write h a) s.env.calls).2 } }
  set t := resp (replyWords (takeReply (.write h a) s.env.calls).1) s1
  have ht : WritesRecorded s1 t := hr _ _
  obtain ⟨hf, e⟩ | ⟨hf, e⟩ := andThen_cases t fun t => t.record (.write h a d)
  · rw [e]
    have hu : WritesRecorded s1 (t.record (.write h a d)) := ht.trans (.record _ _)
    refine ⟨hu.history, hu.live, fun hl h' a' hne => ?_⟩
    by_cases hsame : t.env.peek h' a' = s1.env.peek h' a'
    · have hstore : s1.env.peek h' a' = if h = .ram ∧ h' = .ram ∧ a' = a then some d else s.env.peek h' a' :=
        peek_store s.env h h' a a' d
      by_cases hw : h = .ram ∧ h' = .ram ∧ a' = a
      · obtain ⟨rfl, rfl, rfl⟩ := hw
        have hnew : HistEntry.write .ram a' d ∈ (t.hist ++ [HistEntry.write .ram a' d]).drop s.hist.length := by
          rw [List.drop_append_of_le_length ht.history.length_le]
          simp
        exact ⟨rfl, d, hnew⟩
      · rw [if_neg hw] at hstore
        exact absurd (hsame.trans hstore) hne
    · exact hu.bytes hl h' a' hsame
  · rw [e]
    exact .of_faulted ht.history hf

theorem externalOp_records {resp : Responder} (hr : ResponderRecords resp) (i : Instr) {s : State}
    (hf : s.fault = none) : WritesRecorded s (externalOp resp i s) := by
  have hvic : ∀ v, WritesRecorded s (vicrd1 resp v s) := fun v =>
    (handlerRead_records hr _ _ s).andThen (f := fun t => t.returns (vicReadByte v s)) fun _ =>
      .of_peek List.prefix_rfl id fun _ _ => rfl
  cases i with
  | sched ev cyc ph => exact .of_frame hf (externalOp_frame 0 (.sched ev cyc ph) s hf) (schedExternal_env _ _ _ _)
  | cancel ev => exact .of_frame hf (externalOp_frame 0 (.cancel ev) s hf) (cancelExternal_env _ _)
  | cpurd a =>
    exact (handlerRead_records hr _ a s).andThen (f := fun t => t.returns (cpuReadByte a s)) fun _ =>
      .of_peek List.prefix_rfl id fun _ _ => rfl
  | cpuwr a d => exact handlerWrite_records hr _ a d s
  | vicrd1 v => exact hvic v
  | vicrd2 v =>
    simp only [externalOp, vicrd2]
    split
    · exact .of_peek List.prefix_rfl id fun _ _ => rfl
    · exact hvic v
  | setba b => exact .of_frame hf (setBa_frame b s) (setBa_env b s)
  | setirq b => exact .of_frame hf (setIrq_frame b s) (setIrq_env b s)
  | setnmi b => exact .of_frame hf (setNmi_frame b s) (setNmi_env b s)
  | _ => exact .of_peek List.prefix_rfl id fun _ _ => rfl

theorem collaboratorWord_records {resp : Responder} (hr : ResponderRecords resp) (w : CommandWord) {s : State}
    (hf : s.fault = none) : WritesRecorded s (collaboratorWord resp w s) := by
  unfold collaboratorWord
  split
  · exact .of_faulted List.prefix_rfl (by simp)
  · split
    · exact .of_faulted List.prefix_rfl (by simp)
    · exact externalOp_records hr _ hf

/-- Where the responses met inside a response record what they write, it does. -/
theorem respond_records_of_inner {n : Nat} (h : ResponderRecords (innerResponder n)) :
    ResponderRecords (respond n) := by
  intro ws s
  induction ws generalizing s with
  | nil =>
    rw [respond_nil]
    exact .refl s
  | cons w ws ih =>
    rw [respond_cons]
    exact ((WritesRecorded.refl s).andThen (collaboratorWord_records h w)).trans (ih _)

/-- A response of any depth records what it writes. -/
theorem respond_records (n : Nat) : ResponderRecords (respond n) := by
  induction n with
  | zero => exact respond_records_of_inner fun _ s => .refl s
  | succ n ih => exact respond_records_of_inner ih

/-! ### Slots and commands -/

theorem settle_records (r : MicroResult) (s : State) : WritesRecorded s (settle r s) := by
  unfold settle
  split
  · split
    · exact .of_faulted List.prefix_rfl (by simp)
    · exact .of_peek List.prefix_rfl id fun _ _ => rfl
  · exact .of_peek List.prefix_rfl id fun _ _ => rfl
  · exact .of_faulted List.prefix_rfl (by simp)

theorem withCpu_records (c : Cpu) (s : State) : WritesRecorded s { s with cpu := c } :=
  .of_peek List.prefix_rfl id fun _ _ => rfl

theorem afterAccess_records (x : Cpu × MicroResult) (s : State) : WritesRecorded s (afterAccess x s) :=
  (withCpu_records x.1 s).trans (settle_records x.2 _)

theorem runPlan_records (plan : MicroPlan) (s : State) : WritesRecorded s (runPlan plan s) := by
  cases plan with
  | done c r => exact afterAccess_records (c, r) s
  | read c a k =>
    exact ((withCpu_records c s).trans (handlerRead_records (respond_records _) _ a _)).andThen
      (f := fun t => afterAccess (k t.cpu (cpuReadByte a s)) t) fun _ => afterAccess_records _ _
  | write c a d k =>
    exact ((withCpu_records c s).trans (handlerWrite_records (respond_records _) _ a d _)).andThen
      (f := fun t => afterAccess (k t.cpu) t) fun _ => afterAccess_records _ _

theorem fireExternal_records (i : EventId) (s : State) : WritesRecorded s (fireExternal i s) :=
  WritesRecorded.trans (t := { s.record (.fire i s.clk.now) with
      env := { s.env with events := eventRepliesLeft i s.env.events } })
    (.of_peek (List.prefix_append _ _) id fun _ _ => rfl) (respond_records _ _ _)

theorem writesRecorded_leads (s : State) : HostLeads (WritesRecorded s) (WritesRecorded s) where
  idle _ h := h
  fail _ _ h := .of_faulted h.history (by simp)
  halted _ h := ⟨h.history, h.live, h.bytes⟩
  pop _ _ _ _ h := ⟨h.history, h.live, h.bytes⟩
  slot t h := h.trans (runPlan_records _ t)
  resched t hf h := h.trans (.of_frame hf (schedule_frame _ _ _ t) (schedule_env _ _ _ t))
  release _ h := ⟨h.history, h.live, h.bytes⟩
  fire i t h := h.trans (fireExternal_records i t)
  loop _ _ h := ⟨h.history, h.live, h.bytes⟩
  clear _ h := ⟨h.history, h.live, h.bytes⟩
  rst _ h := ⟨h.history, h.live, h.bytes⟩

theorem effect_internal_env {i : Instr} (hi : i.cmdClass = .internal) (s : State) : (effect i s).env = s.env := by
  cases i with
  | trigirq => rfl
  | clrirq => rfl
  | trignmi => rfl
  | clrnmi => rfl
  | setrdy b => exact setRdy_env b s
  | _ => cases hi

/-- The effect of an input that passes its check, but for `MRESET`. -/
theorem effect_records {i : Instr} {issuer : Issuer} {s : State} (hc : classFault issuer i.cmdClass = none)
    (hm : i ≠ .mreset) (hf : s.fault = none) : WritesRecorded s (effect i s) := by
  obtain hi | hi | ⟨hi, -⟩ := classFault_eq_none hc
  · rw [effect_external hi]
    exact externalOp_records (respond_records _) i hf
  · exact (writesRecorded_leads s).host hi hm hf (.refl s)
  · exact .of_frame hf (effect_internal_frame hi s) (effect_internal_env hi s)

/-- `MRESET` empties the history and leaves every byte (70_reset_and_hazards.md R260). -/
theorem machineReset_peek (s : State) (h : Handler) (a : Addr) :
    (machineReset s).env.peek h a = s.env.peek h a := by
  rw [machineReset_eq, schedule_env]
  rfl

/-- A step that leaves no fault changes a byte only where a write of it is among the new entries. -/
theorem step_peek_ne {s t : State} (hst : step s = .next t) (hl : t.fault = none) {h : Handler} {a : Addr}
    (hne : t.env.peek h a ≠ s.env.peek h a) :
    h = .ram ∧ ∃ d, HistEntry.write .ram a d ∈ t.hist.drop s.hist.length := by
  cases step_cases hst with
  | idle => exact absurd rfl hne
  | more hf x hx => exact ((writesRecorded_leads s).stepMore x hf (.refl s)).bytes hl h a hne
  | refused rest f inp hin => simp at hl
  | runs hf rest inp i hin hd hc =>
    by_cases hm : i = .mreset
    · subst hm
      exact absurd (machineReset_peek { s with inputs := rest } h a) hne
    · exact (effect_records (s := { s with inputs := rest }) hc hm hf).bytes hl h a hne

/-- Settles O59: a changed byte is of `RAM` and its write is recorded, by `step_peek_ne`. -/
theorem memoryChangesOnlyByRecordedWrites : Obligations.MemoryChangesOnlyByRecordedWrites := by
  intro s t h a hst hl hno
  by_contra hne
  obtain ⟨hram, d, hd⟩ := step_peek_ne hst hl hne
  rcases hno with hno | hno
  · exact hno d hd
  · exact hno hram

end Sys2Proof.Machine
end

section
/-! The encodings: decoding and encoding are inverse in each of the three spaces (30_encoding.md R96, R100, R101), and the
command decoder is the table of masks and matches (R99). -/

namespace Sys2Proof

/-! ### Decoding what was encoded -/

theorem decodePhase_encodePhase (ph : Phase) : decodePhase (encodePhase ph) = .ok ph := by
  cases ph <;> rfl

theorem owner_eq_collaborator_iff (id : EventId) : Config.owner id = .collaborator ↔ 3 ≤ id.toNat := by
  simp only [Config.owner]
  split <;> simp <;> omega

/-- Settles O1: where operands are wide, each field the decoder reads is a part of the concatenation the encoder made; the
other instructions have one encoding or a few. -/
theorem decodeInvertsEncode : Obligations.DecodeInvertsEncode := by
  intro i hwf
  cases i with
  | sched _ _ _ | cancel _ | cpurd _ | cpuwr _ _ | vicrd1 _ | vicrd2 _ =>
    simp (disch := decide) only [decode, encode, decodeCommand, decodeSched, field, Nat.reduceSub,
      BitVec.extractLsb'_append_eq_of_le, BitVec.extractLsb'_append_eq_of_add_le, BitVec.extractLsb'_eq_self,
      decodePhase_encodePhase]
    rfl
  | setport loram hiram charen => revert loram hiram charen; decide
  | setge game1 exrom1 game2 exrom2 => revert game1 exrom1 game2 exrom2; decide
  | setvicbase base => revert base; decide
  | setdmaovr s | setba s | setirq s | setnmi s | setrdy s => cases s <;> decide
  | extEvent id =>
    have hid : 3 ≤ id.toNat := (owner_eq_collaborator_iff id).mp (of_decide_eq_true hwf)
    exact congrArg _ (Machine.decodeEvent_external hid)
  | _ => decide

/-! ### Encoding what was decoded -/

/-- Two fields side by side are one. -/
theorem field_append_field (w : CommandWord) {lo mid m n : Nat} (h : mid = lo + n) :
    field w mid m ++ field w lo n = field w lo (m + n) :=
  BitVec.extractLsb'_append_extractLsb'_eq_extractLsb' h

theorem field_zero_32 (w : CommandWord) : field w 0 32 = w := BitVec.extractLsb'_eq_self

theorem bitOf_boolOf (x : BitVec 1) : bitOf (boolOf x) = x := by
  revert x
  decide

theorem eq_ofNat_of_toNat_eq {n k : Nat} {x : BitVec n} (h : x.toNat = k) : x = BitVec.ofNat n k := by
  rw [← h, BitVec.ofNat_toNat, BitVec.setWidth_eq]

theorem whenZero_eq_ok_iff {n : Nat} {r : BitVec n} {i j : Instr} : whenZero r i = .ok j ↔ r = 0 ∧ i = j := by
  simp only [whenZero]
  split <;> simp_all

theorem encodePhase_of_decodePhase {x : BitVec 2} {ph : Phase} (h : decodePhase x = .ok ph) : encodePhase ph = x := by
  revert x
  cases ph <;> decide

theorem encode_of_decodeSched {w : CommandWord} {i : Instr} (hop : field w 26 6 = 1#6)
    (h : decodeSched w = .ok i) : encode i = .command w := by
  unfold decodeSched at h
  split at h
  · next ph hph =>
    cases h
    simp (disch := decide) only [encode, BitVec.ofNat_eq_ofNat, ← hop, encodePhase_of_decodePhase hph,
      field_append_field]
    exact congrArg _ (field_zero_32 w)
  · cases h

/-- A word that decodes is the word of what it decodes to: the fields of its row, side by side, are the whole word. -/
theorem encode_of_decodeCommand {w : CommandWord} {i : Instr} (h : decodeCommand w = .ok i) : encode i = .command w := by
  unfold decodeCommand at h
  split at h
  case h_25 => cases h -- the op is unassigned
  all_goals
    rename_i hop
    replace hop := eq_ofNat_of_toNat_eq hop
  case h_1 => exact encode_of_decodeSched hop h
  all_goals
    obtain ⟨hr, rfl⟩ := whenZero_eq_ok_iff.mp h
    simp (disch := decide) only [encode, bareWord, boolWord, flag, bitOf_boolOf, BitVec.ofNat_eq_ofNat, ← hop, ← hr,
      field_append_field]
    exact congrArg _ (field_zero_32 w)

/-- An instruction with a command word is a command, and every command is well formed. -/
theorem wf_of_encode_command {w : CommandWord} {i : Instr} (h : encode i = .command w) : i.wf = true := by
  cases i with
  | extEvent id => cases h
  | _ => rfl

theorem decodeEvent_inverts (id : EventId) : (decodeEvent id).wf = true ∧ encode (decodeEvent id) = .event id := by
  by_cases hid : 3 ≤ id.toNat
  · rw [Machine.decodeEvent_external hid]
    exact ⟨decide_eq_true ((owner_eq_collaborator_iff id).mpr hid), rfl⟩
  · have : id = 0 ∨ id = 1 ∨ id = 2 := by bv_omega
    obtain rfl | rfl | rfl := this <;> exact ⟨rfl, rfl⟩

theorem decodeOpcode_inverts {b : Byte} {i : Instr} (h : decodeOpcode b = .ok i) :
    i.wf = true ∧ encode i = .opcode b := by
  unfold decodeOpcode at h
  split at h
  case h_15 => cases h
  all_goals
    rename_i hb
    cases h
    exact ⟨rfl, congrArg _ (eq_ofNat_of_toNat_eq hb).symm⟩

/-- Settles O2, space by space. -/
theorem encodeInvertsDecode : Obligations.EncodeInvertsDecode := by
  intro e i h
  cases e with
  | command w =>
    have hw : encode i = .command w := encode_of_decodeCommand h
    exact ⟨wf_of_encode_command hw, hw⟩
  | event id =>
    cases h
    exact decodeEvent_inverts id
  | opcode b => exact decodeOpcode_inverts h

/-! ### Masks and matches -/

/-- A row of the command table by its fields: the op, and the reserved field, `len` bits from bit `lo` up
(30_encoding.md R96, R97). -/
structure CommandRow where
  op : BitVec 6
  lo : Nat
  len : Nat
  deriving DecidableEq

namespace CommandRow

/-- The bits a row fixes: the op field and the reserved field. -/
def mask (r : CommandRow) : CommandWord := BitVec.allOnes 6 ++ (BitVec.allOnes r.len).setWidth 26 <<< r.lo

/-- A word is of a row: it has the row's op, and its reserved field is zero. -/
def Fits (r : CommandRow) (w : CommandWord) : Prop := field w 26 6 = r.op ∧ field w r.lo r.len = 0

end CommandRow

/-- The rows in the order of the table. -/
def commandRows : List CommandRow :=
  [⟨0x01, 0, 0⟩, ⟨0x02, 0, 18⟩, ⟨0x03, 0, 26⟩, ⟨0x04, 0, 26⟩, ⟨0x05, 0, 26⟩, ⟨0x06, 0, 26⟩, ⟨0x08, 16, 10⟩,
    ⟨0x09, 24, 2⟩, ⟨0x0A, 14, 12⟩, ⟨0x0B, 14, 12⟩, ⟨0x0C, 3, 23⟩, ⟨0x0D, 4, 22⟩, ⟨0x0E, 2, 24⟩, ⟨0x0F, 1, 25⟩,
    ⟨0x10, 1, 25⟩, ⟨0x11, 1, 25⟩, ⟨0x12, 1, 25⟩, ⟨0x18, 0, 26⟩, ⟨0x19, 0, 26⟩, ⟨0x1A, 0, 26⟩, ⟨0x1B, 0, 26⟩,
    ⟨0x1C, 0, 26⟩, ⟨0x1D, 1, 25⟩, ⟨0x1E, 0, 26⟩]

theorem commandTable_eq : commandTable = commandRows.map fun r => (r.mask, bareWord r.op) := by decide

theorem commandRows_reserved : ∀ r ∈ commandRows, r.lo + r.len ≤ 26 := by decide

theorem commandRows_op : commandRows.Pairwise fun r q => r.op ≠ q.op := by decide

theorem commandRows_eq_of_op : ∀ r ∈ commandRows, ∀ q ∈ commandRows, r.op = q.op → r = q := by decide

theorem append_eq_append_iff {m n : Nat} {x u : BitVec m} {y v : BitVec n} : x ++ y = u ++ v ↔ x = u ∧ y = v := by
  constructor
  · intro h
    have hx := congrArg (BitVec.extractLsb' n m) h
    have hy := congrArg (BitVec.extractLsb' 0 n) h
    simp only [BitVec.extractLsb'_append_eq_left, BitVec.extractLsb'_append_eq_right] at hx hy
    exact ⟨hx, hy⟩
  · rintro ⟨rfl, rfl⟩
    rfl

/-- Masking a field: nothing is left just when the field is zero. -/
theorem and_shifted_ones_eq_zero_iff {n lo len : Nat} (h : lo + len ≤ n) (x : BitVec n) :
    x &&& (BitVec.allOnes len).setWidth n <<< lo = 0 ↔ x.extractLsb' lo len = 0 := by
  simp only [BitVec.eq_of_getLsbD_eq_iff, BitVec.getLsbD_and, BitVec.getLsbD_shiftLeft, BitVec.getLsbD_setWidth,
    BitVec.getLsbD_allOnes, BitVec.getLsbD_extractLsb', BitVec.ofNat_eq_ofNat, BitVec.getLsbD_zero]
  constructor
  · intro hx k hk
    simpa [hk, show lo + k < n by omega, show k < n by omega] using hx (lo + k) (by omega)
  · intro hx k hk
    by_cases hlo : lo ≤ k ∧ k - lo < len
    · have hbit : x.getLsbD k = false := by simpa [hlo] using hx (k - lo) hlo.2
      simp [hbit]
    · simp
      omega

/-- The masked word as the masked op beside the masked operands. -/
theorem and_mask (r : CommandRow) (w : CommandWord) :
    w &&& r.mask = field w 26 6 ++ (field w 0 26 &&& (BitVec.allOnes r.len).setWidth 26 <<< r.lo) := by
  have hw : field w 26 6 ++ field w 0 26 = w := (field_append_field w rfl).trans (field_zero_32 w)
  rw [CommandRow.mask, ← BitVec.and_allOnes (x := field w 26 6), ← BitVec.and_append, hw]

theorem extract_field (w : CommandWord) {lo len : Nat} (h : lo + len ≤ 26) :
    (field w 0 26).extractLsb' lo len = field w lo len :=
  BitVec.extractLsb'_extractLsb'_of_le h

/-- A word matches a row just when it fits the row's fields (30_encoding.md R99). -/
theorem and_mask_eq_iff {r : CommandRow} (h : r.lo + r.len ≤ 26) (w : CommandWord) :
    w &&& r.mask = bareWord r.op ↔ r.Fits w := by
  rw [and_mask, bareWord, append_eq_append_iff, and_shifted_ones_eq_zero_iff h, extract_field w h, CommandRow.Fits]

theorem exists_whenZero_iff {n : Nat} {r : BitVec n} {i : Instr} : (∃ j, whenZero r i = .ok j) ↔ r = 0 := by
  simp [whenZero_eq_ok_iff]

theorem exists_decodePhase_iff {x : BitVec 2} : (∃ ph, decodePhase x = .ok ph) ↔ x ≠ 3 := by
  constructor
  · rintro ⟨ph, h⟩ rfl
    cases h
  · intro h
    have hx : x = 0 ∨ x = 1 ∨ x = 2 := by bv_omega
    obtain rfl | rfl | rfl := hx <;> exact ⟨_, rfl⟩

theorem exists_decodeSched_iff {w : CommandWord} : (∃ i, decodeSched w = .ok i) ↔ field w 16 2 ≠ 3 := by
  rw [← exists_decodePhase_iff, decodeSched]
  split <;> simp [*]

/-- A word fits some row just when it fits the one row of its op. -/
theorem exists_fits_iff {w : CommandWord} {r : CommandRow} (hr : r ∈ commandRows) (hop : field w 26 6 = r.op) :
    (∃ q ∈ commandRows, q.Fits w) ↔ field w r.lo r.len = 0 := by
  constructor
  · rintro ⟨q, hq, hqop, hz⟩
    obtain rfl : q = r := commandRows_eq_of_op q hq r hr (hqop.symm.trans hop)
    exact hz
  · exact fun hz => ⟨r, hr, hop, hz⟩

/-- The branch of a row but `SCHED`'s tests the row's reserved field. -/
theorem exists_whenZero_iff_fits {w : CommandWord} {op : BitVec 6} {lo len : Nat} {i : Instr}
    (hop : field w 26 6 = op) (hr : ⟨op, lo, len⟩ ∈ commandRows) (hne : op ≠ 1) :
    (∃ j, whenZero (field w lo len) i = .ok j) ↔
      (∃ r ∈ commandRows, r.Fits w) ∧ ¬(field w 26 6 = 1 ∧ field w 16 2 = 3) := by
  rw [exists_whenZero_iff, exists_fits_iff hr hop, and_iff_left fun h => hne (hop.symm.trans h.1)]

/-- The branches of the decoder are the rows; `SCHED`'s has no reserved field and tests the phase. -/
theorem exists_decodeCommand_iff (w : CommandWord) :
    (∃ i, decodeCommand w = .ok i) ↔ (∃ r ∈ commandRows, r.Fits w) ∧ ¬(field w 26 6 = 1 ∧ field w 16 2 = 3) := by
  unfold decodeCommand
  split
  case h_25 => -- no row has the op of the word
    have hop : ∀ r ∈ commandRows, field w 26 6 ≠ r.op := by
      simp only [commandRows, List.forall_mem_cons, BitVec.toNat_ne, List.not_mem_nil, false_imp_iff, implies_true,
        and_true]
      and_intros <;> assumption
    refine iff_of_false ?_ fun ⟨⟨r, hr, hfit⟩, _⟩ => hop r hr hfit.1
    rintro ⟨i, ⟨⟩⟩
  all_goals
    rename_i hop
    replace hop := eq_ofNat_of_toNat_eq hop
  case h_1 =>
    rw [exists_decodeSched_iff, exists_fits_iff (r := ⟨1, 0, 0⟩) (by decide) hop]
    simp [hop, BitVec.of_length_zero]
  all_goals exact exists_whenZero_iff_fits hop (by decide) (by decide)

/-- Settles O3: the rows by their fields are the decoder's branches, and no two have one op. -/
theorem decoderIsMaskAndMatch : Obligations.DecoderIsMaskAndMatch := by
  have hrow : ∀ r ∈ commandRows, ∀ w : CommandWord, w &&& r.mask = bareWord r.op ↔ r.Fits w := fun r hr =>
    and_mask_eq_iff (commandRows_reserved r hr)
  rw [Obligations.DecoderIsMaskAndMatch, commandTable_eq]
  refine ⟨fun w => (exists_decodeCommand_iff w).trans (and_congr_left fun _ => ?_), ?_⟩
  · simp only [List.mem_map, exists_exists_and_eq_and]
    exact exists_congr fun r => and_congr_right fun hr => (hrow r hr w).symm
  · rw [List.pairwise_map]
    refine commandRows_op.imp_of_mem fun hr hq hne w ⟨h1, h2⟩ => hne ?_
    rw [← ((hrow _ hr w).mp h1).1, ((hrow _ hq w).mp h2).1]

end Sys2Proof
end

section
/-! Words from outside: the spec's own words, the refused ones, and the commands of a response (30_encoding.md R97,
60_exceptions.md R222; 40_clock.md R128). -/

namespace Sys2Proof.Machine

/-- Settles O4: each word runs through its branch of the decoder. -/
theorem specWordsDecode : Obligations.SpecWordsDecode := by
  unfold Obligations.SpecWordsDecode
  and_intros <;> rfl

/-! ### Refused inputs -/

theorem checkInput_illegal {inp : Input} {r : Reject} (h : decodeCommand inp.word = .error r) :
    checkInput inp = .error .badCommand := by
  simp only [checkInput, h]

theorem checkInput_refused {inp : Input} {i : Instr} {f : FaultCode} (hd : decodeCommand inp.word = .ok i)
    (hc : classFault inp.issuer i.cmdClass = some f) : checkInput inp = .error f := by
  simp only [checkInput, hd, hc]

/-- Settles O6: an input that does not pass its check is consumed and raises the fault of the check. -/
theorem refusedWordsFault : Obligations.RefusedWordsFault := by
  intro s inp rest hf hx hin
  have hstep : ∀ f, checkInput inp = .error f → step s = .next (raise f { s with inputs := rest }) := fun f =>
    step_of_checkInput_eq_error hf hx hin
  exact ⟨fun r hd => hstep _ (checkInput_illegal hd),
    fun i hd hi hb => hstep _ (checkInput_refused hd (by simp [classFault, hi, hb])),
    fun i hd hi hb => hstep _ (checkInput_refused hd (by simp [classFault, hi, hb]))⟩

/-! ### Responses -/

theorem collaboratorWord_illegal {w : CommandWord} {r : Reject} (h : decodeCommand w = .error r) (resp : Responder)
    (s : State) : collaboratorWord resp w s = raise .badCommand s := by
  simp only [collaboratorWord, h]

theorem collaboratorWord_refused {w : CommandWord} {i : Instr} {f : FaultCode} (hd : decodeCommand w = .ok i)
    (hc : classFault .collaborator i.cmdClass = some f) (resp : Responder) (s : State) :
    collaboratorWord resp w s = raise f s := by
  simp only [collaboratorWord, hd, hc]

/-- An external command in a response has the meaning it has on its own: the responses nested in it are as deep. -/
theorem collaboratorWord_external {w : CommandWord} {i : Instr} (hd : decodeCommand w = .ok i)
    (hi : i.cmdClass = .external) (s : State) :
    collaboratorWord (innerResponder s.env.calls.length) w s = effect i s := by
  have hagree : AgreeBelow (innerResponder s.env.calls.length) s.responder s.env.calls.length := by
    refine ⟨fun t => by simp [State.responder], fun ws t ht => ?_⟩
    cases hn : s.env.calls.length with
    | zero => omega
    | succ n =>
      rw [State.responder, hn]
      exact respond_depth n n (n + 1) (Nat.le_refl n) (Nat.le_succ n) ws t (by omega)
  rw [collaboratorWord_congr hagree, effect_external hi]
  simp only [collaboratorWord, hd, hi, classFault]

theorem responder_cons {s : State} (hf : s.fault = none) (w : CommandWord) (ws : List CommandWord) :
    s.responder (w :: ws) s =
      respond s.env.calls.length ws (collaboratorWord (innerResponder s.env.calls.length) w s) := by
  rw [State.responder, respond_cons, andThen_live hf]

/-- A word that raises a fault ends the response. -/
theorem responder_cons_raise {s : State} {w : CommandWord} {f : FaultCode} (hf : s.fault = none)
    (h : ∀ resp, collaboratorWord resp w s = raise f s) (ws : List CommandWord) :
    s.responder (w :: ws) s = raise f s := by
  rw [responder_cons hf, h, respond_faulted _ _ rfl]

/-- An external command leaves no more scripted replies than it found. -/
theorem effect_external_calls {i : Instr} (hi : i.cmdClass = .external) {s : State} (hf : s.fault = none) :
    (effect i s).env.calls.length ≤ s.env.calls.length := by
  rw [effect_external hi]
  exact externalOp_keeps (callsLength_keeps _) (responder_keeps (callsLength_keeps _) s) i s hf (Nat.le_refl _)

/-- Settles O25, word by word: the rest of a response runs as deep as the script left by its first command asks. -/
theorem responseIsASequenceOfCommands : Obligations.ResponseIsASequenceOfCommands := by
  intro s w ws hf
  refine ⟨respond_nil _ s, ?external, ?illegal, ?host, ?internal, fun f => respond_faulted _ _ rfl⟩
  case external =>
    intro i t hd hi h
    rw [exec_live i hf] at h
    cases h
    rw [responder_cons hf, collaboratorWord_external hd hi]
    exact respond_eq_responder (effect_external_calls hi hf) ws
  case illegal => exact fun r hd => responder_cons_raise hf (fun resp => collaboratorWord_illegal hd resp s) ws
  case host => exact fun i hd hi => reentrantInResponse_of_host hi w ws s hd hf
  case internal =>
    exact fun i hd hi => responder_cons_raise hf
      (fun resp => collaboratorWord_refused hd (by simp [hi, classFault]) resp s) ws

/-- Settles O55: the frame of an external command's effect; a faulted machine does not change. -/
theorem externalCommandsKeepTheCpu : Obligations.ExternalCommandsKeepTheCpu := by
  intro i s t hi h
  obtain ⟨-, rfl⟩ | ⟨hf, rfl⟩ := exec_cases h
  · exact .refl _
  · exact effect_external_frame hi hf

end Sys2Proof.Machine
end

section
/-! The trigger time (30_encoding.md R93). -/

namespace Sys2Proof.Machine

theorem triggerTime_any (now : Time) (c : Nat) : triggerTime now c .any = 2 * c + now.toNat := rfl

theorem triggerTime_phi1 (now : Time) (c : Nat) :
    triggerTime now c .phi1 = 2 * c + now.toNat + (if now.toNat % 2 = 1 then 1 else 0) := by
  simp only [triggerTime, phaseAdjust]
  split <;> split <;> omega

theorem triggerTime_phi2 (now : Time) (c : Nat) :
    triggerTime now c .phi2 = 2 * c + now.toNat + (if now.toNat % 2 = 0 then 1 else 0) := by
  simp only [triggerTime, phaseAdjust]
  split <;> split <;> omega

theorem triggerTime_phi1_even (now : Time) (c : Nat) : triggerTime now c .phi1 % 2 = 0 := by
  rw [triggerTime_phi1]
  split <;> omega

/-- A trigger time that does not fit is a fault. -/
theorem schedule_overflow {i : EventId} {c : Nat} {ph : Phase} {s : State} (hi : i ∉ s.clk.pending)
    (h : 2 ^ 64 ≤ triggerTime s.clk.now c ph) : schedule i c ph s = raise .timeOverflow s := by
  rcases schedule_cases i c ph s with ⟨hp, -⟩ | ⟨-, -, e⟩ | ⟨-, hlt, -⟩ | ⟨-, hlt, -⟩
  · exact absurd hp hi
  · exact e
  · omega
  · omega

/-- Settles O13: the three phases' formulas, with the adjustment read off the parity of the present time. -/
theorem triggerTimeFormula : Obligations.TriggerTimeFormula := by
  intro now c
  refine ⟨triggerTime_any now c, triggerTime_phi1 now c, triggerTime_phi2 now c, triggerTime_phi1_even now c,
    triggerTime_phi2_odd now c, ?_⟩
  rintro i ph s rfl
  exact schedule_overflow

end Sys2Proof.Machine
end

section
/-! Without a pending tick the CPU never runs again, until `MRESET` (70_reset_and_hazards.md R272). -/

namespace Sys2Proof.Machine

/-- Neither tick is pending. -/
def State.NoTick (s : State) : Prop := ∀ m : Mode, m.tick ∉ s.clk.pending

theorem noTick_pop {s : State} {i : EventId} {rest : List EventId} (hp : s.clk.pending = i :: rest) (h : s.NoTick) :
    (popHead i s).NoTick := by
  rw [popHead_of_pending hp]
  exact fun m hm => h m (by rw [hp]; exact List.mem_cons_of_mem i hm)

theorem fireExternal_noTick (i : EventId) {s : State} (h : s.NoTick) : (fireExternal i s).NoTick :=
  responder_keeps noTick_keeps _ _ _ h

/-- The callback of an event that is no tick leaves none pending. -/
theorem callback_noTick {i : EventId} (hi : ∀ m : Mode, m.tick ≠ i) {s : State} (h : s.NoTick) :
    (callback i s).NoTick := by
  by_cases h3 : 3 ≤ i.toNat
  · rw [callback_external h3]
    exact fireExternal_noTick i h
  · have : i = Mode.nonStealing.tick ∨ i = Mode.stealing.tick ∨ i = Config.aecId := by
      simp only [Mode.tick, Config.tickNsId, Config.tickStId, Config.aecId]
      bv_omega
    obtain rfl | rfl | rfl := this
    · exact absurd rfl (hi _)
    · exact absurd rfl (hi _)
    · exact h

theorem runNext_noTick {s : State} (h : s.NoTick) : (runNext s).NoTick := by
  cases hp : s.clk.pending with
  | nil =>
    rw [runNext_nil hp]
    exact h
  | cons i rest =>
    have hi : ∀ m : Mode, m.tick ≠ i := fun m hm => h m (by simp [hp, hm])
    simp only [runNext, hp]
    exact callback_noTick hi (noTick_pop hp h)

theorem stepFirst_noTick {s : State} (h : s.NoTick) : (stepFirst s).NoTick :=
  andThen_keeps (runNext_noTick h) fun _ ht => ht

theorem stepMore_noTick (x : Time) {s : State} (h : s.NoTick) : (stepMore x s).NoTick := by
  simp only [stepMore]
  split
  · exact andThen_keeps (runNext_noTick (s := { s with stepping := none }) h) fun _ ht => ht
  · exact h

/-- No input that runs brings a tick back, but for `MRESET`. -/
theorem effect_noTick {i : Instr} {issuer : Issuer} {s : State} (hc : classFault issuer i.cmdClass = none)
    (hm : i ≠ .mreset) (hf : s.fault = none) (h : s.NoTick) : (effect i s).NoTick := by
  obtain hi | hi | ⟨hi, -⟩ := classFault_eq_none hc
  · rw [effect_external hi]
    exact externalOp_keeps noTick_keeps (responder_keeps noTick_keeps s) i s hf h
  · cases i with
    | runnext => exact runNext_noTick h
    | step => exact stepFirst_noTick h
    | clkreset => exact fun m hm => absurd hm List.not_mem_nil
    | trigrst => exact h
    | build => exact h
    | mreset => exact absurd rfl hm
    | _ => cases hi
  · cases i with
    | trigirq => exact h
    | clrirq => exact h
    | trignmi => exact h
    | clrnmi => exact h
    | setrdy b =>
      have hclk : (effect (.setrdy b) s).clk = s.clk := noTick_setRdy h
      rw [State.NoTick, hclk]
      exact h
    | _ => cases hi

/-- Settles O23: the head that runs is no tick, and what its callback and the other commands schedule is none. -/
theorem onlyMresetRestartsTheCpu : Obligations.OnlyMresetRestartsTheCpu := by
  intro s t h hst hhead
  cases step_cases hst with
  | idle => exact h
  | more hf x hx => exact stepMore_noTick x h
  | refused rest f inp hin => exact h
  | runs hf rest inp i hin hd hc =>
    refine effect_noTick (s := { s with inputs := rest }) hc ?_ hf h
    rintro rfl
    exact hhead inp (by simp [hin]) hd

end Sys2Proof.Machine
end

section
/-! The slots of RTI (60_exceptions.md R236; log 8). -/

namespace Sys2Proof.Machine

/-- A slot of RTI that reads and drops the byte. -/
theorem exec_rti_dummyRead {k : BitVec 3} {a : Addr} {s : State}
    (h : rtiSlots k s.params s.cpu = dummyRead s.cpu a id) (hk : k.toNat ≠ 7) (hf : s.fault = none)
    (hc : s.cpu.cc = slotOf 0x40 k) :
    exec .rti s = .next ((cpuRead s.responder a s).andThen fun t => t.ran (slotOf 0x40 (k + 1)) s.cpu.regs) := by
  rw [exec_rti hf]
  exact congrArg _ (opcodeSlot_read hc hk s.cpu rfl a (fun _ => id) (by rw [slotOp_rti, h]; rfl))

/-- A slot of RTI that pulls a byte. -/
theorem exec_rti_pull {k : BitVec 3} {f : Byte → Regs → Regs} {s : State}
    (h : rtiSlots k s.params s.cpu = pull s.cpu f) (hk : k.toNat ≠ 7) (hf : s.fault = none)
    (hc : s.cpu.cc = slotOf 0x40 k) :
    exec .rti s = .next ((cpuRead s.responder (0x0100 + (s.cpu.regs.sp + 1).setWidth 16)
      { s with cpu := { s.cpu with regs := { s.cpu.regs with sp := s.cpu.regs.sp + 1 } } }).andThen fun t =>
        t.ran (slotOf 0x40 (k + 1)) (f (cpuReadByte (0x0100 + (s.cpu.regs.sp + 1).setWidth 16) s)
          { s.cpu.regs with sp := s.cpu.regs.sp + 1 })) := by
  rw [exec_rti hf, ← stackAddr_eq]
  exact congrArg _ (opcodeSlot_read hc hk (s.cpu.mapRegs fun r => { r with sp := r.sp + 1 }) rfl _ f
    (by rw [slotOp_rti, h]; rfl))

end Sys2Proof.Machine

namespace Sys2Proof

open Machine

/-- Settles O47: the first two slots read and drop the byte, the next three pull one. -/
theorem rtiSlots : Obligations.RtiSlots := by
  rintro s _ _ _ hf rfl rfl rfl
  refine ⟨?_, ?_, ?_, ?_, ?_⟩
  · exact exec_rti_dummyRead (k := 0) rfl (by decide) hf
  · rw [← stackAddr_eq]
    exact exec_rti_dummyRead (k := 1) rfl (by decide) hf
  · exact exec_rti_pull (k := 2) rfl (by decide) hf
  · exact exec_rti_pull (k := 3) rfl (by decide) hf
  · exact exec_rti_pull (k := 4) rfl (by decide) hf

end Sys2Proof
end

section
/-! `SCHED`, `CANCEL` and `CLKRESET` (40_clock.md R121, R122, R123, R126). -/

namespace Sys2Proof.Machine

/-! ### Who may issue them -/

theorem owner_block {i : EventId} (h : i.toNat < 3) : Config.owner i = .block := if_pos h

theorem owner_external {i : EventId} (h : 3 ≤ i.toNat) : Config.owner i = .collaborator :=
  (owner_eq_collaborator_iff i).mpr h

theorem schedExternal_block {i : EventId} (h : i.toNat < 3) (cyc : BitVec 16) (ph : Phase) (s : State) :
    schedExternal i cyc ph s = raise .foreignEvent s := by
  simp only [schedExternal, owner_block h]

theorem schedExternal_eq_schedule {i : EventId} (h : 3 ≤ i.toNat) (cyc : BitVec 16) (ph : Phase) (s : State) :
    schedExternal i cyc ph s = schedule i cyc.toNat ph s := by
  simp only [schedExternal, owner_external h]

theorem cancelExternal_block {i : EventId} (h : i.toNat < 3) (s : State) :
    cancelExternal i s = raise .foreignEvent s := by
  simp only [cancelExternal, owner_block h]

theorem cancelExternal_eq_cancelEvent {i : EventId} (h : 3 ≤ i.toNat) (s : State) :
    cancelExternal i s = cancelEvent i s := by
  simp only [cancelExternal, owner_external h]

theorem exec_sched (i : EventId) (cyc : BitVec 16) (ph : Phase) {s : State} (h : s.fault = none) :
    exec (.sched i cyc ph) s = .next (schedExternal i cyc ph s) := exec_live (.sched i cyc ph) h

theorem exec_cancel (i : EventId) {s : State} (h : s.fault = none) :
    exec (.cancel i) s = .next (cancelExternal i s) := exec_live (.cancel i) h

/-! ### `SCHED` -/

theorem schedule_pending {i : EventId} {s : State} (h : i ∈ s.clk.pending) (c : Nat) (ph : Phase) :
    schedule i c ph s = raise .alreadyPending s :=
  if_pos ((isPending_iff _ _).mpr h)

/-- Of an event not pending and a trigger time that fits, only the walk bound is left to check. -/
theorem schedule_fits {i : EventId} {c : Nat} {ph : Phase} {s : State} {x : Time} (hi : i ∉ s.clk.pending)
    (hx : x.toNat = triggerTime s.clk.now c ph) :
    schedule i c ph s = if s.params.walkBound ≤ s.clk.insertPos x then raise .walkBound s
      else { s with clk := s.clk.scheduled i x } := by
  have hlt := x.isLt
  obtain rfl : x = BitVec.ofNat 64 (triggerTime s.clk.now c ph) := eq_ofNat_of_toNat_eq hx
  rcases schedule_cases i c ph s with ⟨hp, -⟩ | ⟨-, hge, -⟩ | ⟨-, -, hk, e⟩ | ⟨-, -, hk, e⟩
  · exact absurd hp hi
  · omega
  · rw [e, if_pos hk]
  · rw [e, if_neg (Nat.not_le_of_lt hk)]

theorem insertPos_le_length (c : Clk) (x : Time) : c.insertPos x ≤ c.pending.length := List.countP_le_length

/-- What a `SCHED` from outside without a fault has found and done. -/
theorem exec_sched_faultFree {i : EventId} {cyc : BitVec 16} {ph : Phase} {s t : State} (hs : s.fault = none)
    (h : exec (.sched i cyc ph) s = .next t) (ht : t.fault = none) :
    3 ≤ i.toNat ∧ i ∉ s.clk.pending ∧ ∃ x : Time, x.toNat = triggerTime s.clk.now cyc.toNat ph ∧
      s.clk.insertPos x < s.params.walkBound ∧ t = { s with clk := s.clk.scheduled i x } := by
  rw [exec_sched i cyc ph hs] at h
  cases h
  by_cases h3 : 3 ≤ i.toNat
  · rw [schedExternal_eq_schedule h3] at ht ⊢
    rcases schedule_cases i cyc.toNat ph s with ⟨-, e⟩ | ⟨-, -, e⟩ | ⟨-, -, -, e⟩ | ⟨hi, hlt, hk, e⟩ <;>
      rw [e] at ht
    · cases ht
    · cases ht
    · cases ht
    · exact ⟨h3, hi, _, by rw [BitVec.toNat_ofNat, Nat.mod_eq_of_lt hlt], hk, e⟩
  · rw [schedExternal_block (Nat.lt_of_not_le h3)] at ht
    cases ht

/-- Settles O14: the checks of `SCHED` in their order, then the insertion. -/
theorem schedCommand : Obligations.SchedCommand := by
  intro s hf
  refine ⟨fun i cyc ph => ⟨fun h => ?foreign, fun h => ?own, fun x h hi hx hlen => ?room⟩,
    fun i c ph => ⟨fun h => schedule_pending h c ph, fun hi h => schedule_overflow hi h, ?fits⟩⟩
  case foreign => rw [exec_sched i cyc ph hf, schedExternal_block h]
  case own => rw [exec_sched i cyc ph hf, schedExternal_eq_schedule h]
  case room =>
    have hk : s.clk.insertPos x < s.params.walkBound := Nat.lt_of_le_of_lt (insertPos_le_length _ _) hlen
    rw [exec_sched i cyc ph hf, schedExternal_eq_schedule h, schedule_fits hi hx, if_neg (Nat.not_le_of_lt hk)]
    rfl
  case fits =>
    rintro x _ hi hx rfl
    rw [schedule_fits hi hx]
    exact ⟨fun hk => if_pos hk, fun hk => if_neg (Nat.not_le_of_lt hk)⟩

/-- Settles O15: in a sorted list the insertion position splits the events not later from those later. -/
theorem schedPlacesFifo : Obligations.SchedPlacesFifo := by
  intro i cyc ph s t hinv h hs ht
  obtain ⟨-, hi, x, hx, -, rfl⟩ := exec_sched_faultFree hs h ht
  obtain ⟨hbefore, hafter⟩ := countP_split s.clk.pending x hinv.sorted
  have hnew : (s.clk.scheduled i x).time i = x := time_setTime_same _ _ _
  have hold : ∀ j ∈ s.clk.pending, (s.clk.scheduled i x).time j = s.clk.time j := fun j hj =>
    time_setTime_ne _ _ fun e => hi (e ▸ hj)
  have hsplit := List.take_append_drop (s.clk.insertPos x) s.clk.pending
  refine ⟨s.clk.pending.take (s.clk.insertPos x), s.clk.pending.drop (s.clk.insertPos x), hsplit.symm, rfl, ?time,
    fun j hj => ?before, fun j hj => ?after, fun j hj => hold j (hsplit ▸ hj), ?sorted⟩
  case time => exact (congrArg BitVec.toNat hnew).trans hx
  case before =>
    rw [hnew, hold j (List.mem_of_mem_take hj)]
    exact hbefore j hj
  case after =>
    rw [hnew, hold j (List.mem_of_mem_drop hj)]
    exact hafter j hj
  case sorted =>
    have htinv := inv_keeps.sched i cyc ph s hs hinv
    rw [exec_sched i cyc ph hs] at h
    rw [Host.Outcome.next.inj h] at htinv
    exact htinv.sorted

/-! ### `CANCEL` -/

theorem cancelEvent_notPending {i : EventId} {s : State} (h : i ∉ s.clk.pending) : cancelEvent i s = s :=
  if_neg (mt (isPending_iff _ _).mp h)

/-- Of a pending event, only the walk bound is left to check. -/
theorem cancelEvent_pending {i : EventId} {s : State} (h : i ∈ s.clk.pending) :
    cancelEvent i s = if s.params.walkBound ≤ s.clk.pending.idxOf i then raise .walkBound s
      else { s with clk := s.clk.unlink i } :=
  if_pos ((isPending_iff _ _).mpr h)

/-- Settles O16: the checks of `CANCEL` in their order, then the removal. -/
theorem cancelCommand : Obligations.CancelCommand := by
  intro s hf
  refine ⟨fun i => ⟨fun h => ?foreign, fun h => ?own, fun h hi hlen => ?room⟩,
    fun i => ⟨cancelEvent_notPending, fun hi hk => ?full, fun hi hk => ?unlinks⟩⟩
  case foreign => rw [exec_cancel i hf, cancelExternal_block h]
  case own => rw [exec_cancel i hf, cancelExternal_eq_cancelEvent h]
  case room =>
    have hk : s.clk.pending.idxOf i < s.params.walkBound := Nat.lt_of_lt_of_le (List.idxOf_lt_length_of_mem hi) hlen
    rw [exec_cancel i hf, cancelExternal_eq_cancelEvent h, cancelEvent_pending hi, if_neg (Nat.not_le_of_lt hk)]
    rfl
  case full => rw [cancelEvent_pending hi, if_pos hk]
  case unlinks =>
    rw [cancelEvent_pending hi, if_neg (Nat.not_le_of_lt hk)]
    rfl

/-! ### `CANCEL` after `SCHED` -/

theorem idxOf_insert {l : List EventId} {i : EventId} {k : Nat} (hi : i ∉ l) (hk : k ≤ l.length) :
    (l.take k ++ [i] ++ l.drop k).idxOf i = k := by
  rw [List.append_assoc, List.idxOf_append_of_notMem fun h => hi (List.mem_of_mem_take h)]
  simp [hk]

theorem erase_insert {l : List EventId} {i : EventId} (k : Nat) (hi : i ∉ l) :
    (l.take k ++ [i] ++ l.drop k).erase i = l := by
  rw [List.append_assoc, List.erase_append_right _ fun h => hi (List.mem_of_mem_take h)]
  simp

/-- Cancelling an event at the position it was just linked at is within the walk bound, and takes it out again. -/
theorem cancelEvent_scheduled {i : EventId} {s : State} {x : Time} (hi : i ∉ s.clk.pending)
    (hk : s.clk.insertPos x < s.params.walkBound) :
    cancelEvent i { s with clk := s.clk.scheduled i x } = { s with clk := s.clk.setTime i x } := by
  have hmem : i ∈ (s.clk.scheduled i x).pending := (mem_insert_iff _).mpr (.inl rfl)
  have hidx : (s.clk.scheduled i x).pending.idxOf i = s.clk.insertPos x := idxOf_insert hi (insertPos_le_length _ _)
  have herase : (s.clk.scheduled i x).pending.erase i = s.clk.pending := erase_insert _ hi
  rw [cancelEvent_pending (by exact hmem), if_neg (by rw [hidx]; exact Nat.not_le_of_lt hk)]
  simp only [Clk.unlink, herase]
  rfl

/-- Settles O17: the event is taken out where it was put in, and after that it is not pending. -/
theorem cancelUndoesSched : Obligations.CancelUndoesSched := by
  intro i cyc ph s t hs h ht
  obtain ⟨h3, hi, x, -, hk, rfl⟩ := exec_sched_faultFree hs h ht
  refine ⟨{ s with clk := s.clk.setTime i x }, ?_, hs, rfl, ?_⟩
  · rw [exec_cancel i ht, cancelExternal_eq_cancelEvent h3, cancelEvent_scheduled hi hk]
  · rw [exec_cancel i (by exact hs), cancelExternal_eq_cancelEvent h3, cancelEvent_notPending (by exact hi)]

/-! ### `CLKRESET` -/

/-- Settles O22: `CLKRESET` is of the host's class, and leaves nothing pending. -/
theorem clkresetCommand : Obligations.ClkresetCommand := by
  refine ⟨reentrantInResponse_of_host rfl, fun s hf => ⟨exec_live .clkreset hf, ?_⟩⟩
  exact (exec_live .runnext (s := clkReset s) hf).trans (congrArg _ (runNext_nil (s := clkReset s) rfl))

end Sys2Proof.Machine
end

section
/-! Time is monotonic (40_clock.md R129). -/

namespace Sys2Proof.Machine

/-! ### What leaves the time alone -/

theorem execSlot_now (s : State) : (execSlot s).clk.now = s.clk.now :=
  execSlot_keeps (now_keeps s.clk.now) (fun _ _ h _ _ _ => h) rfl

theorem reschedule_now (s : State) : (reschedule s).clk.now = s.clk.now := (schedule_frame _ _ _ s).now

theorem tickNs_now (s : State) : (tickNs s).clk.now = s.clk.now :=
  andThen_keeps (P := fun t => t.clk.now = s.clk.now) (execSlot_now s) fun _ h => (reschedule_now _).trans h

theorem tickSt_now (s : State) : (tickSt s).clk.now = s.clk.now := by
  unfold tickSt
  split
  · exact reschedule_now s
  · exact tickNs_now s

theorem fireExternal_now (i : EventId) (s : State) : (fireExternal i s).clk.now = s.clk.now :=
  (responder_frame _ _ _).now

theorem callback_now (i : EventId) (s : State) : (callback i s).clk.now = s.clk.now := by
  unfold callback
  split
  · exact tickNs_now s
  · exact tickSt_now s
  · rfl
  · exact fireExternal_now i s

/-! ### What moves it -/

/-- `RUNNEXT` sets the time to the head's; its callback does not move it (40_clock.md R124). -/
theorem runNext_now {i : EventId} {rest : List EventId} {s : State} (h : s.clk.pending = i :: rest) :
    (runNext s).clk.now = s.clk.time i := by
  rw [runNext_cons h, callback_now]

/-- Nothing is pending for the past, so `RUNNEXT` does not go back. -/
theorem now_le_runNext {s : State} (h : s.Inv) : s.clk.now ≤ (runNext s).clk.now := by
  cases hp : s.clk.pending with
  | nil =>
    rw [runNext_nil hp]
    exact BitVec.le_refl _
  | cons i rest =>
    rw [runNext_now hp]
    exact h.future i (by simp [hp])

theorem now_le_stepFirst {s : State} (h : s.Inv) : s.clk.now ≤ (stepFirst s).clk.now :=
  andThen_keeps (P := fun t => s.clk.now ≤ t.clk.now) (now_le_runNext h) fun _ ht => ht

/-- The head of a sorted list is the least pending. -/
theorem head_least {s : State} {i : EventId} {rest : List EventId} (h : s.Inv) (hp : s.clk.pending = i :: rest) :
    ∀ j ∈ s.clk.pending, s.clk.time i ≤ s.clk.time j := by
  have hs := h.sorted
  rw [hp] at hs ⊢
  exact List.forall_mem_cons.mpr ⟨BitVec.le_refl _, (List.pairwise_cons.mp hs).1⟩

/-- The instructions outside the host's class leave the time alone. -/
theorem effect_now {i : Instr} (hi : i.cmdClass ≠ .host) {s : State} (hf : s.fault = none) :
    (effect i s).clk.now = s.clk.now := by
  cases hc : i.cmdClass with
  | host => exact absurd hc hi
  | external => exact (effect_external_frame hc hf).now
  | internal => exact (effect_internal_frame hc s).now
  | callback =>
    cases i with
    | tickNs => exact tickNs_now s
    | tickSt => exact tickSt_now s
    | aecRelease => rfl
    | extEvent id => exact fireExternal_now id s
    | _ => cases hc
  | opcode =>
    obtain ⟨o, ho⟩ := effect_opcode hc
    rw [ho]
    exact execSlot_now _

/-- Of the host's commands only `CLKRESET` and `MRESET` go back. -/
theorem now_le_effect {i : Instr} (hclk : i ≠ .clkreset) (hm : i ≠ .mreset) {s : State} (hf : s.fault = none)
    (h : s.Inv) : s.clk.now ≤ (effect i s).clk.now := by
  by_cases hi : i.cmdClass = .host
  · cases i with
    | runnext => exact now_le_runNext h
    | step => exact now_le_stepFirst h
    | clkreset => exact absurd rfl hclk
    | mreset => exact absurd rfl hm
    | trigrst => exact BitVec.le_refl _
    | build => exact BitVec.le_refl _
    | _ => cases hi
  · rw [effect_now hi hf]
    exact BitVec.le_refl _

/-- Settles O12: only running an event moves the time, to the least pending one. -/
theorem timeIsMonotonic : Obligations.TimeIsMonotonic := by
  refine ⟨fun i s t hinv hclk hm h => ?monotone, fun now c ph => ?future, fun s t i rest hinv hf hp h => ?least,
    fun i c ph s hi h => schedule_overflow hi h⟩
  case monotone =>
    obtain ⟨-, rfl⟩ | ⟨hf, rfl⟩ := exec_cases h
    · exact BitVec.le_refl _
    · exact now_le_effect hclk hm hf hinv
  case future => exact Nat.le_trans (Nat.le_add_left _ _) (triggerTime_ge now c ph)
  case least =>
    rw [exec_live .runnext hf] at h
    cases h
    have hnow : (effect .runnext s).clk.now = s.clk.time i := runNext_now hp
    rw [hnow]
    exact ⟨rfl, head_least hinv hp⟩

end Sys2Proof.Machine
end

section
/-! A `STEP` command run to its end, or for ever (40_clock.md R125, R130; log 9). -/

namespace Sys2Proof.Machine

/-- The `STEP` word starts a `STEP`. -/
theorem step_of_stepWord {s : State} {r : List Input} (hf : s.fault = none) (hx : s.stepping = none)
    (hin : s.inputs = { issuer := .host, word := 0x10000000 } :: r) :
    step s = .next (stepFirst { s with inputs := r }) :=
  (step_of_checkInput_eq_ok hf hx hin rfl).trans (exec_live .step (s := { s with inputs := r }) hf)

/-- What is left of a command after a step to `t` ends in `u`. -/
def State.EndsIn (t u : State) : Prop := (t.stepping = none ∧ t = u) ∨ (t.stepping ≠ none ∧ CommandRun t u)

theorem CommandRun.of_step {s t u : State} (h : step s = .next t) (ht : t.EndsIn u) : CommandRun s u := by
  obtain ⟨hx, rfl⟩ | ⟨hx, hrun⟩ := ht
  · exact .done h hx
  · exact .more h hx hrun

/-! ### External events without replies -/

/-- The state after the events `es` have fired at time `x` and issued nothing, `rest` left pending. -/
def State.fired (s : State) (x : Time) (es rest : List EventId) : State :=
  { s with
    clk := { s.clk with now := x, pending := rest }
    hist := s.hist ++ es.map fun i => .fire i x }

theorem fired_cons (s : State) (x : Time) (i : EventId) (es rest l : List EventId) :
    (s.fired x [i] l).fired x es rest = s.fired x (i :: es) rest := by
  simp [State.fired]

theorem runNext_fired {s : State} {x : Time} {i : EventId} {l : List EventId} (hp : s.clk.pending = i :: l)
    (hi : 3 ≤ i.toNat ∧ s.clk.time i = x) (he : s.env.events = []) : runNext s = s.fired x [i] l := by
  obtain ⟨hi, rfl⟩ := hi
  exact runNext_external hp hi he

/-- `STEP`'s loop at time `x` fires the events of that time at the head of the list, in order, and ends. -/
theorem loopAt_fires {x : Time} {es rest : List EventId} {s : State} (hf : s.fault = none) (he : s.env.events = [])
    (hnow : s.clk.now = x) (hes : ∀ i ∈ es, 3 ≤ i.toNat ∧ s.clk.time i = x)
    (hrest : ∀ j ∈ rest.head?, s.clk.time j ≠ x) (hp : s.clk.pending = es ++ rest) :
    (loopAt x s).EndsIn { s.fired x es rest with stepping := none } := by
  induction es generalizing s with
  | nil =>
    have hends : ¬∃ i ∈ s.clk.pending.head?, s.clk.time i = x := by
      rintro ⟨j, hj, ht⟩
      exact hrest j (by simpa [hp] using hj) ht
    obtain rfl : s.clk.pending = rest := hp
    subst hnow
    rw [loopAt_ends hends]
    exact .inl ⟨rfl, by simp [State.fired]⟩
  | cons i es ih =>
    obtain ⟨hi, hes⟩ := List.forall_mem_cons.mp hes
    have hmore : ∃ j ∈ s.clk.pending.head?, s.clk.time j = x := ⟨i, by simp [hp], hi.2⟩
    have hrun := runNext_fired (s := { s with stepping := none }) (l := es ++ rest) hp hi he
    have hstep : step { s with stepping := some x } =
        .next (loopAt x (State.fired { s with stepping := none } x [i] (es ++ rest))) := by
      rw [step_stepping (by exact hf) rfl, stepMore_goesOn (by exact hmore)]
      exact congrArg _ ((congrArg (·.andThen (loopAt x)) hrun).trans (andThen_live (by exact hf) _))
    rw [loopAt_more hmore]
    refine .inr ⟨by simp, .of_step hstep ?_⟩
    have hend := ih (s := State.fired { s with stepping := none } x [i] (es ++ rest)) hf he rfl hes hrest rfl
    rwa [fired_cons] at hend

/-- A `STEP` with events pending runs the head and loops at its time (40_clock.md R124, R125). -/
theorem stepFirst_cons {s : State} {i : EventId} {l : List EventId} (hp : s.clk.pending = i :: l) :
    stepFirst s = (runNext s).andThen (loopAt (s.clk.time i)) := by
  simp only [stepFirst, State.andThen, runNext_now hp]

/-- Settles O20: the first event of the run is the `STEP`'s `RUNNEXT`, the others are its loop. -/
theorem stepFiresAllOfOneTime : Obligations.StepFiresAllOfOneTime := by
  intro s x es rest r hf hx he hne hes hrest hp hin
  obtain ⟨i, es, rfl⟩ := List.exists_cons_of_ne_nil hne
  obtain ⟨hi, hes⟩ := List.forall_mem_cons.mp hes
  have hrun := runNext_fired (s := { s with inputs := r }) (l := es ++ rest) hp hi he
  have hfirst : stepFirst { s with inputs := r } =
      loopAt x (State.fired { s with inputs := r } x [i] (es ++ rest)) := by
    rw [stepFirst_cons (by exact hp), hrun, andThen_live (by exact hf)]
    exact congrArg (loopAt · _) hi.2
  have hend := loopAt_fires (x := x) (s := State.fired { s with inputs := r } x [i] (es ++ rest)) hf he rfl
    hes hrest rfl
  rw [fired_cons, ← hfirst] at hend
  have hidle : { State.fired { s with inputs := r } x (i :: es) rest with stepping := none } =
      State.fired { s with inputs := r } x (i :: es) rest := by
    simp only [State.fired, hx]
  rw [hidle] at hend
  exact .of_step (step_of_stepWord hf hx hin) hend

/-! ### An event that schedules itself for the present -/

/-- A firing answered by a standing reply is recorded, and the reply stays. -/
theorem fireExternal_standing {i : EventId} {ws : List CommandWord} {s : State}
    (h : s.env.events = [{ id := i, words := ws, standing := true }]) :
    fireExternal i s = (s.record (.fire i s.clk.now)).responder ws (s.record (.fire i s.clk.now)) := by
  have hleft : eventRepliesLeft i s.env.events = s.env.events := by simp [eventRepliesLeft, eventReply, h]
  have hwords : eventWords i s.env.events = ws := by simp [eventWords, eventReply, h]
  simp only [fireExternal, hleft, hwords]
  rfl

theorem responder_external {w : CommandWord} {i : Instr} {s : State} (hf : s.fault = none)
    (hd : decodeCommand w = .ok i) (hi : i.cmdClass = .external) : s.responder [w] s = effect i s := by
  rw [responder_cons hf, respond_nil, collaboratorWord_external hd hi]

/-- Scheduled for the present with nothing else pending. -/
theorem schedule_present {i : EventId} {s : State} (hp : s.clk.pending = []) (hb : 0 < s.params.walkBound) :
    schedule i 0 .any s = { s with clk := s.clk.scheduled i s.clk.now } := by
  have hpos : s.clk.insertPos s.clk.now = 0 := by simp [Clk.insertPos, hp]
  rw [schedule_fits (x := s.clk.now) (by simp [hp]) (by simp [triggerTime_any]), hpos, if_neg (Nat.not_le_of_lt hb)]

/-- One event is pending, and its standing reply is the command `w`. -/
structure State.SelfReply (i : EventId) (w : CommandWord) (s : State) : Prop where
  live : s.fault = none
  alone : s.clk.pending = [i]
  bound : 0 < s.params.walkBound
  reply : s.env.events = [{ id := i, words := [w], standing := true }]

/-- The same while a `STEP` loops at the event's time. -/
structure State.SelfLoop (i : EventId) (w : CommandWord) (s : State) : Prop extends s.SelfReply i w where
  looping : s.stepping = some (s.clk.time i)

section SelfScheduling

variable {i : EventId} {w : CommandWord} {s t : State} (hi : 3 ≤ i.toNat)
  (hw : decodeCommand w = .ok (.sched i 0 .any))
include hi hw

/-- The event runs, and its reply makes it pending again for the time reached. -/
theorem runNext_reschedules (h : s.SelfReply i w) :
    (runNext s).SelfReply i w ∧ (runNext s).clk.time i = s.clk.time i := by
  have hrun : runNext s = { s with
      clk := Clk.scheduled { now := s.clk.time i, ev := s.clk.ev, pending := [] } i (s.clk.time i)
      hist := s.hist ++ [.fire i (s.clk.time i)] } := by
    rw [runNext_cons h.alone, callback_external hi, fireExternal_standing (by exact h.reply),
      responder_external (by exact h.live) hw rfl]
    exact (schedExternal_eq_schedule hi _ _ _).trans (schedule_present rfl h.bound)
  rw [hrun]
  exact ⟨⟨h.live, rfl, h.bound, h.reply⟩, time_setTime_same _ _ _⟩

/-- So the loop finds it at its time, and goes on. -/
theorem runNext_loops (h : s.SelfReply i w) : ((runNext s).andThen (loopAt (s.clk.time i))).SelfLoop i w := by
  obtain ⟨hself, htime⟩ := runNext_reschedules hi hw h
  rw [andThen_live hself.live, loopAt_more ⟨i, by simp [hself.alone], htime⟩]
  exact { hself with looping := congrArg some htime.symm }

theorem step_keeps_selfLoop (h : s.SelfLoop i w) (hst : step s = .next t) : t.SelfLoop i w := by
  rw [step_stepping h.live h.looping, stepMore_goesOn ⟨i, by simp [h.alone], rfl⟩] at hst
  cases hst
  exact runNext_loops hi hw (s := { s with stepping := none }) { h with }

/-- Every step of the run leaves the loop going, so none is its last. -/
theorem not_selfLoop_of_commandRun (hrun : CommandRun s t) : ¬s.SelfLoop i w := by
  induction hrun with
  | done hst hx =>
    intro h
    simp [(step_keeps_selfLoop hi hw h hst).looping] at hx
  | more hst _ _ ih => exact fun h => ih (step_keeps_selfLoop hi hw h hst)

end SelfScheduling

/-- Settles O21: the `STEP`'s first event leads into the loop, which no step leaves. -/
theorem stepMayNotReturn : Obligations.StepMayNotReturn := by
  rintro s i w r hf hx hi hp hb hw hr hin ⟨t, hrun⟩
  have hfirst : ∀ u, step s = .next u → u.SelfLoop i w := by
    intro u hst
    rw [step_of_stepWord hf hx hin, stepFirst_cons (by exact hp)] at hst
    cases hst
    exact runNext_loops hi hw (s := { s with inputs := r }) ⟨hf, hp, hb, hr⟩
  cases hrun with
  | done hst hend => simp [(hfirst _ hst).looping] at hend
  | more hst _ hrun => exact not_selfLoop_of_commandRun hi hw hrun (hfirst _ hst)

end Sys2Proof.Machine
end

section
/-! The bank-line commands (41_pla.md R144 to R147). -/

namespace Sys2Proof.Machine

/-- Settles O30: in a fault-free machine each command is its line update, a record update of `pla` alone. -/
theorem bankLineCommands : Obligations.BankLineCommands := by
  intro s hf
  refine ⟨fun l h c => ?setport, fun g1 e1 g2 e2 => ?setge, fun n => ?setvicbase, fun on => ?setdmaovr⟩
  case setport => exact exec_live (.setport l h c) hf
  case setge => exact exec_live (.setge g1 e1 g2 e2) hf
  case setvicbase => exact exec_live (.setvicbase n) hf
  case setdmaovr => exact exec_live (.setdmaovr on) hf

end Sys2Proof.Machine
end

section
/-! The interrupt lines and the AEC release (42_signals.md R161 to R163). -/

namespace Sys2Proof.Machine

/-- Settles O35: the callback is `aecRelease`, a record update of `rt` alone. -/
theorem aecReleaseCallback : Obligations.AecReleaseCallback := fun _ hf => exec_live .aecRelease hf

/-! ### The IRQ line -/

theorem setIrq_assert_first {s : State} (h : s.rt.irqCount = 0) : setIrq true s = { s with
    rt := { s.rt with irqCount := 1 }, cpu := { s.cpu with irqPin := true }.calcTrigger } := by
  simp [setIrq, h, trigIrq, State.mapCpu]

theorem setIrq_assert_more {s : State} {n : Nat} (h : s.rt.irqCount = n + 1) :
    setIrq true s = { s with rt := { s.rt with irqCount := n + 2 } } := by
  simp [setIrq, h]

theorem setIrq_release_none {s : State} (h : s.rt.irqCount = 0) : setIrq false s = raise .irqUnderflow s := by
  simp [setIrq, h]

theorem setIrq_release_last {s : State} (h : s.rt.irqCount = 1) : setIrq false s = { s with
    rt := { s.rt with irqCount := 0 }, cpu := { s.cpu with irqPin := false } } := by
  simp [setIrq, h, clrIrq, State.mapCpu]

theorem setIrq_release_more {s : State} {n : Nat} (h : s.rt.irqCount = n + 2) :
    setIrq false s = { s with rt := { s.rt with irqCount := n + 1 } } := by
  simp [setIrq, h]

/-- Settles O36: `SETIRQ` by the count it finds. -/
theorem setirqCounts : Obligations.SetirqCounts := by
  intro s hf
  have hexec : ∀ b, exec (.setirq b) s = .next (setIrq b s) := fun b => exec_live (.setirq b) hf
  simp only [hexec]
  exact ⟨fun h => congrArg _ (setIrq_assert_first h), fun _ h => congrArg _ (setIrq_assert_more h),
    fun h => congrArg _ (setIrq_release_none h), fun h => congrArg _ (setIrq_release_last h),
    fun _ h => congrArg _ (setIrq_release_more h)⟩

/-! ### The NMI line -/

theorem setNmi_assert_first {s : State} (h : s.rt.nmiCount = 0) : setNmi true s = { s with
    rt := { s.rt with nmiCount := 1 }, cpu := { s.cpu with nmiFlag := true }.calcTrigger } := by
  simp [setNmi, h, trigNmi, State.mapCpu]

theorem setNmi_assert_more {s : State} {n : Nat} (h : s.rt.nmiCount = n + 1) :
    setNmi true s = { s with rt := { s.rt with nmiCount := n + 2 } } := by
  simp [setNmi, h]

theorem setNmi_release_none {s : State} (h : s.rt.nmiCount = 0) : setNmi false s = raise .nmiUnderflow s := by
  simp [setNmi, h]

/-- The last release calls `CLRNMI`, which keeps the latch, so it is no case of its own (43_sequencer.md R196). -/
theorem setNmi_release {s : State} {n : Nat} (h : s.rt.nmiCount = n + 1) :
    setNmi false s = { s with rt := { s.rt with nmiCount := n } } := by
  simp [setNmi, h, clrNmi]

/-- Settles O37: `SETNMI` by the count it finds. -/
theorem setnmiCounts : Obligations.SetnmiCounts := by
  intro s hf
  have hexec : ∀ b, exec (.setnmi b) s = .next (setNmi b s) := fun b => exec_live (.setnmi b) hf
  simp only [hexec]
  exact ⟨fun h => congrArg _ (setNmi_assert_first h), fun _ h => congrArg _ (setNmi_assert_more h),
    fun h => congrArg _ (setNmi_release_none h), fun _ h => congrArg _ (setNmi_release h)⟩

end Sys2Proof.Machine
end

section
/-! The stall line and the SEQ's tick: a change of strategy keeps the tick's time (43_sequencer.md R190, R191). -/

namespace Sys2Proof.Machine

/-! ### Clocks that agree on an event -/

/-- Event `i` is pending in both clocks or in neither, and its record has one time. -/
def Clk.AgreeOn (i : EventId) (c d : Clk) : Prop := (i ∈ d.pending ↔ i ∈ c.pending) ∧ d.time i = c.time i

theorem Clk.AgreeOn.refl (i : EventId) (c : Clk) : Clk.AgreeOn i c c := ⟨.rfl, rfl⟩

theorem Clk.AgreeOn.trans {i : EventId} {c d e : Clk} (h : Clk.AgreeOn i c d) (g : Clk.AgreeOn i d e) :
    Clk.AgreeOn i c e := ⟨g.1.trans h.1, g.2.trans h.2⟩

theorem mem_scheduled_iff {c : Clk} {i j : EventId} {x : Time} :
    j ∈ (c.scheduled i x).pending ↔ j = i ∨ j ∈ c.pending := mem_insert_iff _

theorem scheduled_time_same (c : Clk) (i : EventId) (x : Time) : (c.scheduled i x).time i = x :=
  time_setTime_same c i x

theorem scheduled_agreeOn (c : Clk) {i j : EventId} (x : Time) (h : j ≠ i) : Clk.AgreeOn j c (c.scheduled i x) :=
  ⟨mem_scheduled_iff.trans (or_iff_right h), time_setTime_ne c x h⟩

theorem unlink_agreeOn (c : Clk) {i j : EventId} (h : j ≠ i) : Clk.AgreeOn j c (c.unlink i) :=
  ⟨List.mem_erase_of_ne h, rfl⟩

/-! ### The move of the tick -/

/-- The clock after strategy `n` follows `m`: a pending tick of `m` is the tick of `n` at the same time. -/
def Clk.moveTick (c : Clk) (m n : Mode) : Clk :=
  if m ≠ n ∧ m.tick ∈ c.pending then (c.unlink m.tick).scheduled n.tick (c.time m.tick) else c

theorem moveTick_self (c : Clk) (m : Mode) : c.moveTick m m = c := if_neg fun h => h.1 rfl

theorem moveTick_of_notMem {c : Clk} {m : Mode} (n : Mode) (h : m.tick ∉ c.pending) : c.moveTick m n = c :=
  if_neg fun g => h g.2

theorem moveTick_of_mem {c : Clk} {m n : Mode} (hne : m ≠ n) (h : m.tick ∈ c.pending) :
    c.moveTick m n = (c.unlink m.tick).scheduled n.tick (c.time m.tick) := if_pos ⟨hne, h⟩

theorem moveTick_now (c : Clk) (m n : Mode) : (c.moveTick m n).now = c.now := by
  unfold Clk.moveTick
  split <;> rfl

/-- Other events stay where they are. -/
theorem moveTick_agreeOn (c : Clk) (m n : Mode) {i : EventId} (hi : ∀ k : Mode, i ≠ k.tick) :
    Clk.AgreeOn i c (c.moveTick m n) := by
  unfold Clk.moveTick
  split
  · exact (unlink_agreeOn c (hi m)).trans (scheduled_agreeOn _ _ (hi n))
  · exact .refl i c

/-- Where only the tick of `m` can be pending, the tick of `n` is pending after the move just when it was, at
its time. -/
theorem moveTick_tickAt {c : Clk} {m n : Mode} (hlive : ∀ k : Mode, k.tick ∈ c.pending → m = k) (x : Time) :
    (n.tick ∈ (c.moveTick m n).pending ∧ (c.moveTick m n).time n.tick = x) ↔
      (m.tick ∈ c.pending ∧ c.time m.tick = x) := by
  by_cases hne : m = n
  · rw [← hne, moveTick_self]
  · by_cases hp : m.tick ∈ c.pending
    · rw [moveTick_of_mem hne hp, scheduled_time_same]
      simp [mem_scheduled_iff, hp]
    · have hn : n.tick ∉ c.pending := fun h => hne (hlive n h)
      simp [moveTick_of_notMem n hp, hp, hn]

theorem moveTick_length (c : Clk) (m n : Mode) : (c.moveTick m n).pending.length = c.pending.length := by
  unfold Clk.moveTick
  split
  case isTrue h =>
    have hpos := List.length_pos_of_mem h.2
    simp [Clk.scheduled, List.length_erase_of_mem h.2]
    omega
  case isFalse => rfl

theorem moveTick_nodup {c : Clk} {m n : Mode} (hlive : ∀ k : Mode, k.tick ∈ c.pending → m = k)
    (h : c.pending.Nodup) : (c.moveTick m n).pending.Nodup := by
  unfold Clk.moveTick
  split
  case isTrue hm =>
    have hn : n.tick ∉ c.pending := fun g => hm.1 (hlive n g)
    exact nodup_insert _ (h.erase _) fun g => hn (List.mem_of_mem_erase g)
  case isFalse => exact h

/-! ### `SETRDY` -/

/-- Rescheduling an event of PHI2 by its distance from the present gives its time again (43_sequencer.md R191). -/
theorem triggerTime_phi2_kept {now x : Time} (hle : now ≤ x) (hodd : x.toNat % 2 = 1) :
    triggerTime now ((x.toNat - now.toNat) / 2) .phi2 = x.toNat := by
  have h : now.toNat ≤ x.toNat := hle
  rw [triggerTime_phi2]
  split <;> omega

/-- Cancelling an event of a list within the walk bound, pending or not, leaves the rest of it. -/
theorem cancelEvent_room {s : State} (i : EventId) (h : s.clk.pending.length ≤ s.params.walkBound) :
    cancelEvent i s = { s with clk := s.clk.unlink i } := by
  by_cases hi : i ∈ s.clk.pending
  · have hk : s.clk.pending.idxOf i < s.params.walkBound := Nat.lt_of_lt_of_le (List.idxOf_lt_length_of_mem hi) h
    rw [cancelEvent_pending hi, if_neg (Nat.not_le_of_lt hk)]
  · rw [cancelEvent_notPending hi]
    simp [Clk.unlink, List.erase_of_not_mem hi]

/-- Scheduling an event not pending at a time that fits, with room in the list. -/
theorem schedule_room {i : EventId} {c : Nat} {ph : Phase} {s : State} {x : Time} (hi : i ∉ s.clk.pending)
    (hx : x.toNat = triggerTime s.clk.now c ph) (h : s.clk.pending.length < s.params.walkBound) :
    schedule i c ph s = { s with clk := s.clk.scheduled i x } := by
  rw [schedule_fits hi hx, if_neg (Nat.not_le_of_lt (Nat.lt_of_le_of_lt (insertPos_le_length _ _) h))]

/-- The state in which the SEQ follows the stall line of the ROUTER `r` (42_signals.md R164). -/
def State.following (s : State) (r : Router) : State :=
  { s with
    clk := s.clk.moveTick s.cpu.mode (modeOf r.stall)
    rt := r
    cpu := { s.cpu with rdy := r.stall, mode := modeOf r.stall } }

/-- The SEQ already follows a line that has not changed (42_signals.md R164). -/
theorem following_same {s : State} (h : s.Inv) {r : Router} (hr : r.stall = s.rt.stall) :
    s.following r = { s with rt := r } := by
  rw [State.following, hr, ← h.stallRdy, ← h.modeRdy, moveTick_self]

section

variable {s : State} (hf : s.fault = none) (h : s.Inv)
include hf h

/-- `SETRDY` of the ROUTER's line, from the invariant (43_sequencer.md R190). -/
theorem setRdy_following (r : Router) (hlen : s.clk.pending.length ≤ s.params.walkBound) :
    setRdy r.stall { s with rt := r } = s.following r := by
  unfold State.following
  by_cases hm : modeOf r.stall = s.cpu.mode
  · rw [setRdy_same (by exact hm), hm, moveTick_self]
    rfl
  · by_cases hp : s.cpu.mode.tick ∈ s.clk.pending
    · have hnew : (modeOf r.stall).tick ∉ s.clk.pending.erase s.cpu.mode.tick := fun g =>
        hm (h.tickMode hf _ (List.mem_of_mem_erase g)).symm
      have hkept := (triggerTime_phi2_kept (h.future _ hp) (h.tickPhase _ hp)).symm
      have hroom : (s.clk.pending.erase s.cpu.mode.tick).length < s.params.walkBound := by
        have hpos := List.length_pos_of_mem hp
        rw [List.length_erase_of_mem hp]
        omega
      rw [setRdy_moves (by exact hm) (by exact hp), cancelEvent_room _ (by exact hlen), andThen_live (by exact hf),
        schedule_room (by exact hnew) (by exact hkept) (by exact hroom), moveTick_of_mem (Ne.symm hm) hp]
      rfl
    · rw [setRdy_switches (by exact hm) (by exact hp), moveTick_of_notMem _ hp]
      rfl

/-- The ROUTER's stall line follows BA unless the DMA override holds it, and the SEQ follows the line
(42_signals.md R160, R164). -/
theorem followStall_following (level : Bool) (hlen : s.clk.pending.length ≤ s.params.walkBound) :
    followStall level { s with rt := { s.rt with ba := level } } =
      s.following { s.rt with ba := level, stall := if s.pla.dmaOverride then s.rt.stall else !level } := by
  by_cases hc : s.pla.dmaOverride = false ∧ s.rt.stall ≠ !level
  · rw [if_neg (by simp [hc.1])]
    exact (if_pos hc).trans (setRdy_following hf h { s.rt with ba := level, stall := !level } hlen)
  · have hstall : (if s.pla.dmaOverride then s.rt.stall else !level) = s.rt.stall := by
      by_cases hd : s.pla.dmaOverride = true
      · exact if_pos hd
      · rw [if_neg hd]
        by_contra hne
        exact hc ⟨Bool.eq_false_of_not_eq_true hd, Ne.symm hne⟩
    rw [hstall]
    exact (if_neg hc).trans (following_same h (r := { s.rt with ba := level }) rfl).symm

end

end Sys2Proof.Machine
end

section
/-! `SETBA` (42_signals.md R160, R164). -/

namespace Sys2Proof.Machine

theorem setBa_same (s : State) : setBa s.rt.ba s = s := if_pos rfl

theorem aecId_ne_tick (m : Mode) : Config.aecId ≠ m.tick := by cases m <;> decide

theorem external_ne_block {i : EventId} (h : 3 ≤ i.toNat) : (∀ m : Mode, i ≠ m.tick) ∧ i ≠ Config.aecId :=
  owner_collaborator (owner_external h)

/-- A change of the AEC release alone, after the SEQ has followed, leaves the external events alone. -/
theorem following_external {s : State} (r : Router) {d : Clk}
    (hd : ∀ j ≠ Config.aecId, Clk.AgreeOn j (s.following r).clk d) {i : EventId} (hi : 3 ≤ i.toNat) :
    Clk.AgreeOn i s.clk d :=
  (moveTick_agreeOn _ _ _ (external_ne_block hi).1).trans (hd i (external_ne_block hi).2)

/-- It keeps the live tick's time too, from the invariant. -/
theorem following_tickAt {s : State} (hf : s.fault = none) (h : s.Inv) (r : Router) {d : Clk}
    (hd : ∀ j ≠ Config.aecId, Clk.AgreeOn j (s.following r).clk d) (x : Time) :
    s.tickAt x ↔ State.tickAt { s.following r with clk := d } x := by
  obtain ⟨hmem, htime⟩ := hd _ (aecId_ne_tick (modeOf r.stall)).symm
  refine (moveTick_tickAt (n := modeOf r.stall) (h.tickMode hf) x).symm.trans ?_
  exact and_congr hmem.symm (Eq.congr_left htime.symm)

section

variable {s : State} (hf : s.fault = none) (h : s.Inv)
include hf h

/-- The request: the SEQ follows, then the AEC release is scheduled 6 half-cycles on. -/
theorem setBa_request {x : Time} (hba : s.rt.ba = true) (hx : x.toNat = s.clk.now.toNat + 6)
    (hlen : s.clk.pending.length < s.params.walkBound) :
    setBa false s =
      let u := s.following { s.rt with ba := false, stall := if s.pla.dmaOverride then s.rt.stall else true }
      { u with clk := u.clk.scheduled Config.aecId x } := by
  have hstart : setBa false s = (followStall false { s with rt := { s.rt with ba := false } }).andThen
      (schedule Config.aecId Config.aecDelay .any) := if_neg (by simp [hba])
  have haec : Config.aecId ∉ s.clk.pending := fun g => by simp [h.aecRequested hf g] at hba
  rw [hstart, followStall_following hf h false (Nat.le_of_lt hlen), andThen_live (by exact hf)]
  refine schedule_room ?_ ?_ ?_
  · exact fun g => haec ((moveTick_agreeOn _ _ _ aecId_ne_tick).1.mp g)
  · simp only [State.following, moveTick_now, triggerTime_any, Config.aecDelay]
    omega
  · simpa only [State.following, moveTick_length] using hlen

/-- The hand-back: the SEQ follows, the AEC release is cancelled, AEC rises. -/
theorem setBa_handBack (hba : s.rt.ba = false) (hlen : s.clk.pending.length < s.params.walkBound) :
    setBa true s =
      let u := s.following
        { s.rt with ba := true, aec := true, stall := if s.pla.dmaOverride then s.rt.stall else false }
      { u with clk := u.clk.unlink Config.aecId } := by
  have hstart : setBa true s = (followStall true { s with rt := { s.rt with ba := true } }).andThen fun s1 =>
      (cancelEvent Config.aecId s1).andThen fun s2 => { s2 with rt := { s2.rt with aec := true } } :=
    if_neg (by simp [hba])
  rw [hstart, followStall_following hf h true (Nat.le_of_lt hlen), andThen_live (by exact hf),
    cancelEvent_room _ (by simpa only [State.following, moveTick_length] using Nat.le_of_lt hlen),
    andThen_live (by exact hf)]
  rfl

end

/-- Settles O33: the requested state is the one in which the SEQ has followed, with the AEC release scheduled. -/
theorem setbaRequestsTheBus : Obligations.SetbaRequestsTheBus := by
  intro s hf
  have hexec : exec (.setba false) s = .next (setBa false s) := exec_live (.setba false) hf
  refine ⟨fun hba => ?same, fun h hba hnow hlen => ?request⟩
  case same => rw [hexec, ← hba, setBa_same]
  case request =>
    have hx : (BitVec.ofNat 64 (s.clk.now.toNat + 6)).toNat = s.clk.now.toNat + 6 := by
      rw [BitVec.toNat_ofNat, Nat.mod_eq_of_lt hnow]
    rw [hexec, setBa_request hf h hba hx hlen]
    refine ⟨_, rfl, hf, rfl, mem_scheduled_iff.mpr (.inl rfl), ?time, rfl, ?tick, moveTick_now _ _ _,
      fun i hi => ?external, rfl⟩
    case time => exact (congrArg BitVec.toNat (scheduled_time_same _ _ _)).trans hx
    case tick => exact following_tickAt hf h _ fun _ => scheduled_agreeOn _ _
    case external => exact following_external _ (fun _ => scheduled_agreeOn _ _) hi

/-- Settles O34: the state handed back is the one in which the SEQ has followed, without the AEC release. -/
theorem setbaHandsTheBusBack : Obligations.SetbaHandsTheBusBack := by
  intro s hf
  have hexec : exec (.setba true) s = .next (setBa true s) := exec_live (.setba true) hf
  refine ⟨fun hba => ?same, fun h hba hlen => ?handBack⟩
  case same => rw [hexec, ← hba, setBa_same]
  case handBack =>
    rw [hexec, setBa_handBack hf h hba hlen]
    refine ⟨_, rfl, hf, rfl, ?notPending, rfl, ?tick, moveTick_now _ _ _, fun i hi => ?external, rfl⟩
    case notPending => exact (moveTick_nodup (h.tickMode hf) h.distinct).not_mem_erase
    case tick => exact following_tickAt hf h _ fun _ => unlink_agreeOn _
    case external => exact following_external _ (fun _ => unlink_agreeOn _) hi

end Sys2Proof.Machine
end

section
/-! The interrupt entry points of the SEQ (43_sequencer.md R193 to R198). -/

namespace Sys2Proof.Machine

/-- A delivery point is recorded where none is (43_sequencer.md R198). -/
theorem calcTrigger_of_none {c : Cpu} (h : c.intCycle = .none) :
    c.calcTrigger = { c with intCycle := .pendingAt c.cc, intEarlier := false } := by
  simp only [Cpu.calcTrigger, h]

theorem calcTrigger_of_ne_none {c : Cpu} (h : c.intCycle ≠ .none) : c.calcTrigger = c := by
  unfold Cpu.calcTrigger
  split
  · next hn => exact absurd hn h
  · rfl
  · rfl

/-- Settles O38: `BUILD` and `TRIGRST` are of the host's class, and each entry point is a record update of the CPU. -/
theorem seqEntryPoints : Obligations.SeqEntryPoints := by
  refine ⟨reentrantInResponse_of_host rfl, reentrantInResponse_of_host rfl, fun s hf => ?commands,
    fun c => ⟨calcTrigger_of_none, calcTrigger_of_ne_none⟩⟩
  case commands =>
    exact ⟨exec_live .build hf, exec_live .trigirq hf, exec_live .clrirq hf, exec_live .trignmi hf,
      exec_live .clrnmi hf, exec_live .trigrst hf⟩

end Sys2Proof.Machine
end

section
/-! `SETRDY` with a tick pending (43_sequencer.md R190, R191). -/

namespace Sys2Proof.Machine

/-- A switch of strategy gives the pending tick's time to the other tick. -/
theorem setRdy_movesTick {b : Bool} {s : State} (hf : s.fault = none) (h : s.Inv) (hm : modeOf b ≠ s.cpu.mode)
    (hp : s.cpu.mode.tick ∈ s.clk.pending) (hlen : s.clk.pending.length ≤ s.params.walkBound) :
    setRdy b s = { s with
      clk := (s.clk.unlink s.cpu.mode.tick).scheduled (modeOf b).tick (s.clk.time s.cpu.mode.tick)
      cpu := { s.cpu with rdy := b, mode := modeOf b } } := by
  have hnew : (modeOf b).tick ∉ s.clk.pending.erase s.cpu.mode.tick := fun g =>
    hm (h.tickMode hf _ (List.mem_of_mem_erase g)).symm
  have hkept := (triggerTime_phi2_kept (h.future _ hp) (h.tickPhase _ hp)).symm
  have hroom : (s.clk.pending.erase s.cpu.mode.tick).length < s.params.walkBound := by
    have hpos := List.length_pos_of_mem hp
    rw [List.length_erase_of_mem hp]
    omega
  rw [setRdy_moves hm hp, cancelEvent_room _ (by exact hlen), andThen_live (by exact hf),
    schedule_room (by exact hnew) (by exact hkept) (by exact hroom)]
  rfl

/-- Settles O39: the tick moves by `setRdy_movesTick`; its new place splits the sorted rest of the list. -/
theorem setrdyMovesTheTick : Obligations.SetrdyMovesTheTick := by
  intro b s hf
  have hexec : exec (.setrdy b) s = .next (setRdy b s) := exec_live (.setrdy b) hf
  refine ⟨fun hm => ?same, fun hm hp => ?switches, fun h hm hp hlen => ?moves⟩
  case same => rw [hexec, setRdy_same hm]; rfl
  case switches => rw [hexec, setRdy_switches hm hp]; rfl
  case moves =>
    set x := s.clk.time s.cpu.mode.tick
    set c := s.clk.unlink s.cpu.mode.tick
    have hsplit := List.take_append_drop (c.insertPos x) c.pending
    have hnew : (modeOf b).tick ∉ c.pending := fun g => hm (h.tickMode hf _ (List.mem_of_mem_erase g)).symm
    obtain ⟨hbefore, hafter⟩ := countP_split c.pending x (unlink_inv (i := s.cpu.mode.tick) h).sorted
    rw [hexec, setRdy_movesTick hf h hm hp hlen]
    refine ⟨_, c.pending.take (c.insertPos x), c.pending.drop (c.insertPos x), rfl, hf, rfl,
      scheduled_time_same _ _ _, hsplit.symm, rfl, hbefore, hafter, rfl, fun j hj => ?_, rfl⟩
    exact (scheduled_agreeOn c x (ne_of_mem_of_not_mem (hsplit ▸ hj) hnew)).2

end Sys2Proof.Machine
end

section
/-! The two tick strategies (43_sequencer.md R187 to R189). -/

namespace Sys2Proof.Machine

theorem exec_tickNs {s : State} (hf : s.fault = none) :
    exec .tickNs s = .next ((execSlot s).andThen reschedule) := exec_live .tickNs hf

/-- A named opcode byte has a finish slot. -/
theorem exists_finishSlot {i : Instr} {b : Byte} (h : decodeOpcode b = .ok i) : ∃ k, (i, b, k) ∈ finishSlots := by
  have each : ∀ b : Byte, ∀ i ∈ (decodeOpcode b).toOption, ∃ x ∈ finishSlots, x.1 = i ∧ x.2.1 = b := by decide
  obtain ⟨⟨_, _, k⟩, hx, rfl, rfl⟩ := each b i (by simp [h, Except.toOption])
  exact ⟨k, hx⟩

/-- An opcode means one slot of its own sequence (log 12). -/
theorem exec_opcode {i : Instr} {b : Byte} (h : decodeOpcode b = .ok i) {s : State} (hf : s.fault = none) :
    exec i s = .next (opcodeSlot b s) := by
  obtain ⟨k, hk⟩ := exists_finishSlot h
  exact exec_finishing hk hf

/-- At an opcode's own slots its meaning is `ExecSlot`. -/
theorem exec_opcode_at {i : Instr} {b : Byte} {k : BitVec 3} (h : decodeOpcode b = .ok i) {s : State}
    (hf : s.fault = none) (hc : s.cpu.cc = slotOf b k) : exec i s = .next (execSlot s) := by
  rw [exec_opcode h hf, opcodeSlot_at hc]

/-- A slot without a micro-operation raises the fault and changes nothing else (43_sequencer.md R183). -/
theorem execSlot_unmodelled {b : Byte} {k : BitVec 3} {s : State} (hc : s.cpu.cc = slotOf b k)
    (h : slotOp s.params (slotOf b k) = unmodelledOp) : execSlot s = raise .microOpUnmodelled s := by
  rw [execSlot_at hc, h]
  rfl

theorem slotOp_of_mem_unmodelled {b : Byte} {r : Reject} {p : Params} (h : decodeOpcode b = .error r)
    (hu : b ∈ p.unmodelled) (k : BitVec 3) : slotOp p (slotOf b k) = unmodelledOp := by
  simp [slotOp, h, hu]

/-- From a time on the CPU's phase, one cycle on is two half-cycles on. -/
theorem triggerTime_oneCycle {now : Time} (h : now.toNat % 2 = 1) : triggerTime now 1 .phi2 = now.toNat + 2 := by
  rw [triggerTime_phi2]
  split <;> omega

/-- Settles O40: the tick is `ExecSlot`, which is the meaning of the opcode `cpu.cc` names, then `Reschedule`. -/
theorem tickRunsOpcodeSlot : Obligations.TickRunsOpcodeSlot := by
  refine ⟨fun s u i hf hd hu => ?named, fun s => exec_tickNs, fun s r hf hd hmem => ?unmodelled,
    fun u => ⟨rfl, triggerTime_oneCycle⟩⟩
  case named =>
    rw [exec_opcode_at hd hf (slotOf_parts _).symm] at hu
    rw [exec_tickNs hf, Host.Outcome.next.inj hu]
  case unmodelled =>
    have hslot := execSlot_unmodelled (s := s) (slotOf_parts _).symm (slotOp_of_mem_unmodelled hd hmem _)
    rw [exec_tickNs hf, hslot, andThen_faulted rfl]

/-- A tick that is not pending, with room in the list, is scheduled two half-cycles on. -/
theorem reschedule_room {s : State} {x : Time} (hi : s.cpu.mode.tick ∉ s.clk.pending) (hodd : s.clk.now.toNat % 2 = 1)
    (hx : x.toNat = s.clk.now.toNat + 2) (hlen : s.clk.pending.length < s.params.walkBound) :
    reschedule s = { s with clk := s.clk.scheduled s.cpu.mode.tick x } :=
  schedule_room hi (hx.trans (triggerTime_oneCycle hodd).symm) hlen

theorem tickSt_pauses {s : State} (hr : s.cpu.rdy = true) (hn : noSteal s.cpu.cc = false) :
    tickSt s = reschedule s := if_pos (by simp [hr, hn])

theorem tickSt_runs {s : State} (h : s.cpu.rdy = false ∨ noSteal s.cpu.cc = true) : tickSt s = tickNs s :=
  if_neg (by rcases h with h | h <;> simp [h])

/-- Settles O41: a stalled stealable slot leaves the rescheduling, which has room. -/
theorem stalledTickPauses : Obligations.StalledTickPauses := by
  intro s hf
  have hst : exec .tickSt s = .next (tickSt s) := exec_live .tickSt hf
  refine ⟨fun h => ?runs, fun hr hn => ?pauses, fun hr hn hmode hp hodd hnow hlen => ?scheduled⟩
  case runs =>
    rw [hst, tickSt_runs h]
    exact (exec_live .tickNs hf).symm
  case pauses => rw [hst, tickSt_pauses hr hn]
  case scheduled =>
    have hx : (BitVec.ofNat 64 (s.clk.now.toNat + 2)).toNat = s.clk.now.toNat + 2 := by
      rw [BitVec.toNat_ofNat, Nat.mod_eq_of_lt hnow]
    have htick : s.cpu.mode.tick = Config.tickStId := by rw [hmode]; rfl
    rw [hst, tickSt_pauses hr hn, reschedule_room (by rw [htick]; exact hp) hodd hx hlen, htick]
    exact ⟨_, rfl, hf, rfl, rfl, mem_scheduled_iff.mpr (.inl rfl),
      (congrArg BitVec.toNat (scheduled_time_same _ _ _)).trans hx⟩

end Sys2Proof.Machine
end

section
/-! Which micro-op a slot is (43_sequencer.md R182 to R185). -/

namespace Sys2Proof.Machine

/-- Settles O42: `NOSTEAL` by what the opcode byte decodes to. -/
theorem noStealSlots : Obligations.NoStealSlots := by
  refine ⟨fun i b sub hd hi => ?named, fun sub => ?rti, fun b sub r hd => ?other⟩
  case named =>
    simp only [noSteal, slotOpcode_slotOf, slotSub_slotOf, hd]
    cases i with
    | brk => simp
    | jsrAbs => simp
    | rti => exact absurd rfl hi
    | _ => simp
  case rti => simp [noSteal, decodeOpcode]
  case other => simp [noSteal, openNoSteal, hd]

/-- The eight subcycles. -/
theorem sub_cases (sub : BitVec 3) :
    sub = 0 ∨ sub = 1 ∨ sub = 2 ∨ sub = 3 ∨ sub = 4 ∨ sub = 5 ∨ sub = 6 ∨ sub = 7 := by
  revert sub
  decide

/-- A slot past the finish slot of a named opcode is unmodelled (log 18). -/
theorem slotOp_pastFinish {i : Instr} {b : Byte} {k sub : BitVec 3} (h : (i, b, k) ∈ finishSlots) (hk : k < sub)
    (p : Params) : slotOp p (slotOf b sub) = unmodelledOp := by
  have each : ∀ x ∈ finishSlots, x.2.2 < sub → slotOp p (slotOf x.2.1 sub) = unmodelledOp := by
    simp only [slotOp, slotOpcode_slotOf, slotSub_slotOf]
    obtain rfl | rfl | rfl | rfl | rfl | rfl | rfl | rfl := sub_cases sub <;>
      simp [finishSlots, decodeOpcode, ldaSlots, brkSlots, jsrSlots, rtsSlots, nopSlots, rtiSlots, branchSlots]
  exact each (i, b, k) h hk

/-- A micro-op that reads, by what it does in the state its read leaves. -/
theorem runPlan_read {c : Cpu} {a : Addr} {k : Cpu → Byte → Cpu × MicroResult} {s : State} {g : State → State}
    (h : ∀ t, ExternalFrame { s with cpu := c } t → afterAccess (k t.cpu (cpuReadByte a s)) t = g t) :
    runPlan (.read c a k) s = (cpuRead s.responder a { s with cpu := c }).andThen g :=
  cpuRead_andThen_congr (f := fun t => afterAccess (k t.cpu (cpuReadByte a s)) t) h s.env.calls.length

/-- A micro-op that writes, the same. -/
theorem runPlan_write {c : Cpu} {a : Addr} {d : Byte} {k : Cpu → Cpu × MicroResult} {s : State} {g : State → State}
    (h : ∀ t, ExternalFrame { s with cpu := c } t → afterAccess (k t.cpu) t = g t) :
    runPlan (.write c a d k) s = (cpuWrite s.responder a d { s with cpu := c }).andThen g :=
  cpuWrite_andThen_congr (f := fun t => afterAccess (k t.cpu) t) h s.env.calls.length

/-- A micro-op of the open table goes to a slot of its own opcode. -/
theorem afterAccess_body {b : Byte} {sub : BitVec 3} {t : State} (hc : t.cpu.cc = slotOf b sub) (hs : sub ≠ 7)
    (r : Regs) (res : Config.BodyResult) :
    afterAccess ({ t.cpu with regs := r }, bodyResult b res) t = t.landed b sub r res := by
  have hsub : sub.toNat ≠ 7 := fun h => hs (BitVec.eq_of_toNat_eq h)
  cases res with
  | next =>
    simp only [afterAccess, bodyResult, State.landed]
    rw [settle_next (by simpa [hc] using hsub)]
    simp only [State.mapCpu, hc, slotOf_succ b sub hsub]
    rfl
  | slot k => rfl

section

variable {b : Byte} {sub : BitVec 3} {s : State} (hc : s.cpu.cc = slotOf b sub) (hs : sub ≠ 7)
  (op : Option Config.ArithOp)
include hc hs

/-- A body of the open table without an access. -/
theorem runPlan_bodyPlan_done (r : Regs) (res : Config.BodyResult) :
    runPlan (bodyPlan b op s.cpu (.done r res)) s = s.landed b sub r res :=
  afterAccess_body (t := { s with cpu := { s.cpu with regs := r } }) hc hs r res

/-- A body of the open table that reads. -/
theorem runPlan_bodyPlan_read (r : Regs) (a : Addr) (k : Regs → Byte → Regs × Config.BodyResult) :
    runPlan (bodyPlan b op s.cpu (.read r a k)) s =
      (cpuRead s.responder a { s with cpu := { s.cpu with regs := r } }).andThen fun t =>
        t.landed b sub (arithEffect op s.cpu.regs (cpuReadByte a s) (k r (cpuReadByte a s)).1)
          (k r (cpuReadByte a s)).2 := by
  refine runPlan_read fun t g => ?_
  obtain rfl : t.cpu.regs = r := g.regs
  exact afterAccess_body (g.cc.trans hc) hs _ _

/-- A body of the open table that writes. -/
theorem runPlan_bodyPlan_write (r : Regs) (a : Addr) (d : Byte) (k : Regs → Regs × Config.BodyResult) :
    runPlan (bodyPlan b op s.cpu (.write r a d k)) s =
      (cpuWrite s.responder a d { s with cpu := { s.cpu with regs := r } }).andThen fun t =>
        t.landed b sub (k r).1 (k r).2 := by
  refine runPlan_write fun t g => ?_
  obtain rfl : t.cpu.regs = r := g.regs
  exact afterAccess_body (g.cc.trans hc) hs _ _

end

/-- Settles O43: the slot of a named opcode by its finish slot, of the open table by its description. -/
theorem opcodeRunsItsOwnSlots : Obligations.OpcodeRunsItsOwnSlots := by
  refine ⟨fun i b s hd => ?own, fun i b k sub s hm hk hf hc => ?past, fun b e sub s hd hu hc => ?other,
    fun b sub op plan s hc hs => ?body⟩
  case own =>
    by_cases hf : s.fault = none
    · rw [if_pos hf, exec_opcode hd hf, exec_opcode hd (by exact hf)]
      simp only [opcodeSlot, State.mapCpu, slotSub_slotOf]
    · rw [if_neg hf, exec_eq_effect]
      obtain ⟨f, h⟩ := Option.ne_none_iff_exists'.mp hf
      rw [andThen_faulted h]
  case past =>
    rw [exec_finishing hm hf, opcodeSlot_at hc, execSlot_unmodelled hc (slotOp_pastFinish hm hk _)]
  case other =>
    rw [execSlot_at hc, slotOp_open hd hu]
    simp only [openSlots, BitVec.lt_def]
    split
    · rfl
    · split
      · rfl
      · rfl
  case body =>
    cases plan with
    | done r res => exact runPlan_bodyPlan_done hc hs op r res
    | read r a k => exact runPlan_bodyPlan_read hc hs op r a k
    | write r a d k => exact runPlan_bodyPlan_write hc hs op r a d k

end Sys2Proof.Machine
end

section
/-! The finish micro-op (43_sequencer.md R192; 60_exceptions.md R224 to R226). -/

namespace Sys2Proof.Machine

/-- What holds of `ExecSlot` and of the opcode's meaning where the finish micro-op runs next. -/
theorem finish_run {s u : State} (hf : s.fault = none) (h : runPlan (finish s.params s.cpu) s = u) :
    (∀ i : Instr, s.atFinish i → exec i s = .next u) ∧
      (s.atOpenFinish → execSlot s = u ∧ exec .tickNs s = .next (u.andThen reschedule)) := by
  refine ⟨fun i hi => ?_, fun ho => ?_⟩
  · rw [exec_atFinish hf hi, h]
  · have hslot : execSlot s = u := (execSlot_atOpenFinish ho).trans h
    exact ⟨hslot, by rw [exec_tickNs hf, hslot]⟩

/-- Settles O44: an interrupt is not due, so the finish fetches. -/
theorem finishFetchesTheNextOpcode : Obligations.FinishFetchesTheNextOpcode := by
  rintro s u _ hf rfl hpoint rfl
  have hcc : s.cpu.reevaluated.cc = s.cpu.cc := (reevaluated_fields s.cpu).1
  have hdue : due s.params s.cpu = false := by
    rw [← due_reevaluated, Bool.eq_false_iff, Ne, due_iff]
    rintro ⟨n, hn, -, hlate | hearlier⟩
    · have hle := (hpoint n hn).1
      rw [hcc] at hlate
      omega
    · exact (hpoint n hn).2 hearlier
  exact finish_run hf (runPlan_finish_fetches s.cpu s hdue)

/-- Settles O45: an interrupt is due, so the finish redirects. -/
theorem finishTakesADueInterrupt : Obligations.FinishTakesADueInterrupt := by
  rintro s u n hf hn hsource hlate rfl
  have hdue : due s.params s.cpu = true := by
    refine (due_iff _ _).mpr ⟨n, hn, ?_, hlate.imp_right And.symm⟩
    rcases hsource with h | h | ⟨h, hi⟩
    · simp [Cpu.deliverable, h]
    · simp [Cpu.deliverable, h]
    · simp [Cpu.deliverable, h, hi]
  obtain ⟨hnamed, hopen⟩ := finish_run hf (runPlan_finish_redirects s s.cpu hdue)
  refine ⟨hnamed, fun ho => ?_⟩
  obtain ⟨hslot, htick⟩ := hopen ho
  rw [andThen_live (by exact hf)] at htick
  exact ⟨hslot, htick⟩

end Sys2Proof.Machine
end

section
/-! The slots of the named opcodes, by the operand form of their micro-op (43_sequencer.md R180, R183). -/

namespace Sys2Proof.Machine

section

variable {i : Instr} {b : Byte} {k : BitVec 3} {op : MicroOp} {s : State} (hd : decodeOpcode b = .ok i)
  (hk : k.toNat ≠ 7) (hf : s.fault = none) (hc : s.cpu.cc = slotOf b k) (ho : slotOp s.params (slotOf b k) = op)
include hd hk hf hc ho

/-- A slot that reads: the registers become `f` of the byte read and the registers before. -/
theorem exec_read (c : Cpu) (a : Addr) (f : Byte → Regs → Regs) (hcc : c.cc = s.cpu.cc)
    (e : op s.params s.cpu = .read c a fun c' d => (c'.mapRegs (f d), .next)) :
    exec i s = .next ((cpuRead s.responder a { s with cpu := c }).andThen fun t =>
      t.ran (slotOf b (k + 1)) (f (cpuReadByte a s) c.regs)) := by
  rw [exec_opcode hd hf]
  exact congrArg _ (opcodeSlot_read hc hk c hcc a f (by rw [ho, e]))

/-- A slot that reads and drops the byte. -/
theorem exec_dummyRead {c : Cpu} {a : Addr} {f : Regs → Regs} (e : op s.params s.cpu = dummyRead c a f)
    (hcc : c.cc = s.cpu.cc) :
    exec i s = .next ((cpuRead s.responder a { s with cpu := c }).andThen fun t =>
      t.ran (slotOf b (k + 1)) (f c.regs)) :=
  exec_read hd hk hf hc ho c a (fun _ => f) hcc e

/-- A slot that reads the byte at PC. -/
theorem exec_operandByte (f : Byte → Regs → Regs) (e : op s.params s.cpu = operandByte s.cpu f) :
    exec i s = .next ((cpuRead s.responder s.cpu.regs.pc s).andThen fun t =>
      t.ran (slotOf b (k + 1)) (f (cpuReadByte s.cpu.regs.pc s) s.cpu.regs.incPc)) :=
  exec_read hd hk hf hc ho s.cpu _ (fun d r => f d r.incPc) rfl e

/-- A slot that pushes a byte. -/
theorem exec_push {v : Byte} (e : op s.params s.cpu = push s.cpu v) :
    exec i s = .next ((cpuWrite s.responder (stackAddr s.cpu.regs.sp) v s).andThen fun t =>
      t.ran (slotOf b (k + 1)) { s.cpu.regs with sp := s.cpu.regs.sp - 1 }) := by
  rw [exec_opcode hd hf]
  exact congrArg _ (opcodeSlot_write hc hk s.cpu rfl _ v (fun r => { r with sp := r.sp - 1 }) (by rw [ho, e]; rfl))

/-- A slot that pulls a byte. -/
theorem exec_pull (f : Byte → Regs → Regs) (e : op s.params s.cpu = pull s.cpu f) :
    exec i s = .next ((cpuRead s.responder (stackAddr (s.cpu.regs.sp + 1))
      { s with cpu := { s.cpu with regs := { s.cpu.regs with sp := s.cpu.regs.sp + 1 } } }).andThen fun t =>
        t.ran (slotOf b (k + 1)) (f (cpuReadByte (stackAddr (s.cpu.regs.sp + 1)) s)
          { s.cpu.regs with sp := s.cpu.regs.sp + 1 })) :=
  exec_read hd hk hf hc ho (s.cpu.mapRegs fun r => { r with sp := r.sp + 1 }) _ f rfl e

end

theorem selectSource_regs (c : Cpu) : (selectSource c).2.regs = c.regs := by
  unfold selectSource
  repeat' split
  all_goals rfl

/-- Slot 4 of opcode `$00`, with the source it selects (60_exceptions.md R231). -/
theorem exec_int4 {s : State} (hf : s.fault = none) (hc : s.cpu.cc = slotOf 0x00 4) {v : Addr} {c : Cpu}
    (hv : selectSource s.cpu = (v, c)) :
    exec .brk s = .next ((cpuRead s.responder v
      { s with cpu := { c with
        regs := { s.cpu.regs with flags := { s.cpu.regs.flags with i := true }, ea := v } } }).andThen fun t =>
        t.ran (slotOf 0x00 5) { s.cpu.regs with
          flags := { s.cpu.regs.flags with i := true }, ea := v, tmp := cpuReadByte v s }) := by
  have hcc : c.cc = s.cpu.cc := by rw [← (selectSource_pins s.cpu).cc, hv]
  have hregs : c.regs = s.cpu.regs := by rw [← selectSource_regs s.cpu, hv]
  refine exec_read (i := .brk) rfl (by decide) hf hc (slotOp_brk _ _)
    { c with regs := { s.cpu.regs with flags := { s.cpu.regs.flags with i := true }, ea := v } } v
    (fun d r => { r with tmp := d }) hcc ?_
  show int4 s.params s.cpu = _
  simp only [int4, hv, Cpu.mapRegs, hregs]

/-- Slot 5 of opcode `$00`: an interrupt's sequence ends its delivery (60_exceptions.md R232). -/
theorem exec_int5 {s : State} (hf : s.fault = none) (hc : s.cpu.cc = slotOf 0x00 5) :
    exec .brk s = .next ((cpuRead s.responder (s.cpu.regs.ea + 1) s).andThen fun t =>
      if s.cpu.deliver then
        { t with cpu := { t.cpu with
            cc := slotOf 0x00 6,
            regs := { s.cpu.regs with pc := cpuReadByte (s.cpu.regs.ea + 1) s ++ s.cpu.regs.tmp },
            intCycle := .none, intEarlier := false } }
      else t.ran (slotOf 0x00 6)
        { s.cpu.regs with pc := cpuReadByte (s.cpu.regs.ea + 1) s ++ s.cpu.regs.tmp }) := by
  rw [exec_opcode_at (i := .brk) rfl hf hc, execSlot_at hc, slotOp_brk]
  refine congrArg _ (runPlan_read (c := s.cpu) fun t g => ?_)
  have hcc : t.cpu.cc = slotOf 0x00 5 := g.cc.trans hc
  have hregs : t.cpu.regs = s.cpu.regs := g.regs
  have hdeliver : t.cpu.deliver = s.cpu.deliver := g.deliver
  by_cases h : s.cpu.deliver = true
  · simp [afterAccess, settle, State.mapCpu, Cpu.endDelivery, Cpu.mapRegs, hdeliver, h, hcc, hregs]
    rfl
  · simp [afterAccess, settle, State.mapCpu, Cpu.endDelivery, Cpu.mapRegs, hdeliver, h, hcc, hregs, State.ran]
    rfl

/-- Settles O46: dummy read, three pushes, the source selected, the vector's word. -/
theorem brkAndInterruptSlots : Obligations.BrkAndInterruptSlots := by
  rintro s _ hf rfl
  simp only [← stackAddr_eq]
  refine ⟨fun hc => ?int0, fun hc => ?int1, fun hc => ?int2, fun hc => ?int3, fun v c hc hv => ?int4,
    exec_int5 hf⟩
  case int0 =>
    rw [exec_dummyRead (i := .brk) rfl (by decide) hf hc (slotOp_brk _ _) rfl rfl]
    by_cases h : s.cpu.deliver = true
    · simp [h]
    · simp [h, Regs.incPc]
  case int1 => exact exec_push rfl (by decide) hf hc (slotOp_brk _ _) rfl
  case int2 => exact exec_push rfl (by decide) hf hc (slotOp_brk _ _) rfl
  case int3 => exact exec_push rfl (by decide) hf hc (slotOp_brk _ _) rfl
  case int4 =>
    refine exec_int4 hf hc (Eq.trans ?_ hv.symm)
    simp only [selectSource, Bool.not_eq_true']
    rfl

/-- Settles O48: `LDA #` reads its operand byte, `NOP` reads at PC and drops the byte. -/
theorem ldaAndNopSlots : Obligations.LdaAndNopSlots := by
  rintro s _ _ hf rfl rfl
  refine ⟨fun hc => ?lda, fun hc => ?nop⟩
  case lda =>
    exact exec_operandByte rfl (by decide) hf hc (slotOp_ldaImm _ _)
      (fun d r => { r with a := d, flags := r.flags.setNZ d }) rfl
  case nop => exact exec_dummyRead rfl (by decide) hf hc (slotOp_nop _ _) rfl rfl

/-- Settles O49: each slot of `JSR` and `RTS` by its operand form. -/
theorem jsrAndRtsSlots : Obligations.JsrAndRtsSlots := by
  rintro s _ _ hf rfl rfl
  simp only [← stackAddr_eq]
  refine ⟨fun hc => ?jsr0, fun hc => ?jsr1, fun hc => ?jsr2, fun hc => ?jsr3, fun hc => ?jsr4,
    fun hc => ?rts0, fun hc => ?rts1, fun hc => ?rts2, fun hc => ?rts3, fun hc => ?rts4⟩
  case jsr0 =>
    exact exec_operandByte rfl (by decide) hf hc (slotOp_jsrAbs _ _) (fun d r => { r with tmp := d }) rfl
  case jsr1 => exact exec_dummyRead rfl (by decide) hf hc (slotOp_jsrAbs _ _) rfl rfl
  case jsr2 => exact exec_push rfl (by decide) hf hc (slotOp_jsrAbs _ _) rfl
  case jsr3 => exact exec_push rfl (by decide) hf hc (slotOp_jsrAbs _ _) rfl
  case jsr4 =>
    exact exec_read rfl (by decide) hf hc (slotOp_jsrAbs _ _) s.cpu _ (fun d r => { r with pc := d ++ r.tmp }) rfl rfl
  case rts0 => exact exec_dummyRead rfl (by decide) hf hc (slotOp_rts _ _) rfl rfl
  case rts1 => exact exec_dummyRead rfl (by decide) hf hc (slotOp_rts _ _) rfl rfl
  case rts2 => exact exec_pull rfl (by decide) hf hc (slotOp_rts _ _) (fun d r => { r with tmp := d }) rfl
  case rts3 => exact exec_pull rfl (by decide) hf hc (slotOp_rts _ _) (fun d r => { r with pc := d ++ r.tmp }) rfl
  case rts4 => exact exec_dummyRead rfl (by decide) hf hc (slotOp_rts _ _) rfl rfl

end Sys2Proof.Machine
end

section
/-! The branches (43_sequencer.md R199 to R203, R209). -/

namespace Sys2Proof.Machine

theorem decodeOpcode_branch {i : Instr} {b : Byte} (h : (i, b) ∈ branchBytes) : decodeOpcode b = .ok i := by
  have each : ∀ x ∈ branchBytes, decodeOpcode x.2 = .ok x.1 := by simp [branchBytes, decodeOpcode]
  exact each _ h

/-- The condition of each branch (43_sequencer.md R209). -/
theorem branchCond_conditions (f : Flags) :
    branchCond 0x10 f = !f.n ∧ branchCond 0x30 f = f.n ∧ branchCond 0x50 f = !f.v ∧ branchCond 0x70 f = f.v ∧
    branchCond 0x90 f = !f.c ∧ branchCond 0xB0 f = f.c ∧ branchCond 0xD0 f = !f.z ∧ branchCond 0xF0 f = f.z :=
  ⟨rfl, rfl, rfl, rfl, rfl, rfl, rfl, rfl⟩

/-- Where the branch is taken, `BR_COND` aims at the target (43_sequencer.md R200). -/
theorem brCond_taken {b : Byte} {k : BitVec 3} {c : Cpu} (hc : c.cc = slotOf b k)
    (h : branchCond b c.regs.flags = true) (p : Params) :
    brCond p c = dummyRead { c with regs := { c.regs with ea := branchTarget c.regs.pc c.regs.tmp } } c.regs.pc
      Regs.lowFromEa :=
  if_pos (by rw [hc, slotOpcode_slotOf]; exact h)

/-- Not taken, `BR_COND` is the finish micro-op. -/
theorem brCond_not_taken {b : Byte} {k : BitVec 3} {c : Cpu} (hc : c.cc = slotOf b k)
    (h : branchCond b c.regs.flags = false) (p : Params) : brCond p c = finish p c :=
  if_neg (by rw [hc, slotOpcode_slotOf, h]; exact Bool.false_ne_true)

/-- The CPU with which `BR_FIX` crosses the page: under `page_cross` a point of slot 0 is deferred
(43_sequencer.md R203). -/
def Cpu.crossing (p : Params) (c : Cpu) : Cpu :=
  match p.branchDeferCase with
  | .pageCross => c.deferQuirk
  | .noPageCross => c

/-- Across a page, `BR_FIX` sets PC (43_sequencer.md R201). -/
theorem brFix_crosses {p : Params} {c : Cpu} (h : hiByte c.regs.ea ≠ hiByte c.regs.pc) :
    brFix p c = dummyRead (c.crossing p) (c.crossing p).regs.pc fun r => { r with pc := r.ea } :=
  if_neg h

theorem slotOf_toNat (b : Byte) (k : BitVec 3) : (slotOf b k).toNat = 8 * b.toNat + k.toNat := by
  revert b k
  decide

/-- A point two slots before slot 2 is slot 0's. -/
theorem toNat_add_two_eq_slotOf_two {b : Byte} {n : Slot} : n.toNat + 2 = (slotOf b 2).toNat ↔ n = slotOf b 0 := by
  have h0 : (slotOf b 0).toNat = 8 * b.toNat := slotOf_toNat b 0
  have h2 : (slotOf b 2).toNat = 8 * b.toNat + 2 := slotOf_toNat b 2
  rw [← BitVec.toNat_inj, h0, h2]
  omega

/-- Of a branch's slots, only a point recorded at slot 0 is deferred. -/
theorem crossing_eq {b : Byte} {c : Cpu} (hc : c.cc = slotOf b 2) (p : Params) :
    c.crossing p = if p.branchDeferCase = .pageCross ∧ c.intCycle = .pendingAt (slotOf b 0)
      then { c with intCycle := .pendingAt (slotOf b 1) } else c := by
  unfold Cpu.crossing
  cases p.branchDeferCase with
  | noPageCross => exact (if_neg fun h => by cases h.1).symm
  | pageCross =>
    have hnext : slotOf b 0 + 1 = slotOf b 1 := slotOf_succ b 0 (by decide)
    simp only [Cpu.deferQuirk, hc, toNat_add_two_eq_slotOf_two, true_and]
    cases c.intCycle with
    | none => exact (if_neg fun h => by cases h).symm
    | inProgress => exact (if_neg fun h => by cases h).symm
    | pendingAt n =>
      by_cases hn : n = slotOf b 0
      · subst hn
        simp only [hnext, if_true]
      · simp only [IntCycle.pendingAt.injEq, if_neg hn]

theorem crossing_fields {b : Byte} {c : Cpu} (hc : c.cc = slotOf b 2) (p : Params) :
    (c.crossing p).cc = c.cc ∧ (c.crossing p).regs = c.regs := by
  rw [crossing_eq hc]
  split <;> exact ⟨rfl, rfl⟩

/-- On the same page under `no_page_cross`, `BR_FIX` moves a due point and finishes (43_sequencer.md R203). -/
theorem brFix_samePage {p : Params} {c : Cpu} (h : hiByte c.regs.ea = hiByte c.regs.pc)
    (hp : p.branchDeferCase = .noPageCross) : brFix p c = finish p (c.deferQuirkSamePage p) := by
  simp only [brFix, h, hp, if_true]

theorem deferQuirkSamePage_regs (p : Params) (c : Cpu) : (c.deferQuirkSamePage p).regs = c.regs := by
  unfold Cpu.deferQuirkSamePage
  split <;> rfl

end Sys2Proof.Machine

namespace Sys2Proof

open Machine

/-- Settles O50: the operand byte, the taken branch's target, the page crossed, and the finish on the same page. -/
theorem branchSlots : Obligations.BranchSlots := by
  refine ⟨branchCond_conditions, ?_⟩
  rintro i b s _ hm hf rfl
  have hd := decodeOpcode_branch hm
  have hop := fun k => slotOp_branch hm s.params k
  refine ⟨fun hc => ?offset, fun target hc ht htarget => ?taken, fun c hc hpage hdefer => ?crosses,
    fun c hc hpage hcase hdefer => ?samePage⟩
  case offset => exact exec_operandByte hd (by decide) hf hc (hop 0) (fun d r => { r with tmp := d }) rfl
  case taken =>
    subst htarget
    exact exec_dummyRead (op := brCond) hd (by decide) hf hc (hop 1) (brCond_taken hc ht s.params) rfl
  case crosses =>
    obtain ⟨hcc, hregs⟩ := crossing_fields hc s.params
    rw [hdefer, ← crossing_eq hc,
      exec_dummyRead (op := brFix) hd (by decide) hf hc (hop 2) (brFix_crosses hpage) hcc, hregs]
    rfl
  case samePage =>
    have hquirk : s.cpu.deferQuirkSamePage s.params = if due s.params s.cpu = true
        then { s.cpu with intCycle := .pendingAt (slotOf b 2), intEarlier := false } else s.cpu := by
      simp only [Cpu.deferQuirkSamePage, hc]
    have hfetch := runPlan_finish_fetches (s.cpu.deferQuirkSamePage s.params) s
      (due_deferQuirkSamePage s.params s.cpu)
    rw [← brFix_samePage hpage hcase, deferQuirkSamePage_regs, hquirk, ← hdefer] at hfetch
    rw [exec_opcode_at hd hf hc, execSlot_at hc, hop]
    exact congrArg _ hfetch

end Sys2Proof
end

section
/-! ADC and SBC (43_sequencer.md R210). -/

namespace Sys2Proof.Machine

theorem addedOperand_sbc (m : Byte) : addedOperand .sbc m = m ^^^ 0xFF := BitVec.xor_allOnes.symm

/-- V is the signed overflow of the exact sum. -/
theorem binaryOverflow_iff (op : Config.ArithOp) (a m : Byte) (c : Bool) :
    binaryOverflow op a m c = true ↔
      a.toInt + (addedOperand op m).toInt + (c.toNat : Int) < -128 ∨
        127 < a.toInt + (addedOperand op m).toInt + (c.toNat : Int) := by
  have hsign : ∀ x : Byte, x.getLsbD 7 = decide (128 ≤ x.toNat) := by decide
  have hint : ∀ x : Byte, x.toInt = if 128 ≤ x.toNat then (x.toNat : Int) - 256 else x.toNat := by decide
  have ha := a.isLt
  have hm := (addedOperand op m).isLt
  have hc : c.toNat ≤ 1 := Bool.toNat_le c
  simp only [binaryOverflow, hsign, hint, binaryResult, binarySum, BitVec.toNat_ofNat]
  simp only [Bool.and_eq_true, beq_iff_eq, bne_iff_ne, ne_eq, decide_eq_decide]
  split <;> split <;> omega

/-- With D clear, ADC and SBC are the binary path. -/
theorem arith_binary {op : Config.ArithOp} {m : Byte} {r : Regs} (h : r.flags.d = false) :
    arith op m r = { r with
      a := binaryResult op r.a m r.flags.c
      flags := { r.flags with
        n := (binaryResult op r.a m r.flags.c).getLsbD 7
        v := binaryOverflow op r.a m r.flags.c
        z := decide (binaryResult op r.a m r.flags.c = 0)
        c := binaryCarry op r.a m r.flags.c } } :=
  if_neg (by simp [h])

/-- With D set, A and C are the decimal path's, V the binary one, N and Z of the path named (log 16). -/
theorem arith_decimal {op : Config.ArithOp} {m : Byte} {r : Regs} (h : r.flags.d = true) :
    arith op m r = { r with
      a := (Config.decimalResult op r.a m r.flags.c).1
      flags := { r.flags with
        n := byPath (Config.adcDecimalNZ op).1 ((binaryResult op r.a m r.flags.c).getLsbD 7)
          (Config.decimalNZ op r.a m r.flags.c).1
        v := binaryOverflow op r.a m r.flags.c
        z := byPath (Config.adcDecimalNZ op).2 (decide (binaryResult op r.a m r.flags.c = 0))
          (Config.decimalNZ op r.a m r.flags.c).2
        c := (Config.decimalResult op r.a m r.flags.c).2 } } :=
  if_pos h

/-- V does not depend on D. -/
theorem arith_overflow (op : Config.ArithOp) (m : Byte) (r : Regs) :
    (arith op m r).flags.v = binaryOverflow op r.a m r.flags.c := by
  cases h : r.flags.d with
  | false => rw [arith_binary h]
  | true => rw [arith_decimal h]

/-- ADC and SBC write A, N, V, Z and C. -/
theorem arith_frame (op : Config.ArithOp) (m : Byte) (r : Regs) :
    { arith op m r with a := r.a, flags := { (arith op m r).flags with
        n := r.flags.n, v := r.flags.v, z := r.flags.z, c := r.flags.c } } = r := by
  cases h : r.flags.d with
  | false => rw [arith_binary h]
  | true => rw [arith_decimal h]

/-- Settles O51: the two paths of `arith`, the signed overflow, and the effect slot of the open table. -/
theorem addWithCarry : Obligations.AddWithCarry := by
  intro op m m' r hm'
  obtain rfl : m' = addedOperand op m := by
    cases op with
    | adc => exact hm'
    | sbc => exact hm'.trans (addedOperand_sbc m).symm
  refine ⟨?overflow, fun h => ?binary, fun h => ?decimal, arith_frame op m r, ?slot⟩
  case overflow => rw [arith_overflow, binaryOverflow_iff]
  case binary =>
    rw [arith_binary h]
    exact ⟨BitVec.toNat_ofNat _ _, decide_eq_true_iff, decide_eq_true_iff, rfl⟩
  case decimal =>
    rw [arith_decimal h]
    refine ⟨rfl, ?_⟩
    rintro _ rfl
    exact ⟨rfl, rfl⟩
  case slot =>
    rintro b sub a k s hc hs rfl
    exact runPlan_bodyPlan_read hc hs (some op) r a k

end Sys2Proof.Machine
end

section
/-! The slots before a finish slot, outside an interrupt delivery: one bus access each, then the next slot
(43_sequencer.md R204 to R209). -/

namespace Sys2Proof.Machine

/-- A micro-op on `c`, outside a delivery, that makes one bus access, writes registers only, and goes to the next
slot. -/
def MicroPlan.Straight (c : Cpu) : MicroPlan → Prop
  | .done _ _ => False
  | .read c1 _ k => RegsOnly c c1 ∧ ∀ c' d, c'.deliver = false → RegsOnly c' (k c' d).1 ∧ (k c' d).2 = .next
  | .write c1 _ _ k => RegsOnly c c1 ∧ ∀ c', c'.deliver = false → RegsOnly c' (k c').1 ∧ (k c').2 = .next

/-- The same of every CPU outside a delivery. -/
def MicroOp.Straight (op : MicroOp) : Prop := ∀ p c, c.deliver = false → (op p c).Straight c

theorem dummyRead_straight (c : Cpu) (a : Addr) (f : Regs → Regs) : (dummyRead c a f).Straight c :=
  ⟨rfl, fun _ _ _ => ⟨rfl, rfl⟩⟩

theorem operandByte_straight (c : Cpu) (f : Byte → Regs → Regs) : (operandByte c f).Straight c :=
  ⟨rfl, fun _ _ _ => ⟨rfl, rfl⟩⟩

theorem push_straight (c : Cpu) (v : Byte) : (push c v).Straight c := ⟨rfl, fun _ _ => ⟨rfl, rfl⟩⟩

theorem pull_straight (c : Cpu) (f : Byte → Regs → Regs) : (pull c f).Straight c := ⟨rfl, fun _ _ _ => ⟨rfl, rfl⟩⟩

theorem jsrJump_straight : jsrJump.Straight := fun _ _ _ => ⟨rfl, fun _ _ _ => ⟨rfl, rfl⟩⟩

/-- BRK takes the IRQ vector and clears no latch (43_sequencer.md R205). -/
theorem int4_straight : int4.Straight := fun p c h => by
  have hsource : selectSource c = (irqVector, c) := if_pos (by simp [h])
  simp only [int4, hsource]
  exact ⟨rfl, fun _ _ _ => ⟨rfl, rfl⟩⟩

theorem int5_straight : int5.Straight := fun p c _ => by
  refine ⟨rfl, fun c' d h => ⟨?_, rfl⟩⟩
  have hend : ∀ f, (c'.mapRegs f).endDelivery = c'.mapRegs f := fun f => if_neg (by simp [Cpu.mapRegs, h])
  simp only [hend]
  rfl

section

variable {k : BitVec 3}

theorem ldaSlots_straight (h : k.toNat < 1) : (ldaSlots k).Straight := by
  unfold ldaSlots
  split
  · exact fun _ c _ => operandByte_straight c _
  · omega
  · grind

theorem brkSlots_straight (h : k.toNat < 6) : (brkSlots k).Straight := by
  unfold brkSlots
  split
  · exact fun _ c _ => dummyRead_straight c _ _
  iterate 3 exact fun _ c _ => push_straight c _
  · exact int4_straight
  · exact int5_straight
  · omega
  · grind

theorem jsrSlots_straight (h : k.toNat < 5) : (jsrSlots k).Straight := by
  unfold jsrSlots
  split
  · exact fun _ c _ => operandByte_straight c _
  · exact fun _ c _ => dummyRead_straight c _ _
  iterate 2 exact fun _ c _ => push_straight c _
  · exact jsrJump_straight
  · omega
  · grind

theorem rtsSlots_straight (h : k.toNat < 5) : (rtsSlots k).Straight := by
  unfold rtsSlots
  split
  iterate 2 exact fun _ c _ => dummyRead_straight c _ _
  iterate 2 exact fun _ c _ => pull_straight c _
  · exact fun _ c _ => dummyRead_straight c _ _
  · omega
  · grind

theorem nopSlots_straight (h : k.toNat < 1) : (nopSlots k).Straight := by
  unfold nopSlots
  split
  · exact fun _ c _ => dummyRead_straight c _ _
  · omega
  · grind

theorem rtiSlots_straight (h : k.toNat < 5) : (rtiSlots k).Straight := by
  unfold rtiSlots
  split
  iterate 2 exact fun _ c _ => dummyRead_straight c _ _
  iterate 3 exact fun _ c _ => pull_straight c _
  · omega
  · grind

end

/-- The opcodes that are no branches, with their finish slots. -/
def straightOpcodes : List (Byte × BitVec 3) :=
  [(0xA9, 1), (0x00, 6), (0x20, 5), (0x60, 5), (0xEA, 1), (0x40, 5)]

theorem mem_straightOpcodes {i : Instr} {b : Byte} {k : BitVec 3} (h : (i, b, k) ∈ finishSlots)
    (hb : (i, b) ∉ branchBytes) : (b, k) ∈ straightOpcodes := by
  have each : ∀ x ∈ finishSlots, (x.1, x.2.1) ∉ branchBytes → (x.2.1, x.2.2) ∈ straightOpcodes := by decide
  exact each (i, b, k) h hb

/-- Before its finish slot a named opcode goes straight, but for the slots 1 and 2 of a branch. -/
theorem slotOp_straight {i : Instr} {b : Byte} {k sub : BitVec 3} (h : (i, b, k) ∈ finishSlots) (hlt : sub < k)
    (hb : sub = 0 ∨ (i, b) ∉ branchBytes) (p : Params) : (slotOp p (slotOf b sub)).Straight := by
  by_cases hbranch : (i, b) ∈ branchBytes
  · obtain rfl := hb.resolve_right fun g => g hbranch
    rw [slotOp_branch hbranch]
    show brOffset.Straight
    exact fun _ c _ => operandByte_straight c _
  · have hlt : sub.toNat < k.toNat := hlt
    have hmem := mem_straightOpcodes h hbranch
    simp only [straightOpcodes, List.mem_cons, List.not_mem_nil, or_false, Prod.mk.injEq] at hmem
    obtain ⟨rfl, rfl⟩ | ⟨rfl, rfl⟩ | ⟨rfl, rfl⟩ | ⟨rfl, rfl⟩ | ⟨rfl, rfl⟩ | ⟨rfl, rfl⟩ := hmem
    · rw [slotOp_ldaImm]; exact ldaSlots_straight hlt
    · rw [slotOp_brk]; exact brkSlots_straight hlt
    · rw [slotOp_jsrAbs]; exact jsrSlots_straight hlt
    · rw [slotOp_rts]; exact rtsSlots_straight hlt
    · rw [slotOp_nop]; exact nopSlots_straight hlt
    · rw [slotOp_rti]; exact rtiSlots_straight hlt

/-- The finish slot of a branch is slot 3. -/
theorem finishSlot_branch {i : Instr} {b : Byte} {k : BitVec 3} (h : (i, b, k) ∈ finishSlots)
    (hb : (i, b) ∈ branchBytes) : k = 3 := by
  have each : ∀ x ∈ finishSlots, (x.1, x.2.1) ∈ branchBytes → x.2.2 = 3 := by simp [finishSlots, branchBytes]
  exact each (i, b, k) h hb

end Sys2Proof.Machine
end

section
/-! An interrupt begins only at a finish micro-op (60_exceptions.md R226, R235). -/

namespace Sys2Proof.Machine

/-- Delivery is not turned on. -/
def DeliverOff (c c' : Cpu) : Prop := c.deliver = false → c'.deliver = false

theorem RegsOnly.deliverOff {c c' : Cpu} (h : RegsOnly c c') : DeliverOff c c' := fun hc => by
  rw [show c' = { c with regs := c'.regs } from h]
  exact hc

theorem MicroPlan.Straight.deliverOff {plan : MicroPlan} {c : Cpu} (h : plan.Straight c) : plan.Keeps DeliverOff c := by
  cases plan with
  | done c1 r => exact h.elim
  | read c1 a k => exact ⟨h.1.deliverOff, fun c' d hc => (h.2 c' d hc).1.deliverOff hc⟩
  | write c1 a d k => exact ⟨h.1.deliverOff, fun c' hc => (h.2 c' hc).1.deliverOff hc⟩

theorem unmodelledOp_deliverOff (p : Params) (c : Cpu) : (unmodelledOp p c).Keeps DeliverOff c := fun h => h

theorem reevaluated_deliver (c : Cpu) : c.reevaluated.deliver = c.deliver := by
  unfold Cpu.reevaluated
  repeat' split
  all_goals rfl

theorem deferQuirkSamePage_deliver (p : Params) (c : Cpu) : (c.deferQuirkSamePage p).deliver = c.deliver := by
  unfold Cpu.deferQuirkSamePage
  split <;> rfl

theorem crossing_deliver (p : Params) (c : Cpu) : (c.crossing p).deliver = c.deliver := by
  unfold Cpu.crossing Cpu.deferQuirk
  repeat' split
  all_goals rfl

/-- A finish that is not due fetches, with delivery off. -/
theorem finish_deliverOff {p : Params} {c c0 : Cpu} (hc : c.deliver = c0.deliver) (hdue : due p c = false) :
    (finish p c).Keeps DeliverOff c0 := by
  rw [← due_reevaluated] at hdue
  simp only [finish, finish_reevaluates, hdue, Bool.false_eq_true, if_false]
  exact ⟨fun h => (reevaluated_deliver c).trans (hc.trans h), fun _ _ _ => rfl⟩

/-- `BR_FIX` is the finish micro-op on the same page under `page_cross`, and else begins no interrupt. -/
theorem brFix_deliverOff_or_finish (p : Params) (c : Cpu) : (brFix p c).Keeps DeliverOff c ∨
    (hiByte c.regs.ea = hiByte c.regs.pc ∧ p.branchDeferCase = .pageCross ∧ brFix p c = finish p c) := by
  by_cases hpage : hiByte c.regs.ea = hiByte c.regs.pc
  · cases hcase : p.branchDeferCase with
    | pageCross => exact .inr ⟨hpage, rfl, by simp only [brFix, hpage, hcase, if_true]⟩
    | noPageCross =>
      rw [brFix_samePage hpage hcase]
      exact .inl (finish_deliverOff (deferQuirkSamePage_deliver p c) (due_deferQuirkSamePage p c))
  · rw [brFix_crosses hpage]
    exact .inl ⟨fun h => (crossing_deliver p c).trans h, fun _ _ h => h⟩

/-- A slot of a branch before its finish slot. -/
theorem branchSlot_deliverOff_or_finish {i : Instr} {b : Byte} {k : BitVec 3} {s : State} (hm : (i, b) ∈ branchBytes)
    (hc : s.cpu.cc = slotOf b k) (hk : k = 1 ∨ k = 2) :
    (slotOp s.params (slotOf b k) s.params s.cpu).Keeps DeliverOff s.cpu ∨
      (s.finishing ∧ slotOp s.params (slotOf b k) s.params s.cpu = finish s.params s.cpu) := by
  rw [slotOp_branch hm]
  obtain rfl | rfl := hk
  · show (brCond s.params s.cpu).Keeps DeliverOff s.cpu ∨ (_ ∧ brCond s.params s.cpu = _)
    cases hcond : branchCond b s.cpu.regs.flags with
    | true =>
      rw [brCond_taken hc hcond]
      exact .inl ⟨fun h => h, fun _ _ h => h⟩
    | false =>
      exact .inr ⟨.inl ⟨i, .inr (.inl ⟨b, hm, hc, hcond⟩)⟩, brCond_not_taken hc hcond _⟩
  · show (brFix s.params s.cpu).Keeps DeliverOff s.cpu ∨ (_ ∧ brFix s.params s.cpu = _)
    obtain hoff | ⟨hpage, hcase, hfinish⟩ := brFix_deliverOff_or_finish s.params s.cpu
    · exact .inl hoff
    · exact .inr ⟨.inl ⟨i, .inr (.inr ⟨b, hm, hc, hpage, hcase⟩)⟩, hfinish⟩

/-- Outside a delivery, a slot begins none or is a finish micro-op. -/
theorem slotOp_deliverOff_or_finish {s : State} (hd : s.cpu.deliver = false) :
    (slotOp s.params s.cpu.cc s.params s.cpu).Keeps DeliverOff s.cpu ∨
      (s.finishing ∧ slotOp s.params s.cpu.cc s.params s.cpu = finish s.params s.cpu) := by
  obtain ⟨b, k, hc⟩ : ∃ b k, s.cpu.cc = slotOf b k := ⟨_, _, (slotOf_parts _).symm⟩
  rw [hc]
  cases hdecode : decodeOpcode b with
  | ok i =>
    obtain ⟨kf, hm⟩ := exists_finishSlot hdecode
    obtain hlt | rfl | hgt : k < kf ∨ k = kf ∨ kf < k := by bv_omega
    · by_cases hb : k = 0 ∨ (i, b) ∉ branchBytes
      · exact .inl (slotOp_straight hm hlt hb _ _ _ hd).deliverOff
      · obtain ⟨hk, hbranch⟩ := not_or.mp hb
        have hbranch := not_not.mp hbranch
        obtain rfl := finishSlot_branch hm hbranch
        exact branchSlot_deliverOff_or_finish hbranch hc (by bv_omega)
    · exact .inr ⟨.inl ⟨i, .inl ⟨b, k, hm, hc⟩⟩, by rw [slotOp_finishSlot hm]⟩
    · rw [slotOp_pastFinish hm hgt]
      exact .inl (unmodelledOp_deliverOff _ _)
  | error r =>
    by_cases hu : b ∈ s.params.unmodelled
    · rw [slotOp_of_mem_unmodelled hdecode hu]
      exact .inl (unmodelledOp_deliverOff _ _)
    · rw [slotOp_open hdecode hu]
      by_cases hbody : k.toNat < (Config.microOps b).finishSlot.toNat
      · simp only [openSlots, hbody, if_true]
        exact .inl ((bodyPlan_regsOnly b _ _ _).mono fun _ _ => RegsOnly.deliverOff)
      · by_cases hk : k = (Config.microOps b).finishSlot
        · refine .inr ⟨.inr ⟨b, r, hdecode, hu, by rw [hc, hk]⟩, ?_⟩
          simp only [openSlots, hbody, if_pos hk, if_false]
        · simp only [openSlots, hbody, if_neg hk, if_false]
          exact .inl (unmodelledOp_deliverOff _ _)

theorem settle_deliver (r : MicroResult) (s : State) : (settle r s).cpu.deliver = s.cpu.deliver := by
  unfold settle
  repeat' split
  all_goals rfl

/-- A micro-op that turns delivery on nowhere leaves it off. -/
theorem runPlan_deliverOff {plan : MicroPlan} {s : State} (hp : plan.Keeps DeliverOff s.cpu)
    (hs : s.cpu.deliver = false) : (runPlan plan s).cpu.deliver = false := by
  cases plan with
  | done c r => exact (settle_deliver r _).trans (hp hs)
  | read c a k =>
    obtain ⟨hbefore, hafter⟩ := hp
    exact andThen_keeps (P := fun t => t.cpu.deliver = false) ((cpuRead_frame _ a _).deliver.trans (hbefore hs))
      fun _ ht => (settle_deliver _ _).trans (hafter _ _ ht)
  | write c a d k =>
    obtain ⟨hbefore, hafter⟩ := hp
    exact andThen_keeps (P := fun t => t.cpu.deliver = false) ((cpuWrite_frame _ a d _).deliver.trans (hbefore hs))
      fun _ ht => (settle_deliver _ _).trans (hafter _ ht)

/-- The CPU whose next slot is the first of an interrupt's sequence (60_exceptions.md R226). -/
def Cpu.redirected (c : Cpu) : Cpu :=
  { c with intCycle := .inProgress, deliver := true, intEarlier := false, cc := 0 }

/-- A slot that turns delivery on is a finish micro-op that redirects. -/
theorem execSlot_delivers {s : State} (hd : s.cpu.deliver = false) (h : (execSlot s).cpu.deliver = true) :
    s.finishing ∧ execSlot s = { s with cpu := s.cpu.redirected } := by
  obtain hoff | ⟨hfin, hplan⟩ := slotOp_deliverOff_or_finish hd
  · have hkept : (execSlot s).cpu.deliver = false := runPlan_deliverOff hoff hd
    simp [hkept] at h
  · have hslot : execSlot s = runPlan (finish s.params s.cpu) s := congrArg (runPlan · s) hplan
    cases hdue : due s.params s.cpu with
    | true => exact ⟨hfin, hslot.trans (runPlan_finish_redirects s s.cpu hdue)⟩
    | false =>
      have hkept := runPlan_deliverOff (finish_deliverOff rfl hdue) hd
      rw [← hslot, h] at hkept
      cases hkept

/-- What the finish micro-op of `s` looks at is unchanged in `t`, and nothing is recorded. -/
structure SameSlot (s t : State) : Prop where
  cpu : t.cpu = s.cpu
  params : t.params = s.params
  hist : t.hist = s.hist
  env : t.env = s.env

/-- Where delivery is on in `t`, the finish micro-op of `s` took an interrupt. -/
def BeganAt (s t : State) : Prop :=
  t.cpu.deliver = true → s.finishing ∧ t.cpu = s.cpu.redirected ∧ t.hist = s.hist ∧ t.env = s.env

theorem SameSlot.finishing {s t : State} (h : SameSlot s t) (ht : t.finishing) : s.finishing := by
  simpa only [State.finishing, State.atFinish, State.atOpenFinish, h.cpu, h.params] using ht

theorem BeganAt.of_off {s t : State} (h : t.cpu.deliver = false) : BeganAt s t := fun ht => by
  rw [h] at ht
  cases ht

theorem schedule_hist (i : EventId) (c : Nat) (ph : Phase) (s : State) : (schedule i c ph s).hist = s.hist := by
  rcases schedule_cases i c ph s with ⟨-, h⟩ | ⟨-, -, h⟩ | ⟨-, -, -, h⟩ | ⟨-, -, -, h⟩ <;> rw [h] <;> rfl

theorem schedule_cpu (i : EventId) (c : Nat) (ph : Phase) (s : State) : (schedule i c ph s).cpu = s.cpu := by
  rcases schedule_cases i c ph s with ⟨-, h⟩ | ⟨-, -, h⟩ | ⟨-, -, -, h⟩ | ⟨-, -, -, h⟩ <;> rw [h] <;> rfl

theorem trigRst_deliver (s : State) : (trigRst s).cpu.deliver = s.cpu.deliver := by
  obtain ⟨-, -, hdeliver, -⟩ := calcTrigger_fields { s.cpu with rstFlag := true }
  exact hdeliver

/-- From outside a delivery, only the slot of a tick begins one. -/
theorem beganAt_leads {s : State} (hs : s.cpu.deliver = false) : HostLeads (SameSlot s) (BeganAt s) :=
  have off {t : State} (h : SameSlot s t) : t.cpu.deliver = false := (congrArg Cpu.deliver h.cpu).trans hs
  { idle := fun _ h => .of_off (off h :)
    fail := fun _ _ h => .of_off (off h :)
    halted := fun _ h => ⟨h.cpu, h.params, h.hist, h.env⟩
    pop := fun _ _ _ _ h => ⟨h.cpu, h.params, h.hist, h.env⟩
    slot := fun t h hd => by
      obtain ⟨hfin, hslot⟩ := execSlot_delivers (off h) hd
      rw [hslot]
      exact ⟨h.finishing hfin, congrArg Cpu.redirected h.cpu, h.hist, h.env⟩
    resched := fun t _ h => by
      simp only [BeganAt, reschedule, schedule_cpu, schedule_hist, schedule_env]
      exact h
    release := fun _ h => .of_off (off h :)
    fire := fun _ _ h => .of_off ((responder_frame _ _ _).deliver.trans (off h :))
    loop := fun _ _ h => h
    clear := fun _ h => .of_off (off h :)
    rst := fun t h => .of_off ((trigRst_deliver t).trans (off h)) }

/-- Settles O58: a step that begins an interrupt runs a tick, and the tick's slot was a finish. -/
theorem interruptsBeginBetweenInstructions : Obligations.InterruptsBeginBetweenInstructions := by
  intro s t hst hs ht
  by_cases hm : ∃ inp ∈ s.inputs.head?, decodeCommand inp.word = .ok .mreset
  · exact .inl hm
  refine .inr ((?_ : BeganAt s t) ht)
  cases step_cases hst with
  | idle => exact .of_off hs
  | more hf x hx => exact (beganAt_leads hs).stepMore x hf ⟨rfl, rfl, rfl, rfl⟩
  | refused rest f inp hin => exact .of_off hs
  | runs hf rest inp i hin hd hc =>
    obtain hi | hi | ⟨hi, -⟩ := classFault_eq_none hc
    · exact .of_off ((effect_external_frame (s := { s with inputs := rest }) hi hf).deliver.trans hs)
    · have hne : i ≠ .mreset := by
        rintro rfl
        exact hm ⟨inp, by simp [hin], hd⟩
      exact (beganAt_leads hs).host (s := { s with inputs := rest }) hi hne hf ⟨rfl, rfl, rfl, rfl⟩
    · exact .of_off ((effect_internal_frame hi { s with inputs := rest }).deliver.trans hs)

end Sys2Proof.Machine
end

section
/-! The cycles of a CPU that runs alone: a `STEP` runs the slot of the one pending tick, and the tick is pending again
two half-cycles on (43_sequencer.md R187, R211; 70_reset_and_hazards.md R274; log 9). -/

namespace Sys2Proof.Machine

/-! ### Accesses without a reply -/

theorem cpuRead_quiet_andThen (n : Nat) (a : Addr) {s : State} (hf : s.fault = none) (hc : s.env.calls = [])
    (f : State → State) : (cpuRead (respond n) a s).andThen f =
      f (s.record (.read (s.pla.readHandler a) a (cpuReadByte a s))) := by
  rw [cpuRead_quiet n a s hf hc, andThen_live (by exact hf)]

theorem cpuWrite_quiet_andThen (n : Nat) (a : Addr) (d : Byte) {s : State} (hf : s.fault = none)
    (hc : s.env.calls = []) (f : State → State) : (cpuWrite (respond n) a d s).andThen f =
      f { s with
        env := s.env.store (s.pla.writeHandler a) a d
        hist := s.hist ++ [.write (s.pla.writeHandler a) a d] } := by
  rw [cpuWrite_quiet n a d hf hc, andThen_live (by exact hf)]

/-! ### One `STEP` -/

/-- The state in which the slot of the only pending tick runs, with `r` left in the host's line. -/
def State.ticking (s : State) (r : List Input) : State :=
  { s with
    clk := { now := s.clk.time Config.tickNsId, ev := s.clk.ev, pending := [] }
    inputs := r }

/-- The state after that slot has left the CPU `c`, the record `e` and the environment `env`. -/
def State.cycled (s : State) (r : List Input) (c : Cpu) (e : HistEntry) (env : Env) : State :=
  { s with
    clk := (s.ticking r).clk.scheduled Config.tickNsId (s.clk.time Config.tickNsId + 2)
    cpu := c
    hist := s.hist ++ [e]
    env := env
    inputs := r }

theorem toNat_tickTime_add_two {s : State} (hfit : s.tickTime + 2 < 2 ^ 64) :
    (s.clk.time Config.tickNsId + 2).toNat = s.tickTime + 2 := by
  rw [BitVec.toNat_add]
  exact Nat.mod_eq_of_lt hfit

theorem cycled_tickTime {s : State} (hfit : s.tickTime + 2 < 2 ^ 64) (r : List Input) (c : Cpu) (e : HistEntry)
    (env : Env) : (s.cycled r c e env).tickTime = s.tickTime + 2 :=
  (congrArg BitVec.toNat (scheduled_time_same _ _ _)).trans (toNat_tickTime_add_two hfit)

/-- A `STEP` with only the tick pending: its slot, then the tick again, and the loop ends. -/
theorem step_tick {s : State} {r : List Input} {c : Cpu} {e : HistEntry} {env : Env} (hf : s.fault = none)
    (hx : s.stepping = none) (hp : s.clk.pending = [Config.tickNsId]) (hb : 0 < s.params.walkBound)
    (hin : s.inputs = { issuer := .host, word := 0x10000000 } :: r) (hodd : s.tickTime % 2 = 1)
    (hfit : s.tickTime + 2 < 2 ^ 64) (hmode : c.mode = .nonStealing)
    (hslot : execSlot (s.ticking r) = { s.ticking r with cpu := c, hist := s.hist ++ [e], env := env }) :
    step s = .next (s.cycled r c e env) := by
  have hx2 := toNat_tickTime_add_two hfit
  have htick : c.mode.tick = Config.tickNsId := by rw [hmode]; rfl
  have hsched : reschedule { s.ticking r with cpu := c, hist := s.hist ++ [e], env := env } = s.cycled r c e env := by
    rw [reschedule_room (x := s.clk.time Config.tickNsId + 2) (by exact List.not_mem_nil) (by exact hodd)
      (by exact hx2) (by exact hb)]
    simp only [htick]
    rfl
  have hrun : runNext { s with inputs := r } = s.cycled r c e env := by
    rw [runNext_cons (s := { s with inputs := r }) (rest := []) hp]
    show tickNs (s.ticking r) = _
    rw [tickNs, hslot, andThen_live (by exact hf), hsched]
  have hend : ¬∃ i ∈ (s.cycled r c e env).clk.pending.head?,
      (s.cycled r c e env).clk.time i = s.clk.time Config.tickNsId := by
    rintro ⟨i, hi, ht⟩
    obtain rfl : Config.tickNsId = i := Option.some.inj hi
    have h := cycled_tickTime hfit r c e env
    rw [State.tickTime, ht] at h
    simp [State.tickTime] at h
  rw [step_of_stepWord hf hx hin, stepFirst_cons (by exact hp), hrun, andThen_live (by exact hf)]
  show Host.Outcome.next (loopAt (s.clk.time Config.tickNsId) (s.cycled r c e env)) = _
  rw [loopAt_ends hend]
  simp only [State.cycled, hx]

/-! ### Cycles in a row -/

/-- No interrupt source is up, recorded or being delivered, and the CPU is not stalled. -/
def Cpu.Calm (c : Cpu) : Prop :=
  c.mode = .nonStealing ∧ c.rstFlag = false ∧ c.nmiFlag = false ∧ c.irqPin = false ∧ c.intCycle = .none ∧
    c.deliver = false

/-- The CPU runs alone outside a delivery, with `n` `STEP` commands and then `r` in the host's line. -/
structure State.Ready (n : Nat) (r : List Input) (s : State) : Prop where
  live : s.fault = none
  idle : s.stepping = none
  quiet : s.quiet
  onlyTick : s.clk.pending = [Config.tickNsId]
  bound : 0 < s.params.walkBound
  calm : s.cpu.Calm
  inputs : s.inputs = stepInputs n ++ r
  odd : s.tickTime % 2 = 1
  fits : s.tickTime + 2 * n < 2 ^ 64

theorem ready_of_cpuAlone {s : State} {n : Nat} {r : List Input} (h : s.cpuAlone) (hd : s.cpu.deliver = false)
    (hin : s.inputs = stepInputs n ++ r) (hodd : s.tickTime % 2 = 1) (hfits : s.tickTime + 2 * n < 2 ^ 64) :
    s.Ready n r where
  live := h.live
  idle := h.idle
  quiet := h.quiet
  onlyTick := h.onlyTick
  bound := h.bound
  calm := ⟨h.mode, h.noRst, h.noNmi, h.noIrq, h.noPoint, hd⟩
  inputs := hin
  odd := hodd
  fits := hfits

/-- `n` `STEP`s lead from `s` to `t`, with one bus access each, two half-cycles apart. -/
structure Cycles (n : Nat) (s t : State) : Prop where
  run : core.run n s = .next t
  tickTime : t.tickTime = s.tickTime + 2 * n
  length : t.hist.length = s.hist.length + n

theorem run_add {m n : Nat} {s t : State} (h : core.run m s = .next t) : core.run (m + n) s = core.run n t := by
  induction m generalizing s with
  | zero =>
    cases h
    rw [Nat.zero_add]
  | succ m ih =>
    rw [Nat.succ_add]
    simp only [Host.Core.run] at h ⊢
    cases hstep : core.step s with
    | next u =>
      simp only [hstep] at h ⊢
      exact ih h
    | fault f => cases f
    | refused f => simp [hstep] at h

theorem Cycles.refl (s : State) : Cycles 0 s s := ⟨rfl, rfl, rfl⟩

theorem Cycles.trans {m n : Nat} {s t u : State} (h : Cycles m s t) (g : Cycles n t u) : Cycles (m + n) s u where
  run := (run_add h.run).trans g.run
  tickTime := by rw [g.tickTime, h.tickTime]; omega
  length := by rw [g.length, h.length]; omega

section

variable {s : State} {n : Nat} {r : List Input} (h : s.Ready (n + 1) r)
include h

/-- One cycle of a CPU alone, by what its slot does. -/
theorem State.Ready.cycle {c : Cpu} {e : HistEntry} {env : Env} (hc : c.Calm) (henv : env.calls = [] ∧ env.events = [])
    (hslot : execSlot (s.ticking (stepInputs n ++ r)) =
      { s.ticking (stepInputs n ++ r) with cpu := c, hist := s.hist ++ [e], env := env }) :
    Cycles 1 s (s.cycled (stepInputs n ++ r) c e env) ∧ (s.cycled (stepInputs n ++ r) c e env).Ready n r := by
  have hfit : s.tickTime + 2 < 2 ^ 64 := by have := h.fits; omega
  have htime := cycled_tickTime hfit (stepInputs n ++ r) c e env
  have hstep := step_tick (r := stepInputs n ++ r) h.live h.idle h.onlyTick h.bound h.inputs h.odd hfit hc.1 hslot
  refine ⟨⟨?_, htime, by simp [State.cycled]⟩, ?_⟩
  · show core.run 1 s = _
    simp only [Host.Core.run, core, hstep]
  · exact
    { live := h.live
      idle := h.idle
      quiet := henv
      onlyTick := rfl
      bound := h.bound
      calm := hc
      inputs := rfl
      odd := by rw [htime]; have := h.odd; omega
      fits := by rw [htime]; have := h.fits; omega }

/-- A cycle whose slot reads. -/
theorem State.Ready.read {c : Cpu} {a : Addr} {cc : Slot} {regs : Regs} (hc : c.Calm)
    (hslot : execSlot (s.ticking (stepInputs n ++ r)) =
      (cpuRead s.responder a { s.ticking (stepInputs n ++ r) with cpu := c }).andThen fun t => t.ran cc regs) :
    ∃ t, Cycles 1 s t ∧ t.Ready n r ∧ t.cpu.cc = cc ∧ t.cpu.regs = regs := by
  have hread := cpuRead_quiet_andThen s.env.calls.length a (s := { s.ticking (stepInputs n ++ r) with cpu := c }) h.live
    h.quiet.1 fun t => t.ran cc regs
  obtain ⟨hcycle, hready⟩ := h.cycle (c := { c with cc := cc, regs := regs }) hc h.quiet (hslot.trans hread)
  exact ⟨_, hcycle, hready, rfl, rfl⟩

end

/-! ### Straight slots and the finish -/

/-- The end of a straight micro-op. -/
theorem afterAccess_straight {c : Cpu} {x : Cpu × MicroResult} (hx : RegsOnly c x.1 ∧ x.2 = .next)
    (hk : (slotSub c.cc).toNat ≠ 7) (t : State) :
    afterAccess x t = { t with cpu := { c with cc := c.cc + 1, regs := x.1.regs } } := by
  obtain ⟨c', res⟩ := x
  obtain ⟨hregs, rfl⟩ := hx
  rw [show c' = { c with regs := c'.regs } from hregs]
  exact settle_next (s := { t with cpu := { c with regs := c'.regs } }) hk

/-- With no scripted reply, a straight micro-op writes registers, goes to the next slot and leaves one record. -/
theorem runPlan_straight {plan : MicroPlan} {s : State} (h : plan.Straight s.cpu) (hf : s.fault = none)
    (hd : s.cpu.deliver = false) (hq : s.quiet) (hk : (slotSub s.cpu.cc).toNat ≠ 7) :
    ∃ (regs : Regs) (e : HistEntry) (env : Env), (env.calls = [] ∧ env.events = []) ∧ runPlan plan s =
      { s with cpu := { s.cpu with cc := s.cpu.cc + 1, regs := regs }, hist := s.hist ++ [e], env := env } := by
  cases plan with
  | done c res => exact h.elim
  | read c a k =>
    obtain ⟨hbefore, hafter⟩ := h
    obtain ⟨r1, rfl⟩ : ∃ r1, c = { s.cpu with regs := r1 } := ⟨_, hbefore⟩
    have hread := cpuRead_quiet_andThen s.env.calls.length a (s := { s with cpu := { s.cpu with regs := r1 } }) hf
      hq.1 fun t => afterAccess (k t.cpu (cpuReadByte a s)) t
    have hend := afterAccess_straight (hafter { s.cpu with regs := r1 } (cpuReadByte a s) hd) hk
    exact ⟨_, _, s.env, hq, hread.trans (hend _)⟩
  | write c a d k =>
    obtain ⟨hbefore, hafter⟩ := h
    obtain ⟨r1, rfl⟩ : ∃ r1, c = { s.cpu with regs := r1 } := ⟨_, hbefore⟩
    have hwrite := cpuWrite_quiet_andThen s.env.calls.length a d (s := { s with cpu := { s.cpu with regs := r1 } }) hf
      hq.1 fun t => afterAccess (k t.cpu) t
    have hend := afterAccess_straight (hafter { s.cpu with regs := r1 } hd) hk
    exact ⟨_, _, s.env.store (s.pla.writeHandler a) a d,
      ⟨(store_calls _ _ _ _).trans hq.1, (store_events _ _ _ _).trans hq.2⟩, hwrite.trans (hend _)⟩

/-- A calm CPU has nothing to re-evaluate at a finish (43_sequencer.md R192). -/
theorem Cpu.Calm.reevaluated {c : Cpu} (h : c.Calm) : c.reevaluated = c := by
  obtain ⟨-, hrst, hnmi, hirq, hpoint, -⟩ := h
  simp [Cpu.reevaluated, Cpu.deliverable, hrst, hnmi, hirq, hpoint]

theorem Cpu.Calm.not_due {c : Cpu} (h : c.Calm) (p : Params) : due p c = false := by
  obtain ⟨-, -, -, -, hpoint, -⟩ := h
  simp only [due, hpoint]

/-- With no scripted reply, the finish micro-op of a calm CPU fetches the opcode at PC and leaves one record. -/
theorem runPlan_finish_calm {s : State} (hc : s.cpu.Calm) (hf : s.fault = none) (hq : s.quiet) :
    runPlan (finish s.params s.cpu) s = { s with
      cpu := { s.cpu with
        cc := slotOf (cpuReadByte s.cpu.regs.pc s) 0
        regs := { s.cpu.regs with pc := s.cpu.regs.pc + 1 }
        deliver := false }
      hist := s.hist ++ [.read (s.pla.readHandler s.cpu.regs.pc) s.cpu.regs.pc (cpuReadByte s.cpu.regs.pc s)] } := by
  have hnone : s.cpu.pointPending = false := by
    obtain ⟨-, -, -, -, hpoint, -⟩ := hc
    simp only [Cpu.pointPending, hpoint]
  rw [runPlan_finish_fetches s.cpu s (hc.not_due _), hc.reevaluated]
  refine (cpuRead_quiet_andThen _ _ hf hq.1 _).trans ?_
  simp only [State.record, hnone, Bool.false_or]

section

variable {s : State} {n : Nat} {r : List Input} (h : s.Ready (n + 1) r)
include h

/-- A cycle at a straight slot. -/
theorem State.Ready.straight {b : Byte} {k : BitVec 3} (hcc : s.cpu.cc = slotOf b k) (hk : k.toNat ≠ 7)
    (hstraight : (slotOp s.params (slotOf b k)).Straight) :
    ∃ t, Cycles 1 s t ∧ t.Ready n r ∧ t.cpu.cc = slotOf b (k + 1) := by
  obtain ⟨-, -, -, -, -, hdeliver⟩ := h.calm
  have hsub : (slotSub s.cpu.cc).toNat ≠ 7 := by rwa [hcc, slotSub_slotOf]
  obtain ⟨regs, e, env, henv, hrun⟩ := runPlan_straight (s := s.ticking (stepInputs n ++ r))
    (hstraight s.params s.cpu hdeliver) h.live hdeliver h.quiet hsub
  obtain ⟨hcycle, hready⟩ := h.cycle (c := { s.cpu with cc := s.cpu.cc + 1, regs := regs }) h.calm henv
    ((execSlot_at (by exact hcc)).trans hrun)
  exact ⟨_, hcycle, hready, (congrArg (· + 1) hcc).trans (slotOf_succ b k hk)⟩

end

/-- `n` cycles lead from `s` to the fetch of the opcode `op`, found with the registers `regs`. -/
structure Fetches (n : Nat) (r : List Input) (s t : State) (regs : Regs) (op : Byte) : Prop where
  cycles : Cycles n s t
  ready : t.Ready 0 r
  last : t.hist.getLast? = some (.read (t.pla.readHandler regs.pc) regs.pc op)
  cc : t.cpu.cc = slotOf op 0
  regs : t.cpu.regs = { regs with pc := regs.pc + 1 }
  now : t.clk.now.toNat + 2 = t.tickTime

/-- The cycle of a finish micro-op, after `n` others. -/
theorem Cycles.finish {n : Nat} {s u : State} {r : List Input} (hcycles : Cycles n s u) (h : u.Ready 1 r)
    (hslot : slotOp u.params u.cpu.cc u.params u.cpu = Machine.finish u.params u.cpu) :
    ∃ t op, Fetches (n + 1) r s t u.cpu.regs op := by
  have hrun := runPlan_finish_calm (s := u.ticking (stepInputs 0 ++ r)) h.calm h.live h.quiet
  obtain ⟨hmode, hrst, hnmi, hirq, hpoint, -⟩ := h.calm
  obtain ⟨hcycle, hready⟩ := h.cycle (c := { u.cpu with
    cc := slotOf (cpuReadByte u.cpu.regs.pc u) 0
    regs := { u.cpu.regs with pc := u.cpu.regs.pc + 1 }
    deliver := false }) ⟨hmode, hrst, hnmi, hirq, hpoint, rfl⟩ h.quiet
    ((congrArg (runPlan · _) hslot).trans hrun)
  refine ⟨_, _, hcycles.trans hcycle, hready, List.getLast?_concat, rfl, rfl, ?_⟩
  rw [hcycle.tickTime]
  rfl

/-- From a slot of an opcode that is no branch, straight to its finish slot. -/
theorem cycles_to_finishSlot {i : Instr} {b : Byte} {k : BitVec 3} (hm : (i, b, k) ∈ finishSlots)
    (hb : (i, b) ∉ branchBytes) {n : Nat} {r : List Input} (m : Nat) {s : State} {sub : BitVec 3}
    (h : s.Ready (m + n) r) (hcc : s.cpu.cc = slotOf b sub) (hk : sub.toNat + m = k.toNat) :
    ∃ t, Cycles m s t ∧ t.Ready n r ∧ t.cpu.cc = slotOf b k := by
  induction m generalizing s sub with
  | zero =>
    obtain rfl : sub = k := BitVec.eq_of_toNat_eq hk
    rw [Nat.zero_add] at h
    exact ⟨s, .refl s, h, hcc⟩
  | succ m ih =>
    have hlt : sub < k := by bv_omega
    have hsub : sub.toNat ≠ 7 := by bv_omega
    rw [Nat.succ_add] at h
    obtain ⟨u, hcycle, hready, hucc⟩ := h.straight hcc hsub (slotOp_straight hm hlt (.inr hb) _)
    obtain ⟨t, hcycles, ht⟩ := ih hready hucc (by bv_omega)
    exact ⟨t, by rw [Nat.add_comm]; exact hcycle.trans hcycles, ht⟩

/-- The opcodes of fixed length are no branches, and take a cycle more than their finish slot says. -/
theorem finishSlot_of_cycleCount {b : Byte} {n : Nat}
    (h : (b, n) ∈ [((0xA9 : Byte), 2), (0xEA, 2), (0x20, 6), (0x60, 6), (0x40, 6), (0x00, 7)]) :
    ∃ i k, (i, b, k) ∈ finishSlots ∧ (i, b) ∉ branchBytes ∧ n = k.toNat + 1 := by
  have each : ∀ x ∈ [((0xA9 : Byte), 2), (0xEA, 2), (0x20, 6), (0x60, 6), (0x40, 6), (0x00, 7)],
      ∃ y ∈ finishSlots, y.2.1 = x.1 ∧ (y.1, y.2.1) ∉ branchBytes ∧ x.2 = y.2.2.toNat + 1 := by decide
  obtain ⟨⟨i, _, k⟩, hm, rfl, hb, hn⟩ := each (b, n) h
  exact ⟨i, k, hm, hb, hn⟩

/-- Settles O52: straight from slot 0 to the finish slot, then the fetch. -/
theorem straightLineCycleCounts : Obligations.StraightLineCycleCounts := by
  intro b n s r hn halone hcc hdeliver hin hodd hfits
  obtain ⟨i, k, hm, hb, rfl⟩ := finishSlot_of_cycleCount hn
  obtain ⟨u, hcycles, hready, hucc⟩ := cycles_to_finishSlot (n := 1) hm hb k.toNat
    (ready_of_cpuAlone halone hdeliver hin hodd hfits) hcc (Nat.zero_add _)
  obtain ⟨t, op, h⟩ := hcycles.finish hready (by rw [hucc, slotOp_finishSlot hm])
  have hnow := h.now
  have htime := h.cycles.tickTime
  exact ⟨t, u.cpu.regs.pc, op, h.cycles.run, h.ready.live, h.ready.idle, h.ready.inputs, h.cycles.length, h.last, h.cc,
    by rw [h.regs], by omega, htime, h.ready.onlyTick⟩

end Sys2Proof.Machine
end

section
/-! The cycles of a branch of a CPU that runs alone (43_sequencer.md R200 to R203, R209, R211; log 9). -/

namespace Sys2Proof.Machine

theorem hiByte_append (h l : Byte) : hiByte (h ++ l) = h := BitVec.extractLsb'_append_eq_left

theorem hiByte_append_loByte (a : Addr) : hiByte a ++ loByte a = a := by
  unfold hiByte loByte
  rw [BitVec.extractLsb'_append_extractLsb'_eq_extractLsb' (by rfl)]
  exact BitVec.extractLsb'_eq_self

/-- With nothing due, `BR_FIX` on the same page is the finish micro-op, in either reading of R203. -/
theorem brFix_finishes {p : Params} {c : Cpu} (hpage : hiByte c.regs.ea = hiByte c.regs.pc)
    (hdue : due p c = false) : brFix p c = finish p c := by
  cases hcase : p.branchDeferCase with
  | pageCross => simp only [brFix, hpage, hcase, if_true]
  | noPageCross =>
    have hquirk : c.deferQuirkSamePage p = c := if_neg (by simp [hdue])
    rw [brFix_samePage hpage hcase, hquirk]

/-- After `n` cycles from `s` the finish micro-op runs next, with PC at `dest`; A, X, Y, SP and the flags are kept. -/
structure Arrives (n : Nat) (r : List Input) (s u : State) (dest : Addr) : Prop where
  cycles : Cycles n s u
  ready : u.Ready 1 r
  finishes : slotOp u.params u.cpu.cc u.params u.cpu = finish u.params u.cpu
  regs : u.cpu.regs = { s.cpu.regs with pc := dest, ea := u.cpu.regs.ea, tmp := u.cpu.regs.tmp }

section

variable {i : Instr} {b : Byte} {n : Nat} {r : List Input} {s : State} (hm : (i, b) ∈ branchBytes)
include hm

/-- The slot of a branch at its finish micro-op. -/
theorem finishes_of_branchSlots {k : BitVec 3} (hcc : s.cpu.cc = slotOf b k)
    (h : Machine.branchSlots k s.params s.cpu = finish s.params s.cpu) :
    slotOp s.params s.cpu.cc s.params s.cpu = finish s.params s.cpu := by
  rw [hcc, slotOp_branch hm, h]

variable (h : s.Ready (n + 1) r)
include h

/-- A cycle at a reading slot of a branch, by the opcode's meaning. -/
theorem branch_read {k : BitVec 3} {c : Cpu} {a : Addr} {cc : Slot} {regs : Regs} (hcc : s.cpu.cc = slotOf b k)
    (hc : c.Calm) (hexec : exec i (s.ticking (stepInputs n ++ r)) =
      .next ((cpuRead s.responder a { s.ticking (stepInputs n ++ r) with cpu := c }).andThen fun t => t.ran cc regs)) :
    ∃ t, Cycles 1 s t ∧ t.Ready n r ∧ t.cpu.cc = cc ∧ t.cpu.regs = regs := by
  rw [exec_opcode_at (decodeOpcode_branch hm) (by exact h.live) (by exact hcc)] at hexec
  exact h.read hc (Host.Outcome.next.inj hexec)

/-- Slot 0. -/
theorem branch_offset (hcc : s.cpu.cc = slotOf b 0) :
    ∃ t, Cycles 1 s t ∧ t.Ready n r ∧ t.cpu.cc = slotOf b 1 ∧ t.cpu.regs =
      { s.cpu.regs with tmp := cpuReadByte s.cpu.regs.pc s, pc := s.cpu.regs.pc + 1 } := by
  obtain ⟨hoffset, -⟩ := Sys2Proof.branchSlots.2 i b (s.ticking (stepInputs n ++ r)) _ hm h.live rfl
  exact branch_read hm h hcc h.calm (hoffset hcc)

/-- Slot 1 of a taken branch. -/
theorem branch_taken {target : Addr} (hcc : s.cpu.cc = slotOf b 1) (ht : branchCond b s.cpu.regs.flags = true)
    (htarget : target = s.cpu.regs.pc + s.cpu.regs.tmp.signExtend 16) :
    ∃ t, Cycles 1 s t ∧ t.Ready n r ∧ t.cpu.cc = slotOf b 2 ∧ t.cpu.regs =
      { s.cpu.regs with ea := target, pc := hiByte s.cpu.regs.pc ++ loByte target } := by
  obtain ⟨-, htaken, -⟩ := Sys2Proof.branchSlots.2 i b (s.ticking (stepInputs n ++ r)) _ hm h.live rfl
  exact branch_read hm h (c := { s.cpu with regs := { s.cpu.regs with ea := target } }) hcc h.calm
    (htaken target hcc ht htarget)

/-- Slot 2 of a branch across a page. -/
theorem branch_crosses (hcc : s.cpu.cc = slotOf b 2) (hpage : hiByte s.cpu.regs.ea ≠ hiByte s.cpu.regs.pc) :
    ∃ t, Cycles 1 s t ∧ t.Ready n r ∧ t.cpu.cc = slotOf b 3 ∧ t.cpu.regs =
      { s.cpu.regs with pc := s.cpu.regs.ea } := by
  obtain ⟨-, -, hcrosses, -⟩ := Sys2Proof.branchSlots.2 i b (s.ticking (stepInputs n ++ r)) _ hm h.live rfl
  obtain ⟨-, -, -, -, hpoint, -⟩ := h.calm
  exact branch_read hm h hcc h.calm (hcrosses s.cpu hcc hpage (if_neg (by simp [State.ticking, hpoint])).symm)

end

section

variable {i : Instr} {b : Byte} {r : List Input} {s : State} {next target : Addr} (hm : (i, b) ∈ branchBytes)
  (hcc : s.cpu.cc = slotOf b 0) (hnext : next = s.cpu.regs.pc + 1)
include hm hcc hnext

/-- Not taken, the finish is slot 1. -/
theorem arrives_not_taken (h : s.Ready 2 r) (ht : branchCond b s.cpu.regs.flags = false) :
    ∃ u, Arrives 1 r s u next := by
  subst hnext
  obtain ⟨u, hcycle, hready, hucc, hregs⟩ := branch_offset hm h hcc
  have hslot : brCond u.params u.cpu = finish u.params u.cpu := brCond_not_taken hucc (by rw [hregs]; exact ht) _
  exact ⟨u, hcycle, hready, finishes_of_branchSlots hm hucc hslot, by rw [hregs]⟩

variable (htarget : target = next + (cpuReadByte s.cpu.regs.pc s).signExtend 16)
  (ht : branchCond b s.cpu.regs.flags = true)
include htarget ht

/-- Taken, slot 2 comes after two cycles, with the target's low byte in PC. -/
theorem cycles_taken {n : Nat} (h : s.Ready (n + 2) r) :
    ∃ u, Cycles 2 s u ∧ u.Ready n r ∧ u.cpu.cc = slotOf b 2 ∧ u.cpu.regs =
      { s.cpu.regs with
        tmp := cpuReadByte s.cpu.regs.pc s, ea := target, pc := hiByte next ++ loByte target } := by
  subst hnext
  obtain ⟨u, hcycle, hready, hucc, hregs⟩ := branch_offset hm h hcc
  obtain ⟨v, hcycle', hready', hvcc, hvregs⟩ := branch_taken hm hready (target := target) hucc
    (by rw [hregs]; exact ht) (by rw [hregs]; exact htarget)
  exact ⟨v, hcycle.trans hcycle', hready', hvcc, by rw [hvregs, hregs]⟩

/-- Within the page, the finish is slot 2. -/
theorem arrives_samePage (h : s.Ready 3 r) (hpage : hiByte target = hiByte next) : ∃ u, Arrives 2 r s u target := by
  obtain ⟨u, hcycles, hready, hucc, hregs⟩ := cycles_taken hm hcc hnext htarget ht h
  have hpc : hiByte next ++ loByte target = target := by rw [← hpage, hiByte_append_loByte]
  rw [hpc] at hregs
  have hslot : brFix u.params u.cpu = finish u.params u.cpu :=
    brFix_finishes (by rw [hregs]) (hready.calm.not_due _)
  exact ⟨u, hcycles, hready, finishes_of_branchSlots hm hucc hslot, by rw [hregs]⟩

/-- Across a page, the finish is slot 3. -/
theorem arrives_across (h : s.Ready 4 r) (hpage : hiByte target ≠ hiByte next) : ∃ u, Arrives 3 r s u target := by
  obtain ⟨u, hcycles, hready, hucc, hregs⟩ := cycles_taken hm hcc hnext htarget ht h
  have hcross : hiByte u.cpu.regs.ea ≠ hiByte u.cpu.regs.pc := by
    rw [hregs]
    simpa only [hiByte_append] using hpage
  obtain ⟨v, hcycle, hready', hvcc, hvregs⟩ := branch_crosses hm hready hucc hcross
  have hslot : finish v.params v.cpu = finish v.params v.cpu := rfl
  exact ⟨v, hcycles.trans hcycle, hready', finishes_of_branchSlots hm hvcc hslot, by rw [hvregs, hregs]⟩

end

/-- Settles O53: the cycles to the branch's finish micro-op, then the fetch. -/
theorem branchCycleCounts : Obligations.BranchCycleCounts := by
  rintro i b _ s r next target dest n hm halone hcc hdeliver hin hodd hfits rfl hnext htarget hdest
  have h := ready_of_cpuAlone halone hdeliver hin hodd hfits
  have harrives : ∃ m u, n = m + 1 ∧ Arrives m r s u dest := by
    split at hdest
    · next ht =>
      obtain ⟨rfl, rfl⟩ := Prod.mk.inj hdest
      obtain ⟨u, hu⟩ := arrives_not_taken hm hcc hnext h ht
      exact ⟨1, u, rfl, hu⟩
    · next ht =>
      have ht := Bool.eq_true_of_not_eq_false ht
      split at hdest
      · next hpage =>
        obtain ⟨rfl, rfl⟩ := Prod.mk.inj hdest
        obtain ⟨u, hu⟩ := arrives_samePage hm hcc hnext htarget ht h hpage
        exact ⟨2, u, rfl, hu⟩
      · next hpage =>
        obtain ⟨rfl, rfl⟩ := Prod.mk.inj hdest
        obtain ⟨u, hu⟩ := arrives_across hm hcc hnext htarget ht h hpage
        exact ⟨3, u, rfl, hu⟩
  obtain ⟨m, u, rfl, hu⟩ := harrives
  obtain ⟨t, op, hfetch⟩ := hu.cycles.finish hu.ready hu.finishes
  have hpc : u.cpu.regs.pc = dest := by rw [hu.regs]
  have hlast := hfetch.last
  have hnow := hfetch.now
  have htime := hfetch.cycles.tickTime
  rw [hpc] at hlast
  refine ⟨t, op, hfetch.cycles.run, hfetch.ready.live, hfetch.ready.idle, hfetch.ready.inputs, hfetch.cycles.length,
    hlast, hfetch.cc, ?_, by omega, ?_, ?_, ?_, ?_, ?_⟩ <;> rw [hfetch.regs, hu.regs]

end Sys2Proof.Machine
end

section
/-! A tick or an opcode whose handlers issue no command stays off the PLA, the ROUTER, the time and the scripted replies
of events: the CPU reaches the rest of the machine only through its bus access (60_exceptions.md R238, R240). -/

namespace Sys2Proof.Machine

/-- The PLA lines, the ROUTER, the time and the replies of events are the same: what only commands change. -/
structure LinesSame (s t : State) : Prop where
  pla : t.pla = s.pla
  rt : t.rt = s.rt
  now : t.clk.now = s.clk.now
  events : t.env.events = s.env.events

theorem LinesSame.trans {s t u : State} (h : LinesSame s t) (g : LinesSame t u) : LinesSame s u :=
  ⟨g.pla.trans h.pla, g.rt.trans h.rt, g.now.trans h.now, g.events.trans h.events⟩

theorem settle_lines (r : MicroResult) (s : State) : LinesSame s (settle r s) := by
  unfold settle
  repeat' split
  all_goals exact ⟨rfl, rfl, rfl, rfl⟩

theorem afterAccess_lines (x : Cpu × MicroResult) (s : State) : LinesSame s (afterAccess x s) :=
  LinesSame.trans (t := { s with cpu := x.1 }) ⟨rfl, rfl, rfl, rfl⟩ (settle_lines x.2 _)

theorem schedule_lines (i : EventId) (c : Nat) (ph : Phase) (s : State) : LinesSame s (schedule i c ph s) := by
  rcases schedule_cases i c ph s with ⟨-, h⟩ | ⟨-, -, h⟩ | ⟨-, -, -, h⟩ | ⟨-, -, -, h⟩ <;> rw [h] <;>
    exact ⟨rfl, rfl, rfl, rfl⟩

section

variable {s : State} (hf : s.fault = none) (hc : s.env.calls = [])
include hf hc

theorem cpuRead_lines (n : Nat) (a : Addr) : LinesSame s (cpuRead (respond n) a s) := by
  rw [cpuRead_quiet n a s hf hc]
  exact ⟨rfl, rfl, rfl, rfl⟩

theorem cpuWrite_lines (n : Nat) (a : Addr) (d : Byte) : LinesSame s (cpuWrite (respond n) a d s) := by
  rw [cpuWrite_quiet n a d hf hc]
  exact ⟨rfl, rfl, rfl, store_events _ _ _ _⟩

/-- A micro-op reaches the rest of the machine only by its one bus access. -/
theorem runPlan_lines (plan : MicroPlan) : LinesSame s (runPlan plan s) := by
  have hcpu (c : Cpu) : LinesSame s { s with cpu := c } := ⟨rfl, rfl, rfl, rfl⟩
  cases plan with
  | done c r => exact afterAccess_lines (c, r) s
  | read c a k =>
    have haccess := (hcpu c).trans (cpuRead_lines (s := { s with cpu := c }) hf hc s.env.calls.length a)
    exact andThen_keeps haccess fun _ h => h.trans (afterAccess_lines _ _)
  | write c a d k =>
    have haccess := (hcpu c).trans (cpuWrite_lines (s := { s with cpu := c }) hf hc s.env.calls.length a d)
    exact andThen_keeps haccess fun _ h => h.trans (afterAccess_lines _ _)

theorem tickNs_lines : LinesSame s (tickNs s) :=
  andThen_keeps (runPlan_lines hf hc _) fun _ h => h.trans (schedule_lines _ _ _ _)

theorem tickSt_lines : LinesSame s (tickSt s) := by
  unfold tickSt
  split
  · exact schedule_lines _ _ _ s
  · exact tickNs_lines hf hc

theorem opcodeSlot_lines (o : Byte) : LinesSame s (opcodeSlot o s) :=
  have hplaced : LinesSame s (s.mapCpu fun c => { c with cc := slotOf o (slotSub c.cc) }) := ⟨rfl, rfl, rfl, rfl⟩
  hplaced.trans (runPlan_lines (s := s.mapCpu _) hf hc _)

theorem effect_tick_or_opcode_lines {i : Instr} (hi : i = .tickNs ∨ i = .tickSt ∨ i.cmdClass = .opcode) :
    LinesSame s (effect i s) := by
  obtain rfl | rfl | hop := hi
  · exact tickNs_lines hf hc
  · exact tickSt_lines hf hc
  · obtain ⟨o, ho⟩ := effect_opcode hop
    rw [ho]
    exact opcodeSlot_lines hf hc o

end

/-- Settles O60: a faulted machine does nothing, a live one only its slot and the next tick's scheduling. -/
theorem cpuAloneKeepsTheLines : Obligations.CpuAloneKeepsTheLines := by
  intro i s t hi hc h
  obtain ⟨-, rfl⟩ | ⟨hf, rfl⟩ := exec_cases h
  · exact ⟨rfl, rfl, rfl, rfl⟩
  · obtain ⟨hpla, hrt, hnow, hevents⟩ := effect_tick_or_opcode_lines hf hc hi
    exact ⟨hpla, hrt, hnow, hevents⟩

end Sys2Proof.Machine
end

section
/-! The power-on sequence (70_reset_and_hazards.md R260, R262, R263): `MRESET` leaves the CPU inside the delivery of an
RST, and seven `STEP`s run slots `$000` to `$006`, one bus access each (60_exceptions.md R227 to R233; logs 2, 9). -/

namespace Sys2Proof.Machine

/-! ### A power-on under way -/

/-- The CPU inside the RST delivery of a reset, at slot `k` of opcode `$00`, with the registers `regs`. -/
def Cpu.inReset (regs : Regs) (k : BitVec 3) : Cpu := { Cpu.reset regs with cc := slotOf 0x00 k }

/-- The power-on of `s` has come to `t`: `n` of its seven `STEP`s are left with `r` behind them, the CPU is `c`, the
history `l`. The time is that of the last tick, or 0 before the first. -/
structure PowerOn (s : State) (n : Nat) (r : List Input) (c : Cpu) (l : List HistEntry) (t : State) : Prop where
  run : core.run (8 - n) s = .next t
  live : t.fault = none
  idle : t.stepping = none
  quiet : t.quiet
  onlyTick : t.clk.pending = [Config.tickNsId]
  bound : 0 < t.params.walkBound
  pla : t.pla = Pla.reset
  cpu : t.cpu = c
  hist : t.hist = l
  inputs : t.inputs = stepInputs n ++ r
  tickTime : t.tickTime + 2 * n = 15
  now : t.clk.now.toNat = t.tickTime - 2

theorem run_one {s t : State} (h : step s = .next t) : core.run 1 s = .next t := by
  simp only [Host.Core.run, core, h]

/-- `MRESET` starts the power-on: the tick is pending for half-cycle 1 (R260). -/
theorem powerOn_mreset {s : State} {r : List Input} (hf : s.fault = none) (hx : s.stepping = none) (hq : s.quiet)
    (hb : 0 < s.params.walkBound)
    (hin : s.inputs = { issuer := .host, word := 0x18000000 } :: (stepInputs 7 ++ r)) :
    ∃ t, PowerOn s 7 r (Cpu.inReset (nextDraw s.env) 0) [] t := by
  have hstep : step s = .next (machineReset { s with inputs := stepInputs 7 ++ r }) :=
    (step_of_checkInput_eq_ok hf hx hin rfl).trans (exec_live .mreset (by exact hf))
  rw [machineReset_scheduled (by exact hb)] at hstep
  have htick := congrArg BitVec.toNat (time_setTime_same s.clk Config.tickNsId 1)
  exact ⟨_,
    { run := run_one hstep
      live := hf
      idle := hx
      quiet := hq
      onlyTick := rfl
      bound := hb
      pla := rfl
      cpu := rfl
      hist := rfl
      inputs := rfl
      tickTime := congrArg (· + 14) htick
      now := (congrArg (· - 2) htick).symm }⟩

section

variable {s t : State} {n : Nat} {r : List Input} {c : Cpu} {l : List HistEntry} (h : PowerOn s (n + 1) r c l t)
include h

/-- One cycle of the power-on, by what its slot does. -/
theorem PowerOn.cycle {c' : Cpu} {e : HistEntry} {env : Env} (hmode : c'.mode = .nonStealing)
    (henv : env.calls = [] ∧ env.events = [])
    (hslot : execSlot (t.ticking (stepInputs n ++ r)) =
      { t.ticking (stepInputs n ++ r) with cpu := c', hist := t.hist ++ [e], env := env }) :
    ∃ t', PowerOn s n r c' (l ++ [e]) t' := by
  have htick := h.tickTime
  have hfit : t.tickTime + 2 < 2 ^ 64 := by omega
  have hnext := cycled_tickTime hfit (stepInputs n ++ r) c' e env
  have hstep := step_tick (r := stepInputs n ++ r) h.live h.idle h.onlyTick h.bound h.inputs (by omega) hfit hmode
    hslot
  have hcount : 8 - n = 8 - (n + 1) + 1 := by omega
  exact ⟨t.cycled (stepInputs n ++ r) c' e env,
    { run := by rw [hcount, run_add h.run, run_one hstep]
      live := h.live
      idle := h.idle
      quiet := henv
      onlyTick := rfl
      bound := h.bound
      pla := h.pla
      cpu := rfl
      hist := congrArg (· ++ [e]) h.hist
      inputs := rfl
      tickTime := by omega
      now := (congrArg (· - 2) hnext).symm }⟩

/-- A cycle whose micro-op reads: any byte `d` may come, and the CPU becomes `c' d`. -/
theorem PowerOn.read {a : Addr} {c₁ : Cpu} {k : Cpu → Byte → Cpu × MicroResult} {c' : Byte → Cpu}
    (hplan : ∀ q, slotOp q c.cc q c = .read c₁ a k)
    (hend : ∀ d u, afterAccess (k c₁ d) u = { u with cpu := c' d }) (hmode : ∀ d, (c' d).mode = .nonStealing) :
    ∃ d t', PowerOn s n r (c' d) (l ++ [.read (Pla.reset.readHandler a) a d]) t' := by
  obtain rfl := h.cpu
  let u := t.ticking (stepInputs n ++ r)
  have hrun : execSlot u = runPlan (.read c₁ a k) u := congrArg (runPlan · u) (hplan t.params)
  have hread := cpuRead_quiet_andThen t.env.calls.length a (s := { u with cpu := c₁ }) h.live h.quiet.1
    fun v => afterAccess (k v.cpu (cpuReadByte a u)) v
  rw [← h.pla]
  exact ⟨_, h.cycle (hmode _) h.quiet (hrun.trans (hread.trans (hend _ _)))⟩

/-- A cycle whose micro-op writes. -/
theorem PowerOn.write {a : Addr} {d : Byte} {c₁ c' : Cpu} {k : Cpu → Cpu × MicroResult}
    (hplan : ∀ q, slotOp q c.cc q c = .write c₁ a d k)
    (hend : ∀ u, afterAccess (k c₁) u = { u with cpu := c' }) (hmode : c'.mode = .nonStealing) :
    ∃ t', PowerOn s n r c' (l ++ [.write (Pla.reset.writeHandler a) a d]) t' := by
  obtain rfl := h.cpu
  let u := t.ticking (stepInputs n ++ r)
  have hrun : execSlot u = runPlan (.write c₁ a d k) u := congrArg (runPlan · u) (hplan t.params)
  have hwrite := cpuWrite_quiet_andThen t.env.calls.length a d (s := { u with cpu := c₁ }) h.live h.quiet.1
    fun v => afterAccess (k v.cpu) v
  have henv : (t.env.store (t.pla.writeHandler a) a d).calls = [] ∧
      (t.env.store (t.pla.writeHandler a) a d).events = [] :=
    ⟨(store_calls _ _ _ _).trans h.quiet.1, (store_events _ _ _ _).trans h.quiet.2⟩
  rw [← h.pla]
  exact h.cycle hmode henv (hrun.trans (hwrite.trans (hend _)))

end

/-! ### The slots of the sequence -/

/-- The stack is `RAM` to the CPU in the mode after reset (20_memory.md R64, R65). -/
theorem reset_writeHandler_stackAddr (sp : Byte) : Pla.reset.writeHandler (stackAddr sp) = .ram := by
  revert sp
  decide

/-- The micro-op of a slot of opcode `$00`. -/
theorem slotOp_brk_apply (q : Params) (k : BitVec 3) (c : Cpu) : slotOp q (slotOf 0x00 k) q c = brkSlots k q c := by
  rw [slotOp_brk]

/-- The end of a micro-op of opcode `$00` that goes on to the next slot. -/
theorem afterAccess_brk {c : Cpu} {k : BitVec 3} (hc : c.cc = slotOf 0x00 k) (hk : k.toNat ≠ 7) (u : State) :
    afterAccess (c, .next) u = { u with cpu := { c with cc := slotOf 0x00 (k + 1) } } := by
  have hsub : (slotSub c.cc).toNat ≠ 7 := by rwa [hc, slotSub_slotOf]
  rw [← slotOf_succ _ _ hk, ← hc]
  exact settle_next (s := { u with cpu := c }) hsub

/-- With no source up and no point recorded the finish micro-op of opcode `$00` fetches (43_sequencer.md R192). -/
theorem slotOp_brk_finish {c : Cpu} (hpoint : c.intCycle = .none) (hsource : c.deliverable = false) (q : Params) :
    slotOp q (slotOf 0x00 6) q c = .read c c.regs.pc fun c' op => (c'.fetched, .jump (slotOf op 0)) := by
  have hre : c.reevaluated = c := by simp [Cpu.reevaluated, hpoint, hsource]
  have hdue : due q c = false := by simp only [due, hpoint]
  rw [slotOp_finishSlot (i := .brk) (b := 0x00) (k := 6) (by decide)]
  simp [finish, finish_reevaluates, hre, hdue]

section

variable {s t : State} {n : Nat} {r : List Input} {p : Regs} {l : List HistEntry}

/-- Slot 0: a read at PC whose byte is dropped (60_exceptions.md R227). -/
theorem PowerOn.dummyRead (h : PowerOn s (n + 1) r (Cpu.inReset p 0) l t) :
    ∃ d t', PowerOn s n r (Cpu.inReset p 1) (l ++ [.read (Pla.reset.readHandler p.pc) p.pc d]) t' :=
  h.read (fun q => slotOp_brk_apply q 0 _) (fun _ => afterAccess_brk (k := 0) rfl (by decide)) fun _ => rfl

/-- A slot that pushes a byte (60_exceptions.md R228 to R230). -/
theorem PowerOn.push {k : BitVec 3} (h : PowerOn s (n + 1) r (Cpu.inReset p k) l t) {v : Byte}
    (hop : ∀ q, brkSlots k q (Cpu.inReset p k) = Machine.push (Cpu.inReset p k) v) (hk : k.toNat ≠ 7) :
    ∃ t', PowerOn s n r (Cpu.inReset { p with sp := p.sp - 1 } (k + 1))
      (l ++ [.write .ram (0x0100 + p.sp.setWidth 16) v]) t' := by
  rw [← stackAddr_eq, ← reset_writeHandler_stackAddr p.sp]
  exact h.write (fun q => (slotOp_brk_apply q k _).trans (hop q)) (afterAccess_brk rfl hk) rfl

/-- Slots 1 to 3: PC and the status byte are pushed, `B` clear. -/
theorem PowerOn.pushes (h : PowerOn s (n + 3) r (Cpu.inReset p 1) l t) :
    ∃ t', PowerOn s n r (Cpu.inReset { p with sp := p.sp - 3 } 4)
      (l ++
        [.write .ram (0x0100 + p.sp.setWidth 16) (hiByte p.pc),
          .write .ram (0x0100 + (p.sp - 1).setWidth 16) (loByte p.pc),
          .write .ram (0x0100 + (p.sp - 2).setWidth 16) (p.flags.pushByte false)]) t' := by
  have htwo : p.sp - 1 - 1 = p.sp - 2 := by bv_omega
  have hthree : p.sp - 1 - 1 - 1 = p.sp - 3 := by bv_omega
  obtain ⟨_, h⟩ := h.push (v := hiByte p.pc) (fun _ => rfl) (by decide)
  obtain ⟨_, h⟩ := h.push (v := loByte p.pc) (fun _ => rfl) (by decide)
  obtain ⟨t', h⟩ := h.push (v := p.flags.pushByte false) (fun _ => rfl) (by decide)
  rw [← hthree, ← htwo, List.append_cons, List.append_cons]
  exact ⟨t', h⟩

/-- Slot 4: `I` set, the RST latch taken and its vector's low byte read from the kernal (60_exceptions.md R231). -/
theorem PowerOn.vectorLow (h : PowerOn s (n + 1) r (Cpu.inReset p 4) l t) :
    ∃ lo t', PowerOn s n r
      { Cpu.inReset { p with flags := { p.flags with i := true }, ea := 0xFFFC, tmp := lo } 5 with rstFlag := false }
      (l ++ [.read .kernal 0xFFFC lo]) t' :=
  h.read (a := 0xFFFC) (fun q => slotOp_brk_apply q 4 _)
    (fun _ => afterAccess_brk (k := 4) rfl (by decide)) fun _ => rfl

/-- Slot 5: the vector's high byte read, PC loaded and the delivery point cleared (60_exceptions.md R232). -/
theorem PowerOn.vectorHigh (hea : p.ea = 0xFFFC)
    (h : PowerOn s (n + 1) r { Cpu.inReset p 5 with rstFlag := false } l t) :
    ∃ hi t', PowerOn s n r { Cpu.inReset { p with pc := hi ++ p.tmp } 6 with rstFlag := false, intCycle := .none }
      (l ++ [.read .kernal 0xFFFD hi]) t' := by
  have hread := h.read (a := p.ea + 1) (fun q => slotOp_brk_apply q 5 _)
    (fun _ => afterAccess_brk (k := 5) rfl (by decide)) fun _ => rfl
  rw [hea] at hread
  exact hread

/-- Slot 6: the finish micro-op fetches the opcode at PC and ends the delivery (60_exceptions.md R233). -/
theorem PowerOn.fetch
    (h : PowerOn s (n + 1) r { Cpu.inReset p 6 with rstFlag := false, intCycle := .none } l t) :
    ∃ op t', PowerOn s n r
      { Cpu.reset { p with pc := p.pc + 1 } with
        cc := slotOf op 0, rstFlag := false, intCycle := .none, deliver := false }
      (l ++ [.read (Pla.reset.readHandler p.pc) p.pc op]) t' :=
  h.read (slotOp_brk_finish rfl rfl) (fun _ _ => rfl) fun _ => rfl

/-- Slots 4 to 6: the RST vector is read and the opcode it names fetched, the delivery over. -/
theorem PowerOn.deliver (h : PowerOn s (n + 3) r (Cpu.inReset p 4) l t) :
    ∃ lo hi op t', PowerOn s n r
      { Cpu.reset { p with
          pc := hi ++ lo + 1, flags := { p.flags with i := true }, ea := 0xFFFC, tmp := lo } with
        cc := slotOf op 0, rstFlag := false, intCycle := .none, deliver := false }
      (l ++
        [.read .kernal 0xFFFC lo, .read .kernal 0xFFFD hi,
          .read (Pla.reset.readHandler (hi ++ lo)) (hi ++ lo) op]) t' := by
  obtain ⟨lo, _, h⟩ := h.vectorLow
  obtain ⟨hi, _, h⟩ := h.vectorHigh rfl
  obtain ⟨op, t', h⟩ := h.fetch
  refine ⟨lo, hi, op, t', ?_⟩
  rw [List.append_cons, List.append_cons]
  exact h

end

/-- Settles O54: `MRESET`, then the dummy read, the three pushes, the RST vector's two bytes and the fetch. -/
theorem powerOnSequence : Obligations.PowerOnSequence := by
  intro s r p hf hx hq hb hin hp
  obtain ⟨_, h⟩ := powerOn_mreset hf hx hq hb hin
  rw [← hp] at h
  obtain ⟨d, _, h⟩ := h.dummyRead
  obtain ⟨_, h⟩ := h.pushes
  obtain ⟨lo, hi, op, t, h⟩ := h.deliver
  have htime : t.tickTime = 15 := h.tickTime
  have hnow : t.clk.now.toNat = 13 := by rw [h.now, htime]
  refine ⟨t, d, lo, hi, op, h.run, h.live, h.inputs, BitVec.eq_of_toNat_eq hnow, ?_⟩
  rw [h.hist, h.cpu]
  exact ⟨rfl, rfl, rfl, rfl, rfl, rfl, rfl, rfl, rfl, rfl, rfl, h.onlyTick, BitVec.eq_of_toNat_eq htime⟩

end Sys2Proof.Machine
end
